-- ==== Sys2Proof/Word.lean ====
section
/-! DEFINITION. The words of DBC-CORE: their widths (00_scope.md R6, R11), nothing else. -/

namespace Sys2Proof

/-- A byte of a frame or of the payload. -/
abbrev Byte := BitVec 8

/-- The width of the CRC register, of the header word and of a checksum (CRC_WIDTH, R6). -/
abbrev Word16 := BitVec 16

/-- A raw value, a payload image, response data (RAW_WIDTH, R6). -/
abbrev Word := BitVec 64

/-- A command word `{OP[7:0], ARG[63:0]}` (30_encoding.md R80). -/
abbrev CmdWord := BitVec 72

/-- The descriptor register's 18 bits (10_state.md R28). It is read whole by `RD DESC`, so it stays a bit
vector; its fields are the accessors of Sys2Proof/Machine/Operands.lean. -/
abbrev Desc := BitVec 18

end Sys2Proof
end

