-- ==== Sys2Proof/Config.lean ====
section
/-! DEFINITION. The implementation parameters of 00_scope.md R6: the fixed ones with their values, and the
one the spec leaves OPEN for the block, `BE_START_NUMBERING`, as a constant without a body. -/

namespace Sys2Proof

/-- The two readings of a big-endian `start_bit` (42_codec.md R154). -/
inductive BeStartNumbering where
  | msb0
  | lsb0
deriving DecidableEq, Repr, Inhabited

/-- The three realisations of the CRC step that R6 and R122 allow; they are one function. -/
inductive CrcImpl where
  | table
  | parallel
  | serial
deriving DecidableEq, Repr

namespace Config

/-- `BE_START_NUMBERING` of the instance (R6, R154). DEDUCED (log entry 5), safe: no body, so no proof can
know which of the two it is; a claim about it holds for both. -/
opaque beStartNumbering : BeStartNumbering

/-- FRAME_BYTES (R6). -/
abbrev frameBytes : Nat := 12
/-- CRC_COVERED_BYTES (R6). -/
abbrev crcCoveredBytes : Nat := 10
/-- PAYLOAD_BYTES (R6). -/
abbrev payloadBytes : Nat := 8
/-- PAYLOAD_BITS (R6). -/
abbrev payloadBits : Nat := 64
/-- Offset of the payload in the frame (20_memory.md R61). -/
abbrev payloadOffset : Nat := 2
/-- Offset of the checksum in the frame (20_memory.md R61). -/
abbrev checksumOffset : Nat := 10
/-- BITLEN_MIN (R6). -/
abbrev bitlenMin : Nat := 1
/-- BITLEN_MAX (R6). -/
abbrev bitlenMax : Nat := 64
/-- CRC_POLY_REFLECTED (R6, 40_crc.md R110). -/
abbrev crcPoly : Word16 := 0xA001#16
/-- CRC_INIT (R6, 40_crc.md R110). -/
abbrev crcInit : Word16 := 0x0000#16

end Config
end Sys2Proof
end

