-- ==== Sys2Proof/Syntax.lean ====
section
/-! DEFINITION. The commands of DBC-CORE: one constructor per row of spec/opcode_table.json
(30_encoding.md R84), with the operands of its format (R82). -/

namespace Sys2Proof

/-- A signal's byte order (10_state.md R28: ORDER 0 is little_endian, 1 is big_endian). -/
inductive ByteOrder where
  | little
  | big
deriving DecidableEq, Repr

/-- The thirteen commands (30_encoding.md R84). -/
inductive Instr where
  /-- `RESET`, format Z. -/
  | reset
  /-- `CRC_INIT`, format Z. -/
  | crcInit
  /-- `CRC_BYTE b`, format B. -/
  | crcByte (b : Byte)
  /-- `CRC_VERIFY e`, format H. -/
  | crcVerify (e : Word16)
  /-- `FRM_RESET`, format Z. -/
  | frmReset
  /-- `FRM_PUSH b`, format B. -/
  | frmPush (b : Byte)
  /-- `FRM_DECODE`, format Z. -/
  | frmDecode
  /-- `SETDESC start len order signed`, format D. -/
  | setdesc (start len : Byte) (order : ByteOrder) (signed : Bool)
  /-- `EXTRACT`, format Z. -/
  | extract
  /-- `ENC_BEGIN`, format Z. -/
  | encBegin
  /-- `INSERT v`, format V. -/
  | insert (v : Word)
  /-- `PLOAD v`, format V. -/
  | pload (v : Word)
  /-- `RD r`, format R: any 8-bit register number; which are legal is `Instr.wf`. -/
  | rd (r : Byte)
deriving DecidableEq, Repr

end Sys2Proof
end

