-- ==== Sys2Proof/WellFormed.lean ====
section
/-! DEFINITION. Which terms of `Instr` are legally encodable commands. -/

namespace Sys2Proof

/-- The only operand with illegal values is `RD`'s register number: 0x00 to 0x0B are the table of
10_state.md R25, every other number is refused. -/
def Instr.wf : Instr → Bool
  | .reset => true
  | .crcInit => true
  | .crcByte _ => true
  | .crcVerify _ => true
  | .frmReset => true
  | .frmPush _ => true
  | .frmDecode => true
  | .setdesc _ _ _ _ => true
  | .extract => true
  | .encBegin => true
  | .insert _ => true
  | .pload _ => true
  | .rd r => decide (r.toNat ≤ 0x0B)

end Sys2Proof
end

