-- ==== Sys2Proof/Decode.lean ====
section
/-! DEFINITION. Decoding a 72-bit command word (30_encoding.md R80 to R89), and the encoder written from
the same table. -/

namespace Sys2Proof

/-! ## The word -/

/-- `OP = W[71:64]` (R80). -/
def opOf (w : CmdWord) : Byte := w.extractLsb' 64 8

/-- `ARG = W[63:0]` (R80). -/
def argOf (w : CmdWord) : Word := w.extractLsb' 0 64

/-- The word `{OP, ARG}` (R80). -/
def cmdWord (op : Byte) (arg : Word) : CmdWord := (op.setWidth 72 <<< 64) ||| arg.setWidth 72

/-! ## Formats (R82): the reserved bits of `ARG` -/

/-- Format Z: no field, every bit reserved. -/
def reservedZ : Word := 0xFFFFFFFFFFFFFFFF#64
/-- Formats B and R: one 8-bit field in `ARG[7:0]`. -/
def reservedB : Word := 0xFFFFFFFFFFFFFF00#64
/-- Format H: one 16-bit field in `ARG[15:0]`. -/
def reservedH : Word := 0xFFFFFFFFFFFF0000#64
/-- Format D: the four descriptor fields in `ARG[17:0]`. -/
def reservedD : Word := 0xFFFFFFFFFFFC0000#64

/-- ORDER as a bit (10_state.md R28). -/
def ByteOrder.toBit : ByteOrder → Bool
  | .little => false
  | .big => true

/-- ORDER from its bit. -/
def ByteOrder.ofBit (b : Bool) : ByteOrder := if b then .big else .little

/-- The 18 descriptor bits: START [7:0], LEN [15:8], ORDER [16], SIGNED [17] (10_state.md R28),
assembled as R91 writes them: `s | (l << 8) | (o << 16) | (g << 17)`. -/
def descBits (start len : Byte) (order : ByteOrder) (signed : Bool) : Desc :=
  start.setWidth 18 ||| (len.setWidth 18 <<< 8) ||| ((BitVec.ofBool order.toBit).setWidth 18 <<< 16) |||
    ((BitVec.ofBool signed).setWidth 18 <<< 17)

/-! ## Decoding (R85) -/

/-- Why a word is no legally encoded command. -/
inductive DecodeError where
  /-- `OP` is none of the thirteen (R86). -/
  | illegalOpcode
  /-- A reserved bit of the format is 1 (R87). -/
  | reservedBits
  /-- `RD` of a register number above 0x0B (R87, R25). -/
  | badRegister
deriving DecidableEq, Repr

/-- The reserved-bit check of R87, before anything else is done with the argument. -/
def checkReserved (reserved arg : Word) (i : Instr) : Except DecodeError Instr :=
  if arg &&& reserved ≠ 0#64 then .error .reservedBits else .ok i

/-- `RD`'s second check (R85): the register number is one of the table of R25. -/
def checkRegister : Except DecodeError Instr → Except DecodeError Instr
  | .ok i => if i.wf then .ok i else .error .badRegister
  | .error e => .error e

/-- The opcode map (R84), total on every word (R85). -/
def decode (w : CmdWord) : Except DecodeError Instr :=
  let arg := argOf w
  let byte := arg.extractLsb' 0 8
  match (opOf w).toNat with
  | 0x01 => checkReserved reservedZ arg .reset
  | 0x10 => checkReserved reservedZ arg .crcInit
  | 0x11 => checkReserved reservedB arg (.crcByte byte)
  | 0x12 => checkReserved reservedH arg (.crcVerify (arg.extractLsb' 0 16))
  | 0x20 => checkReserved reservedZ arg .frmReset
  | 0x21 => checkReserved reservedB arg (.frmPush byte)
  | 0x22 => checkReserved reservedZ arg .frmDecode
  | 0x30 =>
    checkReserved reservedD arg
      (.setdesc byte (arg.extractLsb' 8 8) (.ofBit (arg.getLsbD 16)) (arg.getLsbD 17))
  | 0x31 => checkReserved reservedZ arg .extract
  | 0x32 => checkReserved reservedZ arg .encBegin
  | 0x33 => .ok (.insert arg)
  | 0x34 => .ok (.pload arg)
  | 0x40 => checkRegister (checkReserved reservedB arg (.rd byte))
  | _ => .error .illegalOpcode

/-! ## Encoding -/

/-- The opcode of a command (R84). -/
def Instr.opcode : Instr → Byte
  | .reset => 0x01#8
  | .crcInit => 0x10#8
  | .crcByte _ => 0x11#8
  | .crcVerify _ => 0x12#8
  | .frmReset => 0x20#8
  | .frmPush _ => 0x21#8
  | .frmDecode => 0x22#8
  | .setdesc _ _ _ _ => 0x30#8
  | .extract => 0x31#8
  | .encBegin => 0x32#8
  | .insert _ => 0x33#8
  | .pload _ => 0x34#8
  | .rd _ => 0x40#8

/-- The argument of a command: its fields in place, reserved bits zero (R82, R83, R91). -/
def Instr.arg : Instr → Word
  | .reset => 0#64
  | .crcInit => 0#64
  | .crcByte b => b.setWidth 64
  | .crcVerify e => e.setWidth 64
  | .frmReset => 0#64
  | .frmPush b => b.setWidth 64
  | .frmDecode => 0#64
  | .setdesc start len order signed => (descBits start len order signed).setWidth 64
  | .extract => 0#64
  | .encBegin => 0#64
  | .insert v => v
  | .pload v => v
  | .rd r => r.setWidth 64

/-- The word of a command. -/
def encode (i : Instr) : CmdWord := cmdWord i.opcode i.arg

/-- The `mask` of a command's row of spec/opcode_table.json. -/
def Instr.tableMask : Instr → CmdWord
  | .reset => 0xFFFFFFFFFFFFFFFFFF#72
  | .crcInit => 0xFFFFFFFFFFFFFFFFFF#72
  | .crcByte _ => 0xFFFFFFFFFFFFFFFF00#72
  | .crcVerify _ => 0xFFFFFFFFFFFFFF0000#72
  | .frmReset => 0xFFFFFFFFFFFFFFFFFF#72
  | .frmPush _ => 0xFFFFFFFFFFFFFFFF00#72
  | .frmDecode => 0xFFFFFFFFFFFFFFFFFF#72
  | .setdesc _ _ _ _ => 0xFFFFFFFFFFFFFC0000#72
  | .extract => 0xFFFFFFFFFFFFFFFFFF#72
  | .encBegin => 0xFFFFFFFFFFFFFFFFFF#72
  | .insert _ => 0xFF0000000000000000#72
  | .pload _ => 0xFF0000000000000000#72
  | .rd _ => 0xFFFFFFFFFFFFFFFF00#72

/-- The `match` of a command's row of spec/opcode_table.json. -/
def Instr.tableMatch : Instr → CmdWord
  | .reset => 0x010000000000000000#72
  | .crcInit => 0x100000000000000000#72
  | .crcByte _ => 0x110000000000000000#72
  | .crcVerify _ => 0x120000000000000000#72
  | .frmReset => 0x200000000000000000#72
  | .frmPush _ => 0x210000000000000000#72
  | .frmDecode => 0x220000000000000000#72
  | .setdesc _ _ _ _ => 0x300000000000000000#72
  | .extract => 0x310000000000000000#72
  | .encBegin => 0x320000000000000000#72
  | .insert _ => 0x330000000000000000#72
  | .pload _ => 0x340000000000000000#72
  | .rd _ => 0x400000000000000000#72

/-- The word that `nbits` table bits make: the bits above them, and above the word's 72, are 0
(DESIGN CHOICE, log entry 18). -/
def tableWord (nbits w : Nat) : CmdWord := BitVec.ofNat 72 (w % 2 ^ nbits)

/-- What the decoder reads from an instruction whose table bits are `w`; every row has one 72-bit word,
whose bit 0 is its least significant bit (R11, R80). -/
def decodeTableWord (nbits w : Nat) : Option Instr :=
  match decode (tableWord nbits w) with
  | .ok i => some i
  | .error _ => none

end Sys2Proof
end

