-- ==== Sys2Proof/Machine/State.lean ====
section
/-! DEFINITION. The state of one DBC-CORE instance: the ten items of 10_state.md R20 as plain data, the
command port's input and the responses given, and the state after reset. -/

namespace Sys2Proof.Machine

/-- The ten statuses of 60_exceptions.md R230; codes 0x0A to 0xFF are never produced. -/
inductive Status where
  | ok
  | eLength
  | eCrc
  | eNoFrame
  | eDesc
  | eFit
  | eOverlap
  | eEncode
  | eOpcode
  | eArg
deriving DecidableEq, Repr

/-- One response (30_encoding.md R81). Its 72-bit word is `Response.toWord` of Machine/Ops.lean. -/
structure Response where
  status : Status
  data : Word
deriving DecidableEq, Repr

/-- What can arrive at the block's inputs (70_reset_and_hazards.md R265): a command word on the command
port, or an assertion of `rst_n`. -/
inductive PortInput where
  | command (w : CmdWord)
  | hardReset
deriving DecidableEq, Repr

/-- The byte-addressed buffer `FBUF` as (address, byte) pairs in one canonical form (`Memory.wf` of
Machine/Ops.lean); an address that is not listed reads as 0x00, the reset contents of R31. -/
abbrev Memory := List Host.Cell

/-- The whole architectural state: exactly the ten items of R20. -/
structure Regs where
  /-- `CRC`: the CRC-16/ARC register. -/
  crc : Word16
  /-- `FBUF[0..11]`: the frame bytes received so far. -/
  fbuf : Memory
  /-- `FLEN`: bytes pushed since the last frame reset; 13 means more than 12. -/
  flen : BitVec 4
  /-- `FVALID`: a DecodedFrame exists. -/
  fvalid : Bool
  /-- `HDR`: the header word of the decoded frame. -/
  hdr : Word16
  /-- `CHK`: the checksum of the decoded frame. -/
  chk : Word16
  /-- `PBUF`: the payload buffer; bit i is payload bit i (flat index). -/
  pbuf : Word
  /-- `COVER`: bit i is 1 when payload bit i is taken. -/
  cover : Word
  /-- `ENCERR`: the current encode has been rejected. -/
  encerr : Bool
  /-- `DESC`: the current signal descriptor. -/
  desc : Desc
deriving DecidableEq, Repr

/-- The block with its ports. `inputs` and `responses` are no registers: no command reads them
(log entries 1 and 2). -/
structure State where
  /-- The ten architectural items. -/
  regs : Regs
  /-- Presented by the host and not yet taken, oldest first (R267: the host's list of command words). -/
  inputs : List PortInput
  /-- Given by the block, oldest first (R267: the list of responses). -/
  responses : List Response
deriving DecidableEq, Repr

/-- The block has no fault: an error is a status in a response, and no status stops the block
(60_exceptions.md R236, R238; log entry 12). No constructor, so nobody raises one. -/
inductive Fault where
deriving DecidableEq, Repr

/-- Why the model gives an instruction no meaning. -/
inductive Refusal where
  /-- Raised by an arm of `exec` whose instruction has no meaning yet; safe. No arm raises it now. -/
  | notModelled (mnemonic : String)
deriving DecidableEq, Repr

/-- Every item after hardware reset and after `RESET` is zero (R31, R261). -/
def Regs.reset : Regs where
  crc := 0x0000#16
  fbuf := []
  flen := 0#4
  fvalid := false
  hdr := 0x0000#16
  chk := 0x0000#16
  pbuf := 0#64
  cover := 0#64
  encerr := false
  desc := 0#18

/-- The machine right after reset: nothing presented, nothing answered (log entry 8). -/
def State.reset : State where
  regs := Regs.reset
  inputs := []
  responses := []

end Sys2Proof.Machine
end

