-- ==== Sys2Proof/Machine/Ops.lean ====
section
/-! DEFINITION. The operations every command is built from: the frame buffer's bytes, little-endian
packing, ending a command with a response, refusing one, taking the next input from the ports. -/

namespace Sys2Proof.Machine

/-- The outcome type of the machine. -/
abbrev Result := Host.Outcome State Fault Refusal

/-! ## The frame buffer (20_memory.md R50, R51) -/

/-- The byte at address `a`; one that is not listed is 0x00 (R31). -/
def Memory.read (m : Memory) (a : Nat) : Byte :=
  match m with
  | [] => 0x00#8
  | c :: rest => if c.1 = a then c.2 else Memory.read rest a

/-- `m` with no entry for `a`. -/
def Memory.erase (m : Memory) (a : Nat) : Memory := m.filter (fun c => decide (c.1 ≠ a))

/-- `m` with `(a, b)` put before the first entry of a higher address. -/
def Memory.place (m : Memory) (a : Nat) (b : Byte) : Memory :=
  match m with
  | [] => [(a, b)]
  | c :: rest => if a < c.1 then (a, b) :: c :: rest else c :: Memory.place rest a b

/-- `MemWrite(FBUF, a, 1, b)` (R51). Writing what an unlisted address reads as removes the entry. -/
def Memory.write (m : Memory) (a : Nat) (b : Byte) : Memory :=
  if b = 0x00#8 then m.erase a else (m.erase a).place a b

/-- `MemRead(FBUF, a, n)`: the bytes at `a`, …, `a + n − 1` (R51). -/
def Memory.bytes (m : Memory) (a n : Nat) : List Byte :=
  (List.range n).map (fun i => m.read (a + i))

/-- The canonical form: addresses strictly rising and below 12, no entry that reads as an unlisted one. -/
def Memory.wf (m : Memory) : Bool :=
  decide (m.Pairwise (fun c d => c.1 < d.1)) &&
    m.all (fun c => decide (c.1 < Config.frameBytes) && decide (c.2 ≠ 0x00#8))

/-! ## Byte order (00_scope.md R12; 20_memory.md R54, R55) -/

/-- `u16le(b0, b1) = {b1, b0}`: b0 is the less significant byte. -/
def u16le (b0 b1 : Byte) : Word16 := b0.setWidth 16 ||| (b1.setWidth 16 <<< 8)

/-- `pack64le`: byte i at bits `8i+7 : 8i`. -/
def pack64le : List Byte → Word
  | [] => 0#64
  | b :: bs => b.setWidth 64 ||| (pack64le bs <<< 8)

/-- `unpack64le`: byte i is `v[8i+7 : 8i]`. -/
def unpack64le (v : Word) : List Byte :=
  (List.range Config.payloadBytes).map (fun i => v.extractLsb' (8 * i) 8)

/-- `x[i] <- b` on a 64-bit word (R12). -/
def setBit (x : Word) (i : Nat) (b : Bool) : Word :=
  if b then x ||| (1#64 <<< i) else x &&& ~~~(1#64 <<< i)

/-! ## Ending a command -/

/-- The status byte (60_exceptions.md R230). -/
def Status.code : Status → Byte
  | .ok => 0x00#8
  | .eLength => 0x01#8
  | .eCrc => 0x02#8
  | .eNoFrame => 0x03#8
  | .eDesc => 0x04#8
  | .eFit => 0x05#8
  | .eOverlap => 0x06#8
  | .eEncode => 0x07#8
  | .eOpcode => 0x08#8
  | .eArg => 0x09#8

/-- The response word `{status[7:0], data[63:0]}` (30_encoding.md R81). -/
def Response.toWord (q : Response) : BitVec 72 :=
  (q.status.code.setWidth 72 <<< 64) ||| q.data.setWidth 72

/-- What a command does: the registers after it, and its response, a function of the registers before it
and of the command word alone (00_scope.md R10). -/
structure Effect where
  regs : Regs
  response : Response
deriving DecidableEq, Repr

/-- `return (OK, d)` with the registers `r` (00_scope.md R12). -/
def accept (r : Regs) (d : Word) : Effect := ⟨r, ⟨.ok, d⟩⟩

/-- `raise <Status> leaving r`: data 0, no register changes but those of `r` (R12, R81, R232). It is all an
error does: nothing is saved, no control goes anywhere (60_exceptions.md R236). -/
def raise (st : Status) (r : Regs) : Effect := ⟨r, ⟨st, 0#64⟩⟩

/-- The command ends: its register writes appear together and its one response is given (R59, R265). -/
def perform (e : Regs → Effect) (s : State) : Result :=
  .next { s with regs := (e s.regs).regs, responses := s.responses ++ [(e s.regs).response] }

/-- The status of a word that is no legally encoded command (30_encoding.md R86, R87). -/
def DecodeError.status : DecodeError → Status
  | .illegalOpcode => .eOpcode
  | .reservedBits => .eArg
  | .badRegister => .eArg

/-- A word that is no legally encoded command is refused and changes no register (R86, R87). -/
def rejectWord (e : DecodeError) (s : State) : Result := perform (raise (DecodeError.status e)) s

/-! ## Taking the next input -/

/-- What a step finds at the ports. -/
inductive Fetched where
  /-- Nothing is presented. -/
  | idle
  /-- `rst_n` was asserted; the state after it. -/
  | reset (s : State)
  /-- A command word was taken; the state that still has the rest of the inputs. -/
  | command (w : CmdWord) (s : State)
deriving DecidableEq, Repr

/-- Takes the oldest input (R64: commands execute in the order the host presents them). Hardware reset
makes every register zero and takes no command (R260, R265); what was answered, and what the host presents
next, is the host's and stays (DESIGN CHOICE, log entry 4). -/
def fetch (s : State) : Fetched :=
  match s.inputs with
  | [] => .idle
  | .hardReset :: rest => .reset { s with regs := Regs.reset, inputs := rest }
  | .command w :: rest => .command w { s with inputs := rest }

/-- The host presents `w` as the next command word, before anything it presented earlier. -/
def presentNext (w : CmdWord) (s : State) : State := { s with inputs := .command w :: s.inputs }

end Sys2Proof.Machine
end

