-- ==== Sys2Proof/Machine/Operands.lean ====
section
/-! DEFINITION. What a command operates on: the header views, the descriptor's fields, and where the bits
of a signal are (10_state.md R26, R28; 20_memory.md R52, R53; 42_codec.md R150 to R157). -/

namespace Sys2Proof

/-! ## Descriptor fields (10_state.md R28) -/

/-- START, an unsigned number 0..255. -/
def Desc.start (d : Desc) : Nat := (d.extractLsb' 0 8).toNat
/-- LEN, an unsigned number 0..255. -/
def Desc.len (d : Desc) : Nat := (d.extractLsb' 8 8).toNat
/-- ORDER. -/
def Desc.order (d : Desc) : ByteOrder := .ofBit (d.getLsbD 16)
/-- SIGNED. -/
def Desc.signed (d : Desc) : Bool := d.getLsbD 17

namespace Machine

/-! ## Header views (10_state.md R26) -/

/-- `DEV = HDR[4:0]`, device_address. -/
def headerDev (h : Word16) : BitVec 5 := h.extractLsb' 0 5
/-- `MID = HDR[14:5]`, message_id. -/
def headerMid (h : Word16) : BitVec 10 := h.extractLsb' 5 10
/-- `RSV = HDR[15]`, reserved. -/
def headerRsv (h : Word16) : BitVec 1 := h.extractLsb' 15 1

/-! ## The frame's parts (20_memory.md R61) -/

/-- `u16le(FBUF[0], FBUF[1])`. -/
def frameHeader (m : Memory) : Word16 := u16le (m.read 0) (m.read 1)
/-- The payload image `pack64le(FBUF[2], …, FBUF[9])`. -/
def framePayload (m : Memory) : Word := pack64le (m.bytes Config.payloadOffset Config.payloadBytes)
/-- The received checksum `u16le(FBUF[10], FBUF[11])`. -/
def frameChecksum (m : Memory) : Word16 :=
  u16le (m.read Config.checksumOffset) (m.read (Config.checksumOffset + 1))
/-- The bytes the checksum covers, `FBUF[0..9]`. -/
def frameCovered (m : Memory) : List Byte := m.bytes 0 Config.crcCoveredBytes

/-! ## Where the bits of a signal are -/

/-- The flat index of MSB0 position `p` (20_memory.md R53). -/
def flat (p : Nat) : Nat := 8 * (p / 8) + 7 - p % 8

/-- `p0`, the MSB0 position where a big-endian walk begins, under a numbering (42_codec.md R154). -/
def bigStart (n : BeStartNumbering) (d : Desc) : Nat :=
  match n with
  | .msb0 => d.start
  | .lsb0 => flat d.start

/-- `loc(k)`: the flat index of the payload bit that holds bit k of the raw value (R150, R152, R153). -/
def loc (n : BeStartNumbering) (d : Desc) (k : Nat) : Nat :=
  match d.order with
  | .little => d.start + k
  | .big => flat (bigStart n d + d.len - 1 - k)

/-- `valid(DESC)` (R157); the sums are of mathematical integers (00_scope.md R15). -/
def validDesc (n : BeStartNumbering) (d : Desc) : Bool :=
  decide (Config.bitlenMin ≤ d.len) && decide (d.len ≤ Config.bitlenMax) &&
    match d.order with
    | .little => decide (d.start + d.len ≤ Config.payloadBits)
    | .big =>
      match n with
      | .msb0 => decide (d.start + d.len ≤ Config.payloadBits)
      | .lsb0 => decide (d.start ≤ 63) && decide (flat d.start + d.len ≤ Config.payloadBits)

/-- `mask(L) = 2^L − 1` as a 64-bit value (00_scope.md R12). -/
def lowMask (l : Nat) : Word := BitVec.ofNat 64 (2 ^ l - 1)

/-- The 64-bit word with the bits `pos 0`, …, `pos (n − 1)` set. -/
def bitsAt (pos : Nat → Nat) : Nat → Word
  | 0 => 0#64
  | k + 1 => setBit (bitsAt pos k) (pos k) true

/-- `rmask(DESC)` (R155). -/
def rangeMask (n : BeStartNumbering) (d : Desc) : Word := bitsAt (loc n d) d.len

end Machine
end Sys2Proof
end

