-- ==== Sys2Proof/Machine/Flags.lean ====
section
/-! DEFINITION. The two flags FVALID and ENCERR, the conditions a command tests, and the flag writes of
the refusals (10_state.md R23, R27; 42_codec.md R159; 60_exceptions.md R230). -/

namespace Sys2Proof.Machine

/-- `STATUS`: bit 0 FVALID, bit 1 ENCERR, the rest 0 (10_state.md R27). -/
def statusWord (r : Regs) : Word :=
  (BitVec.ofBool r.fvalid).setWidth 64 ||| ((BitVec.ofBool r.encerr).setWidth 64 <<< 1)

/-- "leaving `FVALID <- 0`": a failing `FRM_DECODE` (41_frame.md R134). -/
def dropFrame (r : Regs) : Regs := { r with fvalid := false }

/-- "leaving `ENCERR <- 1`": an `INSERT` refused with E_DESC, E_FIT or E_OVERLAP (42_codec.md R163). -/
def rejectEncode (r : Regs) : Regs := { r with encerr := true }

/-- `fits(v, DESC)` (42_codec.md R159), on the mathematical integers `uint(v)` and `sint(v)` (R13). -/
def fits (v : Word) (d : Desc) : Bool :=
  if d.signed then
    decide (-(2 : Int) ^ (d.len - 1) ≤ v.toInt) && decide (v.toInt < (2 : Int) ^ (d.len - 1))
  else decide (v.toNat < 2 ^ d.len)

/-- The signal's range meets bits already taken (42_codec.md R163). -/
def overlaps (n : BeStartNumbering) (r : Regs) : Bool :=
  decide (r.cover &&& rangeMask n r.desc ≠ 0#64)

/-- `FLEN = 12`: exactly 12 bytes were pushed (41_frame.md R133, R134). -/
def frameComplete (r : Regs) : Bool := decide (r.flen.toNat = Config.frameBytes)

/-- `min(FLEN + 1, 13)`, saturating (41_frame.md R132, 00_scope.md R15). -/
def nextFlen (l : BitVec 4) : BitVec 4 := BitVec.ofNat 4 (min (l.toNat + 1) (Config.frameBytes + 1))

end Sys2Proof.Machine
end

