-- ==== Sys2Proof/Machine/Crc.lean ====
section
/-! DEFINITION. The CRC engine (40_crc.md): the CRC-16/ARC step in its three forms, `checksum`, `verify`,
and the commands CRC_INIT, CRC_BYTE, CRC_VERIFY. -/

namespace Sys2Proof.Machine

/-! ## The algorithm -/

/-- One bit step (R111). -/
def bitstep (r : Word16) : Word16 :=
  if r.getLsbD 0 then (r >>> 1) ^^^ Config.crcPoly else r >>> 1

/-- `n` bit steps. -/
def bitsteps : Nat → Word16 → Word16
  | 0, r => r
  | n + 1, r => bitsteps n (bitstep r)

/-- One byte step, serial form (R112). "This form is the definition". -/
def crcUpdate (r : Word16) (b : Byte) : Word16 := bitsteps 8 (r ^^^ b.setWidth 16)

/-! ### The lookup table `T` as the spec prints it (R113) -/

/-- Entries 0x00 to 0x1F of `T` (R113). -/
def crcTable0 : List Word16 :=
  [
    0x0000#16, 0xC0C1#16, 0xC181#16, 0x0140#16, 0xC301#16, 0x03C0#16, 0x0280#16, 0xC241#16,
    0xC601#16, 0x06C0#16, 0x0780#16, 0xC741#16, 0x0500#16, 0xC5C1#16, 0xC481#16, 0x0440#16,
    0xCC01#16, 0x0CC0#16, 0x0D80#16, 0xCD41#16, 0x0F00#16, 0xCFC1#16, 0xCE81#16, 0x0E40#16,
    0x0A00#16, 0xCAC1#16, 0xCB81#16, 0x0B40#16, 0xC901#16, 0x09C0#16, 0x0880#16, 0xC841#16]

/-- Entries 0x20 to 0x3F of `T` (R113). -/
def crcTable1 : List Word16 :=
  [
    0xD801#16, 0x18C0#16, 0x1980#16, 0xD941#16, 0x1B00#16, 0xDBC1#16, 0xDA81#16, 0x1A40#16,
    0x1E00#16, 0xDEC1#16, 0xDF81#16, 0x1F40#16, 0xDD01#16, 0x1DC0#16, 0x1C80#16, 0xDC41#16,
    0x1400#16, 0xD4C1#16, 0xD581#16, 0x1540#16, 0xD701#16, 0x17C0#16, 0x1680#16, 0xD641#16,
    0xD201#16, 0x12C0#16, 0x1380#16, 0xD341#16, 0x1100#16, 0xD1C1#16, 0xD081#16, 0x1040#16]

/-- Entries 0x40 to 0x5F of `T` (R113). -/
def crcTable2 : List Word16 :=
  [
    0xF001#16, 0x30C0#16, 0x3180#16, 0xF141#16, 0x3300#16, 0xF3C1#16, 0xF281#16, 0x3240#16,
    0x3600#16, 0xF6C1#16, 0xF781#16, 0x3740#16, 0xF501#16, 0x35C0#16, 0x3480#16, 0xF441#16,
    0x3C00#16, 0xFCC1#16, 0xFD81#16, 0x3D40#16, 0xFF01#16, 0x3FC0#16, 0x3E80#16, 0xFE41#16,
    0xFA01#16, 0x3AC0#16, 0x3B80#16, 0xFB41#16, 0x3900#16, 0xF9C1#16, 0xF881#16, 0x3840#16]

/-- Entries 0x60 to 0x7F of `T` (R113). -/
def crcTable3 : List Word16 :=
  [
    0x2800#16, 0xE8C1#16, 0xE981#16, 0x2940#16, 0xEB01#16, 0x2BC0#16, 0x2A80#16, 0xEA41#16,
    0xEE01#16, 0x2EC0#16, 0x2F80#16, 0xEF41#16, 0x2D00#16, 0xEDC1#16, 0xEC81#16, 0x2C40#16,
    0xE401#16, 0x24C0#16, 0x2580#16, 0xE541#16, 0x2700#16, 0xE7C1#16, 0xE681#16, 0x2640#16,
    0x2200#16, 0xE2C1#16, 0xE381#16, 0x2340#16, 0xE101#16, 0x21C0#16, 0x2080#16, 0xE041#16]

/-- Entries 0x80 to 0x9F of `T` (R113). -/
def crcTable4 : List Word16 :=
  [
    0xA001#16, 0x60C0#16, 0x6180#16, 0xA141#16, 0x6300#16, 0xA3C1#16, 0xA281#16, 0x6240#16,
    0x6600#16, 0xA6C1#16, 0xA781#16, 0x6740#16, 0xA501#16, 0x65C0#16, 0x6480#16, 0xA441#16,
    0x6C00#16, 0xACC1#16, 0xAD81#16, 0x6D40#16, 0xAF01#16, 0x6FC0#16, 0x6E80#16, 0xAE41#16,
    0xAA01#16, 0x6AC0#16, 0x6B80#16, 0xAB41#16, 0x6900#16, 0xA9C1#16, 0xA881#16, 0x6840#16]

/-- Entries 0xA0 to 0xBF of `T` (R113). -/
def crcTable5 : List Word16 :=
  [
    0x7800#16, 0xB8C1#16, 0xB981#16, 0x7940#16, 0xBB01#16, 0x7BC0#16, 0x7A80#16, 0xBA41#16,
    0xBE01#16, 0x7EC0#16, 0x7F80#16, 0xBF41#16, 0x7D00#16, 0xBDC1#16, 0xBC81#16, 0x7C40#16,
    0xB401#16, 0x74C0#16, 0x7580#16, 0xB541#16, 0x7700#16, 0xB7C1#16, 0xB681#16, 0x7640#16,
    0x7200#16, 0xB2C1#16, 0xB381#16, 0x7340#16, 0xB101#16, 0x71C0#16, 0x7080#16, 0xB041#16]

/-- Entries 0xC0 to 0xDF of `T` (R113). -/
def crcTable6 : List Word16 :=
  [
    0x5000#16, 0x90C1#16, 0x9181#16, 0x5140#16, 0x9301#16, 0x53C0#16, 0x5280#16, 0x9241#16,
    0x9601#16, 0x56C0#16, 0x5780#16, 0x9741#16, 0x5500#16, 0x95C1#16, 0x9481#16, 0x5440#16,
    0x9C01#16, 0x5CC0#16, 0x5D80#16, 0x9D41#16, 0x5F00#16, 0x9FC1#16, 0x9E81#16, 0x5E40#16,
    0x5A00#16, 0x9AC1#16, 0x9B81#16, 0x5B40#16, 0x9901#16, 0x59C0#16, 0x5880#16, 0x9841#16]

/-- Entries 0xE0 to 0xFF of `T` (R113). -/
def crcTable7 : List Word16 :=
  [
    0x8801#16, 0x48C0#16, 0x4980#16, 0x8941#16, 0x4B00#16, 0x8BC1#16, 0x8A81#16, 0x4A40#16,
    0x4E00#16, 0x8EC1#16, 0x8F81#16, 0x4F40#16, 0x8D01#16, 0x4DC0#16, 0x4C80#16, 0x8C41#16,
    0x4400#16, 0x84C1#16, 0x8581#16, 0x4540#16, 0x8701#16, 0x47C0#16, 0x4680#16, 0x8641#16,
    0x8201#16, 0x42C0#16, 0x4380#16, 0x8341#16, 0x4100#16, 0x81C1#16, 0x8081#16, 0x4040#16]

/-- The 256 entries of `T` (R113). -/
def crcTable : List Word16 :=
  crcTable0 ++ crcTable1 ++ crcTable2 ++ crcTable3 ++ crcTable4 ++ crcTable5 ++ crcTable6 ++ crcTable7

/-- `T[i]`. -/
def tableEntry (i : Byte) : Word16 := crcTable.getD i.toNat 0#16

/-- One byte step, table form (R114). -/
def crcUpdateTable (r : Word16) (b : Byte) : Word16 :=
  (r >>> 8) ^^^ tableEntry ((r ^^^ b.setWidth 16).extractLsb' 0 8)

/-- The equations of R115, bit by bit: `n[i]` of the register `r` and the byte `b`. -/
def parallelBit (r : Word16) (b : Byte) (i : Nat) : Bool :=
  let x := fun k => r.getLsbD k ^^ b.getLsbD k
  match i with
  | 0 => x 0 ^^ x 1 ^^ x 2 ^^ x 3 ^^ x 4 ^^ x 5 ^^ x 6 ^^ x 7 ^^ r.getLsbD 8
  | 1 => r.getLsbD 9
  | 2 => r.getLsbD 10
  | 3 => r.getLsbD 11
  | 4 => r.getLsbD 12
  | 5 => r.getLsbD 13
  | 6 => x 0 ^^ r.getLsbD 14
  | 7 => x 0 ^^ x 1 ^^ r.getLsbD 15
  | 8 => x 1 ^^ x 2
  | 9 => x 2 ^^ x 3
  | 10 => x 3 ^^ x 4
  | 11 => x 4 ^^ x 5
  | 12 => x 5 ^^ x 6
  | 13 => x 6 ^^ x 7
  | 14 => x 0 ^^ x 1 ^^ x 2 ^^ x 3 ^^ x 4 ^^ x 5 ^^ x 6
  | 15 => x 0 ^^ x 1 ^^ x 2 ^^ x 3 ^^ x 4 ^^ x 5 ^^ x 6 ^^ x 7
  | _ => false

/-- One byte step, parallel form (R115). -/
def crcUpdateParallel (r : Word16) (b : Byte) : Word16 :=
  BitVec.ofBoolListLE ((List.range 16).map (parallelBit r b))

/-- The byte step of an implementation (R122: "The three are the same function"). -/
def crcUpdateBy (impl : CrcImpl) (r : Word16) (b : Byte) : Word16 :=
  match impl with
  | .serial => crcUpdate r b
  | .table => crcUpdateTable r b
  | .parallel => crcUpdateParallel r b

/-- The register after `bytes`, first byte first, from the register `r`. -/
def crcFrom (r : Word16) (bytes : List Byte) : Word16 := bytes.foldl crcUpdate r

/-- `checksum(bytes)` (R116). -/
def checksum (bytes : List Byte) : Word16 := crcFrom Config.crcInit bytes

/-- `verify(bytes, expected)` (R117). -/
def verify (bytes : List Byte) (expected : Word16) : Bool := decide (checksum bytes = expected)

/-! ## Commands -/

/-- `CRC_INIT` (R118). -/
def crcInitEffect (r : Regs) : Effect := accept { r with crc := Config.crcInit } 0#64

/-- `CRC_INIT` (R118). -/
def execCrcInit (s : State) : Result := perform crcInitEffect s

/-- `CRC_BYTE b` (R119). -/
def crcByteEffect (b : Byte) (r : Regs) : Effect := accept { r with crc := crcUpdate r.crc b } 0#64

/-- `CRC_BYTE b` (R119). -/
def execCrcByte (b : Byte) (s : State) : Result := perform (crcByteEffect b) s

/-- `CRC_VERIFY e` (R120): a mismatch is a result, not a refusal. -/
def crcVerifyEffect (e : Word16) (r : Regs) : Effect := accept r (if r.crc = e then 1#64 else 0#64)

/-- `CRC_VERIFY e` (R120). -/
def execCrcVerify (e : Word16) (s : State) : Result := perform (crcVerifyEffect e) s

end Sys2Proof.Machine
end

