-- ==== Sys2Proof/Machine/Frame.lean ====
section
/-! DEFINITION. The frame parser (41_frame.md): the pure function `decode(raw)`, and the commands
FRM_RESET, FRM_PUSH, FRM_DECODE. -/

namespace Sys2Proof.Machine

/-! ## The function (R130) -/

/-- The document's FrameHeader (10_state.md R26). -/
structure FrameHeader where
  deviceAddress : BitVec 5
  messageId : BitVec 10
  reserved : BitVec 1
deriving DecidableEq, Repr

/-- The document's DecodedFrame; the payload is its eight bytes in order. -/
structure DecodedFrame where
  header : FrameHeader
  payload : List Byte
  checksum : Word16
deriving DecidableEq, Repr

/-- The document's FrameError (R137). -/
inductive FrameError where
  /-- `FrameLengthError`, also spelt `WrongLength`. -/
  | frameLength
  /-- `CrcMismatchError`, also spelt `CrcMismatch`. -/
  | crcMismatch
deriving DecidableEq, Repr

/-- The fields of a header word. -/
def splitHeader (h : Word16) : FrameHeader := ⟨headerDev h, headerMid h, headerRsv h⟩

/-- `decode(raw)` (R130): length first, then checksum. -/
def decodeFrame (raw : List Byte) : Except FrameError DecodedFrame :=
  if raw.length ≠ Config.frameBytes then .error .frameLength
  else
    let received := u16le (raw.getD 10 0#8) (raw.getD 11 0#8)
    if checksum (raw.take Config.crcCoveredBytes) ≠ received then .error .crcMismatch
    else .ok
      { header := splitHeader (u16le (raw.getD 0 0#8) (raw.getD 1 0#8))
        payload := (raw.drop Config.payloadOffset).take Config.payloadBytes
        checksum := received }

/-- The status of a frame error (R137, 60_exceptions.md R230). -/
def FrameError.status : FrameError → Status
  | .frameLength => .eLength
  | .crcMismatch => .eCrc

/-- The frame the document builds in R136: header word, payload and checksum, little-endian. -/
def buildFrame (header : Word16) (payload : List Byte) : List Byte :=
  let covered := [header.extractLsb' 0 8, header.extractLsb' 8 8] ++ payload
  let c := checksum covered
  covered ++ [c.extractLsb' 0 8, c.extractLsb' 8 8]

/-! ## Commands -/

/-- `FRM_RESET` (R131). -/
def frmResetEffect (r : Regs) : Effect := accept { r with flen := 0#4, fvalid := false } 0#64

/-- `FRM_RESET` (R131). -/
def execFrmReset (s : State) : Result := perform frmResetEffect s

/-- `FRM_PUSH b` (R132): the byte is stored while `FLEN < 12`, else dropped; `FLEN` saturates at 13. -/
def frmPushEffect (b : Byte) (r : Regs) : Effect :=
  accept
    { r with
      fbuf := if r.flen.toNat < Config.frameBytes then r.fbuf.write r.flen.toNat b else r.fbuf
      flen := nextFlen r.flen } 0#64

/-- `FRM_PUSH b` (R132). -/
def execFrmPush (b : Byte) (s : State) : Result := perform (frmPushEffect b) s

/-- `FRM_DECODE` (R134): E_LENGTH, then E_CRC, each leaving `FVALID <- 0` and nothing else; the register
`CRC` is neither read nor written. -/
def frmDecodeEffect (r : Regs) : Effect :=
  if frameComplete r = false then raise .eLength (dropFrame r)
  else if checksum (frameCovered r.fbuf) ≠ frameChecksum r.fbuf then raise .eCrc (dropFrame r)
  else
    accept
      { r with
        hdr := frameHeader r.fbuf
        chk := frameChecksum r.fbuf
        pbuf := framePayload r.fbuf
        cover := BitVec.allOnes 64
        encerr := false
        fvalid := true } 0#64

/-- `FRM_DECODE` (R134). -/
def execFrmDecode (s : State) : Result := perform frmDecodeEffect s

end Sys2Proof.Machine
end

