-- ==== Sys2Proof/Machine/Codec.lean ====
section
/-! DEFINITION. The signal codec's bit-range unpacker and packer (42_codec.md): `extract_raw`,
`insert_raw`, their closed forms, and the commands SETDESC, EXTRACT, ENC_BEGIN, INSERT, PLOAD. The meanings
of EXTRACT and INSERT are written for either value of `BE_START_NUMBERING`; the machine uses the
instance's (`Config.beStartNumbering`). -/

namespace Sys2Proof.Machine

/-! ## The two functions -/

/-- `u[k] = P[pos(k)]` for k below the count, other bits 0 (R158). -/
def gatherBits (P : Word) (pos : Nat → Nat) : Nat → Word
  | 0 => 0#64
  | k + 1 => setBit (gatherBits P pos k) k (P.getLsbD (pos k))

/-- `P'[pos(k)] = v[k]` for k below the count, other bits of `P` kept (R159). -/
def scatterBits (P : Word) (pos : Nat → Nat) (v : Word) : Nat → Word
  | 0 => P
  | k + 1 => setBit (scatterBits P pos v k) (pos k) (v.getLsbD k)

/-- `sext_64(u)` taken from width `l`, as a 64-bit pattern (R156). -/
def signExtend (u : Word) (l : Nat) : Word :=
  if u.getLsbD (l - 1) then u ||| ~~~lowMask l else u

/-- `extract_raw(P, DESC)` (R158). -/
def extractRaw (n : BeStartNumbering) (P : Word) (d : Desc) : Word :=
  let u := gatherBits P (loc n d) d.len
  if d.signed then signExtend u d.len else u

/-- `insert_raw(P, DESC, v)` (R159). -/
def insertRaw (n : BeStartNumbering) (P : Word) (d : Desc) (v : Word) : Word :=
  scatterBits P (loc n d) v d.len

/-! ## The closed forms the spec gives beside the walks -/

/-- `byterev64`: payload byte i at bits `8·(7−i)+7 : 8·(7−i)` (R153). -/
def byteRev (v : Word) : Word := pack64le (unpack64le v).reverse

/-- The raw bits by shift and mask: little-endian (R152) and big-endian (R153). -/
def rawClosed (n : BeStartNumbering) (P : Word) (d : Desc) : Word :=
  match d.order with
  | .little => (P >>> d.start) &&& lowMask d.len
  | .big => (byteRev P >>> (64 - bigStart n d - d.len)) &&& lowMask d.len

/-- `rmask` by shift and mask (R155). -/
def rangeMaskClosed (n : BeStartNumbering) (d : Desc) : Word :=
  match d.order with
  | .little => lowMask d.len <<< d.start
  | .big => byteRev (lowMask d.len <<< (64 - bigStart n d - d.len))

/-- `fits` as a test on bit patterns (R159). -/
def fitsPattern (v : Word) (d : Desc) : Bool :=
  if d.signed then
    (List.range 64).all (fun i => decide (i < d.len - 1) || v.getLsbD i == v.getLsbD 63)
  else decide (v &&& ~~~lowMask d.len = 0#64)

/-! ## Commands -/

/-- `SETDESC` (R160): stored unchecked. -/
def setdescEffect (start len : Byte) (order : ByteOrder) (signed : Bool) (r : Regs) : Effect :=
  accept { r with desc := descBits start len order signed } 0#64

/-- `SETDESC` (R160). -/
def execSetdesc (start len : Byte) (order : ByteOrder) (signed : Bool) (s : State) : Result :=
  perform (setdescEffect start len order signed) s

/-- `EXTRACT` (R161) under a numbering. -/
def extractEffect (n : BeStartNumbering) (r : Regs) : Effect :=
  if r.encerr then raise .eEncode r
  else if validDesc n r.desc = false then raise .eDesc r
  else accept r (extractRaw n r.pbuf r.desc)

/-- `EXTRACT` (R161). -/
def execExtract (s : State) : Result := perform (extractEffect Config.beStartNumbering) s

/-- `ENC_BEGIN` (R162). -/
def encBeginEffect (r : Regs) : Effect :=
  accept { r with pbuf := 0#64, cover := 0#64, encerr := false } 0#64

/-- `ENC_BEGIN` (R162). -/
def execEncBegin (s : State) : Result := perform encBeginEffect s

/-- `INSERT v` (R163) under a numbering. -/
def insertEffect (n : BeStartNumbering) (v : Word) (r : Regs) : Effect :=
  if r.encerr then raise .eEncode r
  else if validDesc n r.desc = false then raise .eDesc (rejectEncode r)
  else if fits v r.desc = false then raise .eFit (rejectEncode r)
  else if overlaps n r then raise .eOverlap (rejectEncode r)
  else
    accept
      { r with
        pbuf := insertRaw n r.pbuf r.desc v
        cover := r.cover ||| rangeMask n r.desc } 0#64

/-- `INSERT v` (R163). -/
def execInsert (v : Word) (s : State) : Result := perform (insertEffect Config.beStartNumbering v) s

/-- `PLOAD v` (R164). -/
def ploadEffect (v : Word) (r : Regs) : Effect :=
  accept { r with pbuf := v, cover := BitVec.allOnes 64, encerr := false } 0#64

/-- `PLOAD v` (R164). -/
def execPload (v : Word) (s : State) : Result := perform (ploadEffect v) s

end Sys2Proof.Machine
end

