-- ==== Sys2Proof/Machine/System.lean ====
section
/-! DEFINITION. The system commands RD and RESET (43_system.md). -/

namespace Sys2Proof.Machine

/-- A read gated by FVALID: E_NOFRAME while no DecodedFrame exists (R190, 10_state.md R25). -/
def readFrame (d : Word) (r : Regs) : Effect :=
  if r.fvalid = false then raise .eNoFrame r else accept r d

/-- `RD n` (R190), every register number of 10_state.md R25; the others are refused with E_ARG. -/
def rdEffect (n : Byte) (r : Regs) : Effect :=
  match n.toNat with
  | 0x00 => accept r (r.crc.setWidth 64)
  | 0x01 => accept r (statusWord r)
  | 0x02 => accept r (r.flen.setWidth 64)
  | 0x03 => readFrame (r.hdr.setWidth 64) r
  | 0x04 => readFrame ((headerDev r.hdr).setWidth 64) r
  | 0x05 => readFrame ((headerMid r.hdr).setWidth 64) r
  | 0x06 => readFrame ((headerRsv r.hdr).setWidth 64) r
  | 0x07 => readFrame (r.chk.setWidth 64) r
  | 0x08 => readFrame (framePayload r.fbuf) r
  | 0x09 => if r.encerr then raise .eEncode r else accept r r.pbuf
  | 0x0A => accept r (r.desc.setWidth 64)
  | 0x0B => accept r r.cover
  | _ => raise .eArg r

/-- `RD n` (R190). -/
def execRd (n : Byte) (s : State) : Result := perform (rdEffect n) s

/-- `RESET` (R191): the state after hardware reset, bit for bit. -/
def resetEffect (_ : Regs) : Effect := accept Regs.reset 0#64

/-- `RESET` (R191). -/
def execReset (s : State) : Result := perform resetEffect s

end Sys2Proof.Machine
end

