-- ==== Sys2Proof/Machine/Dispatch.lean ====
section
/-! DEFINITION. One arm per command, each a direct call of its meaning. -/

namespace Sys2Proof.Machine

def exec (i : Instr) (s : State) : Host.Outcome State Fault Refusal :=
  match i with
  | .reset => Sys2Proof.Machine.execReset s
  | .crcInit => Sys2Proof.Machine.execCrcInit s
  | .crcByte b => Sys2Proof.Machine.execCrcByte b s
  | .crcVerify e => Sys2Proof.Machine.execCrcVerify e s
  | .frmReset => Sys2Proof.Machine.execFrmReset s
  | .frmPush b => Sys2Proof.Machine.execFrmPush b s
  | .frmDecode => Sys2Proof.Machine.execFrmDecode s
  | .setdesc start len order signed => Sys2Proof.Machine.execSetdesc start len order signed s
  | .extract => Sys2Proof.Machine.execExtract s
  | .encBegin => Sys2Proof.Machine.execEncBegin s
  | .insert v => Sys2Proof.Machine.execInsert v s
  | .pload v => Sys2Proof.Machine.execPload v s
  | .rd r => Sys2Proof.Machine.execRd r s

end Sys2Proof.Machine
end

