-- ==== Sys2Proof/Machine/Step.lean ====
section
/-! DEFINITION. One step of the machine: the oldest input is taken and acted on (00_scope.md R9, R10;
30_encoding.md R85; 70_reset_and_hazards.md R260, R265). -/

namespace Sys2Proof.Machine

/-- One step. A command word is decoded and executed or refused; an assertion of `rst_n` resets; with
nothing presented the block holds its state (60_exceptions.md R248; DEDUCED, log entry 3). -/
def step (s : State) : Host.Outcome State Fault Refusal :=
  match fetch s with
  | .idle => .next s
  | .reset t => .next t
  | .command w t =>
    match decode w with
    | .ok i => exec i t
    | .error e => rejectWord e t

/-- The host presents the word that `nbits` table bits make as its next command, so that the next step
runs it (log entry 9). -/
def State.withFetchWord (s : State) (nbits w : Nat) : State := presentNext (tableWord nbits w) s

end Sys2Proof.Machine
end

