-- ==== Sys2Proof/Machine/Run.lean ====
section
/-! DEFINITION. The host's side of the command port: presenting one command, a run of a list of command
words (70_reset_and_hazards.md R267), and the pseudo-commands (30_encoding.md R100). -/

namespace Sys2Proof.Machine

/-- The host presents one word and the block takes it. -/
def issue (w : CmdWord) (s : State) : Result := step (presentNext w s)

/-- A run: the words applied in order by the step function (R267). -/
def runWords (ws : List CmdWord) (s : State) : Result :=
  match ws with
  | [] => .next s
  | w :: rest =>
    match issue w s with
    | .next t => runWords rest t
    | .fault f => .fault f
    | .refused r => .refused r

/-- A run of commands, each by its word. -/
def runInstrs (is : List Instr) (s : State) : Result := runWords (is.map encode) s

/-- One command and the response the host reads: the state after it and its response (R264 item 8). -/
def ask (i : Instr) (s : State) : Option (State × Response) :=
  match issue (encode i) s with
  | .next t => t.responses.getLast?.map (fun q => (t, q))
  | .fault _ => none
  | .refused _ => none

/-- The commands in order, with their responses, oldest first; the host reads every one. -/
def askAll (is : List Instr) (s : State) : Option (State × List Response) :=
  match is with
  | [] => some (s, [])
  | i :: rest =>
    match ask i s with
    | none => none
    | some (t, q) =>
      match askAll rest t with
      | none => none
      | some (u, qs) => some (u, q :: qs)

/-- The commands in order, with the last response. -/
def askLast (is : List Instr) (s : State) : Option (State × Response) :=
  match askAll is s with
  | none => none
  | some (t, qs) => qs.getLast?.map (fun q => (t, q))

/-! ## Register numbers of `RD` (10_state.md R25) -/

def regCrc : Byte := 0x00#8
def regStatus : Byte := 0x01#8
def regFlen : Byte := 0x02#8
def regHdr : Byte := 0x03#8
def regDev : Byte := 0x04#8
def regMid : Byte := 0x05#8
def regRsv : Byte := 0x06#8
def regChk : Byte := 0x07#8
def regFpay : Byte := 0x08#8
def regPbuf : Byte := 0x09#8
def regDesc : Byte := 0x0A#8
def regCover : Byte := 0x0B#8

/-! ## Pseudo-commands (R100) -/

/-- `CHECKSUM bytes`: the result is the last response's data `[15:0]`. -/
def checksumCommands (bytes : List Byte) : List Instr :=
  .crcInit :: bytes.map .crcByte ++ [.rd regCrc]

/-- `VERIFY bytes, expected`: the last response's data is 1 for true, 0 for false. -/
def verifyCommands (bytes : List Byte) (expected : Word16) : List Instr :=
  .crcInit :: bytes.map .crcByte ++ [.crcVerify expected]

/-- `FRM_RESET` and the pushes of a frame's bytes in order. -/
def pushCommands (raw : List Byte) : List Instr := .frmReset :: raw.map .frmPush

/-- `DECODE raw` up to and with `FRM_DECODE`. -/
def decodeCommands (raw : List Byte) : List Instr := pushCommands raw ++ [.frmDecode]

/-- The reads that follow an OK of `DECODE`. -/
def decodedReads : List Instr := [.rd regHdr, .rd regFpay, .rd regChk]

/-- The DecodedFrame of the three reads' responses. -/
def frameOfReads (hdr pay chk : Response) : DecodedFrame where
  header := splitHeader (hdr.data.setWidth 16)
  payload := unpack64le pay.data
  checksum := chk.data.setWidth 16

/-- `DECODE raw`, whole: the status of `FRM_DECODE` when it is not OK, else the DecodedFrame from the reads
that follow. `none` would be a block that does not answer. -/
def decodeByCommands (raw : List Byte) (s : State) : Option (State × Except Status DecodedFrame) :=
  match askLast (decodeCommands raw) s with
  | none => none
  | some (t, q) =>
    if q.status ≠ .ok then some (t, .error q.status)
    else
      match askAll decodedReads t with
      | some (u, [hdr, pay, chk]) => some (u, .ok (frameOfReads hdr pay chk))
      | _ => none

/-- `EXTRACT_SIGNAL` of a descriptor's four fields: the last response's data is the raw value. -/
def extractSignalCommands (start len : Byte) (order : ByteOrder) (signed : Bool) : List Instr :=
  [.setdesc start len order signed, .extract]

/-! ## A raw encode: `ENC_BEGIN`, then one `SETDESC` and one `INSERT` a signal (R264 item 6) -/

/-- A signal's descriptor fields and the raw value to insert. -/
structure RawSignal where
  start : Byte
  len : Byte
  order : ByteOrder
  signed : Bool
  value : Word
deriving DecidableEq, Repr

/-- The descriptor register's value for it. -/
def RawSignal.desc (x : RawSignal) : Desc := descBits x.start x.len x.order x.signed

/-- Its two commands. -/
def RawSignal.commands (x : RawSignal) : List Instr :=
  [.setdesc x.start x.len x.order x.signed, .insert x.value]

/-- The commands of a raw encode. -/
def rawEncodeCommands (xs : List RawSignal) : List Instr := .encBegin :: xs.flatMap RawSignal.commands

/-- The OR of the signals' range masks. -/
def rawCover (n : BeStartNumbering) : List RawSignal → Word
  | [] => 0#64
  | x :: rest => rangeMask n x.desc ||| rawCover n rest

end Sys2Proof.Machine
end

