-- ==== Sys2Proof/Machine/Asm.lean ====
section
/-! DEFINITION. The assembler syntax of 30_encoding.md R91: one line of text to one command word. What the
rule leaves to the reader (white space, letter case) is log entry 17. -/

namespace Sys2Proof.Machine

/-! ## Tokens and numbers -/

/-- The line up to a `;`. -/
def dropComment : List Char → List Char
  | [] => []
  | c :: cs => if c = ';' then [] else c :: dropComment cs

/-- The line's words, separated by spaces and tabs; `acc` is the word being read, reversed. -/
def splitWords (acc : List Char) : List Char → List (List Char)
  | [] => if acc = [] then [] else [acc.reverse]
  | c :: cs =>
    if c = ' ' ∨ c = '\t' then
      if acc = [] then splitWords [] cs else acc.reverse :: splitWords [] cs
    else splitWords (c :: acc) cs

/-- The value of a hexadecimal digit. -/
def hexDigit (c : Char) : Option Nat :=
  if '0' ≤ c ∧ c ≤ '9' then some (c.toNat - '0'.toNat)
  else if 'a' ≤ c ∧ c ≤ 'f' then some (c.toNat - 'a'.toNat + 10)
  else if 'A' ≤ c ∧ c ≤ 'F' then some (c.toNat - 'A'.toNat + 10)
  else none

/-- The value of a digit string in a base, continuing from `acc`. -/
def digitsFrom (base acc : Nat) : List Char → Option Nat
  | [] => some acc
  | c :: cs =>
    match hexDigit c with
    | some d => if d < base then digitsFrom base (base * acc + d) cs else none
    | none => none

/-- A number, decimal or `0x` hexadecimal. -/
def parseNat : List Char → Option Nat
  | [] => none
  | '0' :: 'x' :: c :: cs => digitsFrom 16 0 (c :: cs)
  | c :: cs => digitsFrom 10 0 (c :: cs)

/-- A number that has to be below `2^width`. -/
def parseField (width : Nat) (t : List Char) : Option (BitVec width) :=
  match parseNat t with
  | some n => if n < 2 ^ width then some (BitVec.ofNat width n) else none
  | none => none

/-- `INSERT`'s value: 64-bit hexadecimal, or a decimal integer −2^63..2^64−1 taken modulo 2^64. -/
def parseValue : List Char → Option Word
  | '-' :: cs =>
    match digitsFrom 10 0 cs with
    | some n => if cs ≠ [] ∧ n ≤ 2 ^ 63 then some (BitVec.ofInt 64 (-(n : Int))) else none
    | none => none
  | cs => parseField 64 cs

/-- `key=value` with the key given: the value's characters. -/
def keyed (key : List Char) (t : List Char) : Option (List Char) :=
  if t.take (key.length + 1) = key ++ ['='] then some (t.drop (key.length + 1)) else none

/-- A register name of `RD`, or its number. -/
def parseRegister (t : List Char) : Option Byte :=
  if t = "CRC".toList then some regCrc
  else if t = "STATUS".toList then some regStatus
  else if t = "FLEN".toList then some regFlen
  else if t = "HDR".toList then some regHdr
  else if t = "DEV".toList then some regDev
  else if t = "MID".toList then some regMid
  else if t = "RSV".toList then some regRsv
  else if t = "CHK".toList then some regChk
  else if t = "FPAY".toList then some regFpay
  else if t = "PBUF".toList then some regPbuf
  else if t = "DESC".toList then some regDesc
  else if t = "COVER".toList then some regCover
  else parseField 8 t

/-- `order=le` or `order=be`. -/
def parseOrder (t : List Char) : Option ByteOrder :=
  if t = "le".toList then some .little else if t = "be".toList then some .big else none

/-- `signed=0` or `signed=1`. -/
def parseSigned (t : List Char) : Option Bool :=
  if t = ['0'] then some false else if t = ['1'] then some true else none

/-- All the words as bytes. -/
def parseBytes : List (List Char) → Option (List Byte)
  | [] => some []
  | t :: ts =>
    match parseField 8 t, parseBytes ts with
    | some b, some bs => some (b :: bs)
    | _, _ => none

/-! ## Lines -/

/-- A command with no operand. -/
def parseBare (m : List Char) : Option Instr :=
  if m = "RESET".toList then some .reset
  else if m = "CRC_INIT".toList then some .crcInit
  else if m = "FRM_RESET".toList then some .frmReset
  else if m = "FRM_DECODE".toList then some .frmDecode
  else if m = "EXTRACT".toList then some .extract
  else if m = "ENC_BEGIN".toList then some .encBegin
  else none

/-- A command with one operand. -/
def parseUnary (m t : List Char) : Option Instr :=
  if m = "CRC_BYTE".toList then (parseField 8 t).map .crcByte
  else if m = "CRC_VERIFY".toList then (parseField 16 t).map .crcVerify
  else if m = "FRM_PUSH".toList then (parseField 8 t).map .frmPush
  else if m = "INSERT".toList then (parseValue t).map .insert
  else if m = "PLOAD".toList then (parseField 64 t).map .pload
  else if m = "RD".toList then (parseRegister t).map .rd
  else none

/-- `SETDESC start=s len=l order=o signed=g`. -/
def parseSetdesc (a b c d : List Char) : Option Instr :=
  match keyed "start".toList a, keyed "len".toList b, keyed "order".toList c, keyed "signed".toList d with
  | some s, some l, some o, some g =>
    match parseField 8 s, parseField 8 l, parseOrder o, parseSigned g with
    | some s, some l, some o, some g => some (.setdesc s l o g)
    | _, _, _, _ => none
  | _, _, _, _ => none

/-- The command of a line's words. -/
def parseWords : List (List Char) → Option Instr
  | [m] => parseBare m
  | [m, t] => parseUnary m t
  | [m, a, b, c, d] => if m = "SETDESC".toList then parseSetdesc a b c d else none
  | m :: ts =>
    if m = "PLOAD".toList ∧ ts.length = Config.payloadBytes then
      (parseBytes ts).map (fun bs => .pload (pack64le bs))
    else none
  | [] => none

/-- One line: `none` for a line that is no command, `some none` for an empty or comment line. -/
def assembleLine (line : String) : Option (Option CmdWord) :=
  match splitWords [] (dropComment line.toList) with
  | [] => some none
  | ws => (parseWords ws).map (fun i => some (encode i))

end Sys2Proof.Machine
end

