-- ==== Sys2Proof/Machine/Binary64.lean ====
section
/-! DEFINITION. IEEE 754 binary64 with round-to-nearest-even, the arithmetic that 44_host_level.md R202
takes `f64` to be, and the two tie rules of `ROUND_MODE`. PRESUMED, log entry 24: the document does not
state the arithmetic; the host-side functions take any `NUM`, and this is one. -/

namespace Sys2Proof.Machine

/-- The tie rule of `round` (R202): OPEN, so always an argument. -/
inductive RoundMode where
  | tiesToEven
  | tiesAway
deriving DecidableEq, Repr

/-- A double by its 64-bit interchange pattern. -/
abbrev F64 := BitVec 64

/-- What a pattern stands for. A finite double is a whole number of units of 2^−1074. -/
inductive F64View where
  | nan
  | inf (neg : Bool)
  | fin (neg : Bool) (units : Nat)
deriving DecidableEq, Repr

/-- The units of the number 1: 2^1074. -/
abbrev f64One : Nat := 2 ^ 1074

/-- The reading of a pattern: sign bit 63, exponent bits 62..52, fraction bits 51..0. -/
def f64View (x : F64) : F64View :=
  let neg := x.getLsbD 63
  let e := (x.extractLsb' 52 11).toNat
  let m := (x.extractLsb' 0 52).toNat
  if e = 2047 then (if m = 0 then .inf neg else .nan)
  else if e = 0 then .fin neg m
  else .fin neg ((2 ^ 52 + m) * 2 ^ (e - 1))

/-- The NaN that the operations give. -/
def f64Nan : F64 := 0x7FF8000000000000#64

/-- An infinity. -/
def f64Inf (neg : Bool) : F64 := if neg then 0xFFF0000000000000#64 else 0x7FF0000000000000#64

/-- The whole number nearest to `p / q`, a tie by the rule. -/
def divNearest (mode : RoundMode) (p q : Nat) : Nat :=
  let d := p / q
  let r := p % q
  if 2 * r < q then d
  else if q < 2 * r then d + 1
  else
    match mode with
    | .tiesToEven => d + d % 2
    | .tiesAway => d + 1

/-- The double nearest to `p / q` units, ties to even. With a significand `m` below 2^53 in steps of 2^k
units the pattern below the sign is `k · 2^52 + m`; a carry of `m` into 2^53 is the next exponent. -/
def f64Round (neg : Bool) (p q : Nat) : F64 :=
  let k := (p / q).log2 - 52
  let magnitude := k * 2 ^ 52 + divNearest .tiesToEven p (q * 2 ^ k)
  if 2047 * 2 ^ 52 ≤ magnitude then f64Inf neg
  else BitVec.ofNat 64 (magnitude + if neg then 2 ^ 63 else 0)

/-- A magnitude with its sign. -/
def signed (neg : Bool) (n : Nat) : Int := if neg then -(n : Int) else n

/-- `i2f`. -/
def f64OfInt (z : Int) : F64 := f64Round (decide (z < 0)) (z.natAbs * f64One) 1

/-- The opposite. -/
def f64Neg (x : F64) : F64 := x ^^^ 0x8000000000000000#64

/-- `fadd`. An exact zero is −0 only when both sides are negative. -/
def f64Add (x y : F64) : F64 :=
  match f64View x, f64View y with
  | .nan, _ => f64Nan
  | .inf _, .nan => f64Nan
  | .inf a, .inf b => if a = b then f64Inf a else f64Nan
  | .inf a, .fin _ _ => f64Inf a
  | .fin _ _, .nan => f64Nan
  | .fin _ _, .inf b => f64Inf b
  | .fin a n, .fin b m =>
    let z := signed a n + signed b m
    f64Round (if z = 0 then a && b else decide (z < 0)) z.natAbs 1

/-- `fsub`. -/
def f64Sub (x y : F64) : F64 := f64Add x (f64Neg y)

/-- `fmul`. -/
def f64Mul (x y : F64) : F64 :=
  match f64View x, f64View y with
  | .nan, _ => f64Nan
  | .inf _, .nan => f64Nan
  | .inf a, .inf b => f64Inf (a ^^ b)
  | .inf a, .fin b m => if m = 0 then f64Nan else f64Inf (a ^^ b)
  | .fin _ _, .nan => f64Nan
  | .fin a n, .inf b => if n = 0 then f64Nan else f64Inf (a ^^ b)
  | .fin a n, .fin b m => f64Round (a ^^ b) (n * m) f64One

/-- `fdiv`. -/
def f64Div (x y : F64) : F64 :=
  match f64View x, f64View y with
  | .nan, _ => f64Nan
  | .inf _, .nan => f64Nan
  | .inf _, .inf _ => f64Nan
  | .inf a, .fin b _ => f64Inf (a ^^ b)
  | .fin _ _, .nan => f64Nan
  | .fin a _, .inf b => f64Round (a ^^ b) 0 1
  | .fin a n, .fin b m =>
    if m = 0 then (if n = 0 then f64Nan else f64Inf (a ^^ b)) else f64Round (a ^^ b) (n * f64One) m

/-- `flt`: false when either side is a NaN (R202). -/
def f64Lt (x y : F64) : Bool :=
  match f64View x, f64View y with
  | .nan, _ => false
  | .inf _, .nan => false
  | .inf a, .inf b => a && !b
  | .inf a, .fin _ _ => a
  | .fin _ _, .nan => false
  | .fin _ _, .inf b => !b
  | .fin a n, .fin b m => decide (signed a n < signed b m)

/-- The pattern is a NaN. -/
def f64IsNan (x : F64) : Bool :=
  match f64View x with
  | .nan => true
  | .inf _ => false
  | .fin _ _ => false

/-- `is_finite`. -/
def f64IsFinite (x : F64) : Bool :=
  match f64View x with
  | .nan => false
  | .inf _ => false
  | .fin _ _ => true

/-- `round_int` of a finite value; it is asked of no other one (R202). -/
def f64RoundInt (mode : RoundMode) (x : F64) : Int :=
  match f64View x with
  | .nan => 0
  | .inf _ => 0
  | .fin neg n => signed neg (divNearest mode n f64One)

/-- The double nearest to 0.1 (R212). -/
def f64Tenth : F64 := f64Round false f64One 10

/-! ## What R202 and R209 ask of it -/

@[simp] theorem f64IsFinite_nan : f64IsFinite f64Nan = false := by decide

@[simp] theorem f64IsFinite_inf (neg : Bool) : f64IsFinite (f64Inf neg) = false := by
  cases neg <;> decide

theorem f64IsFinite_of_nan (x : F64) (h : f64IsNan x = true) : f64IsFinite x = false := by
  unfold f64IsNan at h
  unfold f64IsFinite
  cases hv : f64View x <;> simp [hv] at h ⊢

theorem f64Lt_nan (x y : F64) (h : f64IsNan x = true ∨ f64IsNan y = true) : f64Lt x y = false := by
  unfold f64IsNan at h
  unfold f64Lt
  cases hx : f64View x <;> cases hy : f64View y <;> simp [hx, hy] at h ⊢

/-- A sum with a value that is not finite on its left is not finite. -/
theorem f64Add_not_finite (x y : F64) (h : f64IsFinite x = false) : f64IsFinite (f64Add x y) = false := by
  have hx : ∀ a n, f64View x ≠ .fin a n := by
    intro a n hx
    simp [f64IsFinite, hx] at h
  unfold f64Add
  cases hv : f64View x with
  | nan => simp
  | inf a => cases f64View y <;> simp; split <;> simp
  | fin a n => exact absurd hv (hx a n)

/-- A quotient of a value that is not finite is not finite. -/
theorem f64Div_not_finite (x y : F64) (h : f64IsFinite x = false) : f64IsFinite (f64Div x y) = false := by
  have hx : ∀ a n, f64View x ≠ .fin a n := by
    intro a n hx
    simp [f64IsFinite, hx] at h
  unfold f64Div
  cases hv : f64View x with
  | nan => simp
  | inf a => cases f64View y <;> simp
  | fin a n => exact absurd hv (hx a n)

/-- A quotient by zero, of either sign, is not finite. -/
theorem f64Div_zero (x y : F64) (hn : f64IsNan y = false) (hl : f64Lt y (f64OfInt 0) = false)
    (hg : f64Lt (f64OfInt 0) y = false) : f64IsFinite (f64Div x y) = false := by
  have h0 : f64View (f64OfInt 0) = .fin false 0 := by decide +kernel
  unfold f64Lt at hl hg
  unfold f64IsNan at hn
  unfold f64Div
  rw [h0] at hl hg
  cases hy : f64View y with
  | nan => simp [hy] at hn
  | inf b => cases b <;> simp [hy] at hl hg
  | fin b m =>
    have hm : m = 0 := by cases b <;> simp [hy, signed] at hl hg <;> omega
    cases f64View x <;> simp [hm]; split <;> simp

end Sys2Proof.Machine
end

