-- ==== Sys2Proof/Machine/HostStage.lean ====
section
/-! DEFINITION. The host-side stage (44_host_level.md): physical values, the range check, the
message-level loops over the block's step, and the frame hand-over. Functions of the host (R200); the
block's meanings do not depend on this file. The numerics are an argument (R202; log entry 6). -/

namespace Sys2Proof.Machine

/-- `NUM` (R202): what the formulas need of the type of physical values `F`, with what the spec says of it.
`roundInt` is defined on finite values only; its tie rule is `ROUND_MODE`. -/
structure Num (F : Type) where
  i2f : Int → F
  fmul : F → F → F
  fadd : F → F → F
  fsub : F → F → F
  fdiv : F → F → F
  flt : F → F → Bool
  isNan : F → Bool
  isFinite : F → Bool
  roundInt : (x : F) → isFinite x = true → Int
  /-- The value that the document writes 0.1 (R212). -/
  tenth : F
  /-- `flt` is "false when either side is a NaN" (R202). -/
  flt_nan : ∀ x y, isNan x = true ∨ isNan y = true → flt x y = false
  /-- A NaN is not finite (`round_int` is not defined on it, R202, R209). -/
  isFinite_nan : ∀ x, isNan x = true → isFinite x = false
  /-- A NaN or infinite value has no finite quotient, whatever the offset and scale (R209). -/
  quotient_not_finite : ∀ value offset scale, isFinite value = false →
    isFinite (fdiv (fsub value offset) scale) = false
  /-- Neither has any value when the scale is 0: no NaN, and neither below nor above `i2f 0` (R209). -/
  fdiv_zero : ∀ x y, isNan y = false → flt y (i2f 0) = false → flt (i2f 0) y = false →
    isFinite (fdiv x y) = false
  /-- "the document asserts the value 1000.0 and a `NUM` must reproduce it" (R212). -/
  thousand : fadd (fmul (i2f 10000) tenth) (i2f 0) = i2f 1000

/-- The value is 0: no NaN, and neither below nor above `i2f 0`. -/
def Num.isZero {F : Type} (num : Num F) (x : F) : Bool :=
  !num.isNan x && !num.flt x (num.i2f 0) && !num.flt (num.i2f 0) x

/-- `NUM` by binary64 with round-to-nearest-even, for either `ROUND_MODE` (R202, R212). PRESUMED, log
entry 24; no host function depends on it. -/
def binary64 (mode : RoundMode) : Num F64 where
  i2f := f64OfInt
  fmul := f64Mul
  fadd := f64Add
  fsub := f64Sub
  fdiv := f64Div
  flt := f64Lt
  isNan := f64IsNan
  isFinite := f64IsFinite
  roundInt := fun x _ => f64RoundInt mode x
  tenth := f64Tenth
  flt_nan := f64Lt_nan
  isFinite_nan := f64IsFinite_of_nan
  quotient_not_finite := fun value offset scale h =>
    f64Div_not_finite _ scale (f64Add_not_finite value (f64Neg offset) h)
  fdiv_zero := f64Div_zero
  thousand := by decide +kernel

/-- SignalDescriptor, in full (R201). START and LEN are the 8-bit fields that `SETDESC` can send
(DESIGN CHOICE, log entry 14). -/
structure SignalDescriptor (F : Type) where
  name : String
  startBit : Byte
  bitLength : Byte
  byteOrder : ByteOrder
  isSigned : Bool
  scale : F
  offset : F
  minimum : Option F
  maximum : Option F
  unit : String

/-- MessageDescriptor (R201). `byteLength` is carried; no rule uses it (00_scope.md R8). -/
structure MessageDescriptor (F : Type) where
  id : BitVec 32
  name : String
  byteLength : Nat
  signals : List (SignalDescriptor F)

/-- Why a host procedure gives no result (R204, R208, R209, R210, R216). -/
inductive HostError (F : Type) where
  /-- The block refused a signal's descriptor on decode (R204, R216). -/
  | malformed (name : String) (st : Status)
  /-- `EncodeError(missing signal)` (R209). -/
  | missingSignal (name : String)
  /-- `SignalRangeError` on encode (R210). -/
  | range (name : String) (value : F)
  /-- `EncodeError(name)` by the host's own test: no raw value, or it does not fit (R208, R209). -/
  | encode (name : String)
  /-- `EncodeError(name, st)`: the block refused the `INSERT` (R208). -/
  | insertRefused (name : String) (st : Status)
  /-- `EncodeError`: the block refused `RD PBUF` (R208). -/
  | payloadRefused (st : Status)
  /-- The block did not answer; it always does (70_reset_and_hazards.md R266). -/
  | noAnswer
deriving DecidableEq, Repr

section
variable {F : Type}

/-- The descriptor register's value for a signal: what `SETDESC` sends (R201). -/
def SignalDescriptor.desc (sd : SignalDescriptor F) : Desc :=
  descBits sd.startBit sd.bitLength sd.byteOrder sd.isSigned

/-- The `SETDESC` of a signal. -/
def SignalDescriptor.setdesc (sd : SignalDescriptor F) : Instr :=
  .setdesc sd.startBit sd.bitLength sd.byteOrder sd.isSigned

/-- The host's load-time test of a signal (R216). -/
def SignalDescriptor.valid (n : BeStartNumbering) (sd : SignalDescriptor F) : Bool := validDesc n sd.desc

/-- `cover(d)`: the OR of the signals' range masks (R211). -/
def coverOf (n : BeStartNumbering) : List (SignalDescriptor F) → Word
  | [] => 0#64
  | sd :: rest => rangeMask n sd.desc ||| coverOf n rest

/-- The signals' ranges are pairwise disjoint (R211, R216). -/
def rangesDisjoint (n : BeStartNumbering) (sds : List (SignalDescriptor F)) : Prop :=
  sds.Pairwise (fun a b => rangeMask n a.desc &&& rangeMask n b.desc = 0#64)

/-! ## Physical values -/

/-- The raw value as a mathematical integer (R203, 00_scope.md R13). -/
def rawInt (sd : SignalDescriptor F) (rv : Word) : Int := if sd.isSigned then rv.toInt else rv.toNat

/-- `physical = raw * scale + offset` (R203). -/
def physical (num : Num F) (sd : SignalDescriptor F) (rv : Word) : F :=
  num.fadd (num.fmul (num.i2f (rawInt sd rv)) sd.scale) sd.offset

/-- `out_of_range(x, sd)` (R205): a bound that is not given is not tested, a value on a bound is inside. -/
def outOfRange (num : Num F) (x : F) (sd : SignalDescriptor F) : Bool :=
  (match sd.minimum with
    | some lo => num.flt x lo
    | none => false) ||
  (match sd.maximum with
    | some hi => num.flt hi x
    | none => false)

/-- `q = (value − offset) / scale` (R207). -/
def quotient (num : Num F) (sd : SignalDescriptor F) (value : F) : F :=
  num.fdiv (num.fsub value sd.offset) sd.scale

/-- `raw = round_int(q)`, which needs `is_finite(q)`; with scale 0, or a NaN or infinite value, there is none
(R207, R209; `Num.fdiv_zero`, `Num.quotient_not_finite`). -/
def encodeRaw (num : Num F) (sd : SignalDescriptor F) (value : F) : Option Int :=
  if h : num.isFinite (quotient num sd value) = true then some (num.roundInt (quotient num sd value) h)
  else none

/-- `lo ≤ raw ≤ hi`, the fit test on the mathematical integer (R208). With `bit_length` 0 and signed R208's
bounds are no integers; the exponent `l − 1` is then taken as 0, so −1 and 0 pass here and the block refuses
the `INSERT` with E_DESC (DESIGN CHOICE, log entry 23). -/
def fitsInt (sd : SignalDescriptor F) (raw : Int) : Bool :=
  let l := sd.bitLength.toNat
  if sd.isSigned then decide (-(2 : Int) ^ (l - 1) ≤ raw) && decide (raw ≤ (2 : Int) ^ (l - 1) - 1)
  else decide (0 ≤ raw) && decide (raw ≤ (2 : Int) ^ l - 1)

/-! ## Mappings name → value (R201: `name` keys the result) -/

/-- The value under a name. -/
def mapGet (m : List (String × F)) (name : String) : Option F :=
  match m with
  | [] => none
  | e :: rest => if e.1 = name then some e.2 else mapGet rest name

/-- `m[name] = x`: one entry a name (DESIGN CHOICE, log entry 15). -/
def mapSet (m : List (String × F)) (name : String) (x : F) : List (String × F) :=
  match m with
  | [] => [(name, x)]
  | e :: rest => if e.1 = name then (name, x) :: rest else e :: mapSet rest name x

/-! ## decode_signals (R204) -/

/-- What `decode_signals` returns: the mapping, and the range reports beside it (R205). -/
structure Decoded (F : Type) where
  values : List (String × F)
  reports : List (String × F)
deriving DecidableEq, Repr

/-- One signal's value recorded; out of range it is reported, and kept unclamped (R205, R206). -/
def Decoded.record (num : Num F) (acc : Decoded F) (sd : SignalDescriptor F) (x : F) : Decoded F where
  values := mapSet acc.values sd.name x
  reports := if outOfRange num x sd then acc.reports ++ [(sd.name, x)] else acc.reports

/-- The loop of `decode_signals` over the message's signals. -/
def decodeLoop (num : Num F) (sds : List (SignalDescriptor F)) (acc : Decoded F) (s : State) :
    State × Except (HostError F) (Decoded F) :=
  match sds with
  | [] => (s, .ok acc)
  | sd :: rest =>
    match ask sd.setdesc s with
    | none => (s, .error .noAnswer)
    | some (s1, _) =>
      match ask .extract s1 with
      | none => (s1, .error .noAnswer)
      | some (s2, q) =>
        if q.status ≠ .ok then (s2, .error (.malformed sd.name q.status))
        else decodeLoop num rest (acc.record num sd (physical num sd q.data)) s2

/-- `decode_signals` of the payload a successful `FRM_DECODE` just placed (R204: `PLOAD` omitted). -/
def decodeHeld (num : Num F) (md : MessageDescriptor F) (s : State) :
    State × Except (HostError F) (Decoded F) :=
  decodeLoop num md.signals ⟨[], []⟩ s

/-- `decode_signals(payload, md)` (R204). The spec has eight payload bytes only; of a list of another length
the missing bytes are taken as 0 and those past the eighth are dropped (DESIGN CHOICE, log entry 22). -/
def decodeSignals (num : Num F) (payload : List Byte) (md : MessageDescriptor F) (s : State) :
    State × Except (HostError F) (Decoded F) :=
  match ask (.pload (pack64le payload)) s with
  | none => (s, .error .noAnswer)
  | some (t, _) => decodeHeld num md t

/-! ## encode_signals (R208) -/

/-- The loop of `encode_signals` over the message's signals. -/
def encodeLoop (num : Num F) (values : List (String × F)) (sds : List (SignalDescriptor F)) (s : State) :
    State × Except (HostError F) Unit :=
  match sds with
  | [] => (s, .ok ())
  | sd :: rest =>
    match mapGet values sd.name with
    | none => (s, .error (.missingSignal sd.name))
    | some value =>
      if outOfRange num value sd then (s, .error (.range sd.name value))
      else
        match encodeRaw num sd value with
        | none => (s, .error (.encode sd.name))
        | some raw =>
          if fitsInt sd raw = false then (s, .error (.encode sd.name))
          else
            match ask sd.setdesc s with
            | none => (s, .error .noAnswer)
            | some (s1, _) =>
              match ask (.insert (BitVec.ofInt 64 raw)) s1 with
              | none => (s1, .error .noAnswer)
              | some (s2, q) =>
                if q.status ≠ .ok then (s2, .error (.insertRefused sd.name q.status))
                else encodeLoop num values rest s2

/-- `encode_signals(values, md)` (R208): every signal must be given before anything is sent; any failure
ends it with no payload. A name that is no signal of the message is ignored (R209). -/
def encodeSignals (num : Num F) (values : List (String × F)) (md : MessageDescriptor F) (s : State) :
    State × Except (HostError F) (List Byte) :=
  match md.signals.find? (fun sd => (mapGet values sd.name).isNone) with
  | some sd => (s, .error (.missingSignal sd.name))
  | none =>
    match ask .encBegin s with
    | none => (s, .error .noAnswer)
    | some (s1, _) =>
      match encodeLoop num values md.signals s1 with
      | (s2, .error e) => (s2, .error e)
      | (s2, .ok ()) =>
        match ask (.rd regPbuf) s2 with
        | none => (s2, .error .noAnswer)
        | some (s3, q) =>
          if q.status ≠ .ok then (s3, .error (.payloadRefused q.status))
          else (s3, .ok (unpack64le q.data))

/-! ## The catalog and dispatcher boundary (R214, R215) -/

/-- The descriptor whose id is the 10-bit `MID` the block delivers; an id above 1023 never matches
(R214, C5; log entry 16). -/
def lookupMessage (catalog : List (MessageDescriptor F)) (mid : BitVec 10) :
    Option (MessageDescriptor F) :=
  catalog.find? (fun md => decide (md.id.toNat = mid.toNat))

/-- Why a decoded frame gives a record with `parsed = false`. -/
inductive Unparsed where
  /-- "unknown message id" (R214). -/
  | unknownId
  /-- A signal's descriptor is not valid, and the block refused it at use: the host treats it as it treats an
  unknown message (R216). -/
  | malformed (name : String) (st : Status)
deriving DecidableEq, Repr

/-- What becomes of one received frame (R214 to R216; 41_frame.md R137). -/
inductive FrameOutcome (F : Type) where
  /-- The block refused the frame: counted, logged, dropped by the host, nothing emitted. -/
  | dropped (st : Status)
  /-- A record with `parsed = false`, the device address and the raw payload still filled in. -/
  | unparsed (dev : Word) (payload : List Byte) (reason : Unparsed)
  /-- The message's signals, decoded. -/
  | parsed (dev : Word) (mid : Word) (signals : Decoded F)
deriving DecidableEq, Repr

/-- The record of a frame without decoded signals; its payload is read with `RD FPAY`. -/
def recordUnparsed (dev : Word) (reason : Unparsed) (s : State) :
    State × Except (HostError F) (FrameOutcome F) :=
  match ask (.rd regFpay) s with
  | none => (s, .error .noAnswer)
  | some (t, pay) => (t, .ok (.unparsed dev (unpack64le pay.data) reason))

/-- A frame that the block decoded: the lookup by `MID`, then `decode_signals` on the payload already in
`PBUF` (R214); a malformed descriptor ends as a record, like an unknown id (R216). -/
def handleDecoded (num : Num F) (catalog : List (MessageDescriptor F)) (s : State) :
    State × Except (HostError F) (FrameOutcome F) :=
  match ask (.rd regDev) s with
  | none => (s, .error .noAnswer)
  | some (s1, dev) =>
    match ask (.rd regMid) s1 with
    | none => (s1, .error .noAnswer)
    | some (s2, mid) =>
      match lookupMessage catalog (mid.data.setWidth 10) with
      | none => recordUnparsed dev.data .unknownId s2
      | some md =>
        match decodeHeld num md s2 with
        | (s3, .ok d) => (s3, .ok (.parsed dev.data mid.data d))
        | (s3, .error (.malformed name st)) => recordUnparsed dev.data (.malformed name st) s3
        | (s3, .error e) => (s3, .error e)

/-- One frame through the block and the host: `DECODE raw`, and a frame that fails is dropped (R214, R215). -/
def handleFrame (num : Num F) (catalog : List (MessageDescriptor F)) (raw : List Byte) (s : State) :
    State × Except (HostError F) (FrameOutcome F) :=
  match askLast (decodeCommands raw) s with
  | none => (s, .error .noAnswer)
  | some (t, q) =>
    if q.status ≠ .ok then (t, .ok (.dropped q.status)) else handleDecoded num catalog t

end
end Sys2Proof.Machine
end

