-- ==== Sys2Proof/Safety.lean ====
section
/-! DEFINITION. What counts as a good state and a safe step, in the terms the statements use
(10_state.md R32; 60_exceptions.md R236). -/

namespace Sys2Proof.Machine

/-- The invariants of R32 that speak of one state, and the canonical form of the frame buffer. (Item 4 of
R32 speaks of two states; item 5 is the type of `desc`.) -/
structure Regs.Inv (r : Regs) : Prop where
  /-- `FBUF` is in its canonical form, with no address above 11. -/
  fbufWf : r.fbuf.wf = true
  /-- `FLEN ≤ 13` (item 1). -/
  flenLe : r.flen.toNat ≤ 13
  /-- A payload bit outside `COVER` is zero (item 2). -/
  uncoveredZero : r.pbuf &&& ~~~r.cover = 0#64
  /-- While `FVALID = 1`, the frame in `FBUF` is the decoded one (item 3; `FLEN` is 12 or 13, C9). -/
  frameHeld : r.fvalid = true →
    (r.flen = 12#4 ∨ r.flen = 13#4) ∧ r.hdr = frameHeader r.fbuf ∧ r.chk = frameChecksum r.fbuf ∧
      checksum (frameCovered r.fbuf) = r.chk

/-- The invariant of the whole state: the ports are under no rule. -/
def State.Inv (s : State) : Prop := s.regs.Inv

/-! ## The terms of the statements -/

/-- `s` after one command: the registers `r`, and the response `q` given (30_encoding.md R81). -/
def State.after (s : State) (r : Regs) (q : Response) : State :=
  { regs := r, inputs := s.inputs, responses := s.responses ++ [q] }

/-- `s` after a refusal that changes no register: the status, and data 0 (60_exceptions.md R232). -/
def State.refused (s : State) (st : Status) : State := s.after s.regs ⟨st, 0#64⟩

/-- What a word with the opcode `op` does, whose reserved bits are `reserved` (30_encoding.md R85, R87):
E_ARG when one of them is 1, else the command `i` of its argument is executed. -/
def wordRuns (op : Byte) (reserved : Word) (i : Word → Instr) : Prop :=
  ∀ w s, opOf w = op →
    issue w s =
      if argOf w &&& reserved ≠ 0#64 then .next (s.refused .eArg) else exec (i (argOf w)) s

/-- Between `s` and `t` exactly one response was given, with the status `st`. -/
def answered (s t : State) (st : Status) : Prop := ∃ d, t.responses = s.responses ++ [⟨st, d⟩]

/-- Doing the command twice leaves the registers that doing it once leaves (20_memory.md R60). -/
def idempotent (i : Instr) : Prop :=
  ∀ s t, exec i s = .next t → ∃ u, exec i t = .next u ∧ u.regs = t.regs

/-- The command changes no register and answers the same when repeated (20_memory.md R60). -/
def pureRead (i : Instr) : Prop :=
  ∀ s, ∃ q, exec i s = .next (s.after s.regs q) ∧
    exec i (s.after s.regs q) = .next ((s.after s.regs q).after s.regs q)

/-- The next input of `s` is a word that decodes to `i`. -/
def runsNext (s : State) (i : Instr) : Prop :=
  ∃ w rest, s.inputs = .command w :: rest ∧ decode w = .ok i

/-- The next input of `s` is an assertion of `rst_n`. -/
def resetsNext (s : State) : Prop := ∃ rest, s.inputs = .hardReset :: rest

/-! ## The terms of the statements about the host-side stage, written out from 44_host_level.md -/

section
variable {F : Type}

/-- `raw` of a signal in a payload (R203): `sint` or `uint` of what `EXTRACT` gives, by `is_signed`. -/
def signalRaw (n : BeStartNumbering) (payload : List Byte) (sd : SignalDescriptor F) : Int :=
  if sd.isSigned = true then (extractRaw n (pack64le payload) sd.desc).toInt
  else ((extractRaw n (pack64le payload) sd.desc).toNat : Int)

/-- `physical = fadd(fmul(i2f(raw), scale), offset)` (R203). -/
def signalValue (num : Num F) (n : BeStartNumbering) (payload : List Byte) (sd : SignalDescriptor F) : F :=
  num.fadd (num.fmul (num.i2f (signalRaw n payload sd)) sd.scale) sd.offset

/-- The value is inside the closed interval of the bounds that are given (R205). -/
def inBounds (num : Num F) (x : F) (sd : SignalDescriptor F) : Prop :=
  (∀ lo, sd.minimum = some lo → num.flt x lo = false) ∧
    ∀ hi, sd.maximum = some hi → num.flt hi x = false

/-- `raw` is `round_int(fdiv(fsub(value, offset), scale))`, of a finite quotient (R207). -/
def roundsTo (num : Num F) (sd : SignalDescriptor F) (value : F) (raw : Int) : Prop :=
  ∃ h : num.isFinite (num.fdiv (num.fsub value sd.offset) sd.scale) = true,
    num.roundInt (num.fdiv (num.fsub value sd.offset) sd.scale) h = raw

/-- `lo ≤ raw ≤ hi` (R208); for `bit_length` 0 see log entry 23. -/
def rawFits (sd : SignalDescriptor F) (raw : Int) : Prop :=
  if sd.isSigned = true then
    -(2 : Int) ^ (sd.bitLength.toNat - 1) ≤ raw ∧ raw ≤ (2 : Int) ^ (sd.bitLength.toNat - 1) - 1
  else 0 ≤ raw ∧ raw ≤ (2 : Int) ^ sd.bitLength.toNat - 1

/-- What `decode_signals` is to return for a payload (R204, R205): every signal's value under its name, and
beside it, in the list's order, the reports of exactly the signals whose value is out of bounds. -/
def Decoded.of (num : Num F) (n : BeStartNumbering) (payload : List Byte) (md : MessageDescriptor F)
    (d : Decoded F) : Prop :=
  (∀ sd ∈ md.signals, mapGet d.values sd.name = some (signalValue num n payload sd)) ∧
    (∀ sd ∈ md.signals, (sd.name, signalValue num n payload sd) ∈ d.reports ↔
      ¬ inBounds num (signalValue num n payload sd) sd) ∧
    d.reports.Sublist (md.signals.map fun sd => (sd.name, signalValue num n payload sd))

end

end Sys2Proof.Machine
end

