-- ==== Sys2Proof/Certificates/Slice0/Obligations.lean ====
section
/-! DEFINITION. The statements for the provers. Each says which rule of spec/ it formalises; none is
proved here. A statement about big-endian signals speaks of `Config.beStartNumbering`, which has no body,
or of every numbering `n`, so it holds for both (42_codec.md R154). -/

open Sys2Proof Sys2Proof.Machine

/-! ## The commands, one by one -/

/-- 43_system.md R191. -/
def Obligations.ResetCommandZeroesAllState : Prop :=
  (∀ s, ∃ t, exec .reset s = .next t ∧ t.regs.crc = 0#16 ∧ (∀ a, t.regs.fbuf.read a = 0#8) ∧
    t.regs.flen = 0#4 ∧ t.regs.fvalid = false ∧ t.regs.hdr = 0#16 ∧ t.regs.chk = 0#16 ∧
    t.regs.pbuf = 0#64 ∧ t.regs.cover = 0#64 ∧ t.regs.encerr = false ∧ t.regs.desc = 0#18 ∧
    t = s.after State.reset.regs ⟨.ok, 0#64⟩) ∧
  wordRuns 0x01#8 0xFFFFFFFFFFFFFFFF#64 (fun _ => .reset)

/-- 40_crc.md R118. -/
def Obligations.CrcInitClearsOnlyCrc : Prop :=
  (∀ s, exec .crcInit s = .next (s.after { s.regs with crc := 0x0000#16 } ⟨.ok, 0#64⟩)) ∧
  wordRuns 0x10#8 0xFFFFFFFFFFFFFFFF#64 (fun _ => .crcInit)

/-- 40_crc.md R119. -/
def Obligations.CrcByteStepsOnlyCrc : Prop :=
  (∀ b s, exec (.crcByte b) s =
    .next (s.after { s.regs with crc := crcUpdate s.regs.crc b } ⟨.ok, 0#64⟩)) ∧
  wordRuns 0x11#8 0xFFFFFFFFFFFFFF00#64 (fun arg => .crcByte (arg.extractLsb' 0 8))

/-- 40_crc.md R120. -/
def Obligations.CrcVerifyComparesAndChangesNothing : Prop :=
  (∀ e s, exec (.crcVerify e) s =
    .next (s.after s.regs ⟨.ok, if s.regs.crc = e then 1#64 else 0#64⟩)) ∧
  wordRuns 0x12#8 0xFFFFFFFFFFFF0000#64 (fun arg => .crcVerify (arg.extractLsb' 0 16))

/-- 41_frame.md R131. -/
def Obligations.FrmResetStartsAFrame : Prop :=
  (∀ s, exec .frmReset s =
    .next (s.after { s.regs with flen := 0#4, fvalid := false } ⟨.ok, 0#64⟩)) ∧
  wordRuns 0x20#8 0xFFFFFFFFFFFFFFFF#64 (fun _ => .frmReset)

/-- 41_frame.md R132. The frame buffer is read byte by byte; every other register is as before. -/
def Obligations.FrmPushStoresAtFlenAndSaturates : Prop :=
  (∀ b s, ∃ t, exec (.frmPush b) s = .next t ∧
    (∀ a, t.regs.fbuf.read a =
      if s.regs.flen.toNat < 12 ∧ a = s.regs.flen.toNat then b else s.regs.fbuf.read a) ∧
    t.regs.flen.toNat = min (s.regs.flen.toNat + 1) 13 ∧
    t = s.after { s.regs with fbuf := t.regs.fbuf, flen := t.regs.flen } ⟨.ok, 0#64⟩) ∧
  wordRuns 0x21#8 0xFFFFFFFFFFFFFF00#64 (fun arg => .frmPush (arg.extractLsb' 0 8))

/-- 41_frame.md R134. -/
def Obligations.FrmDecodeChecksLengthThenChecksum : Prop :=
  (∀ s, s.regs.flen ≠ 12#4 →
    exec .frmDecode s = .next (s.after { s.regs with fvalid := false } ⟨.eLength, 0#64⟩)) ∧
  (∀ s, s.regs.flen = 12#4 →
    checksum (s.regs.fbuf.bytes 0 10) ≠ u16le (s.regs.fbuf.read 10) (s.regs.fbuf.read 11) →
    exec .frmDecode s = .next (s.after { s.regs with fvalid := false } ⟨.eCrc, 0#64⟩)) ∧
  (∀ s, s.regs.flen = 12#4 →
    checksum (s.regs.fbuf.bytes 0 10) = u16le (s.regs.fbuf.read 10) (s.regs.fbuf.read 11) →
    exec .frmDecode s = .next (s.after
      { s.regs with
        hdr := u16le (s.regs.fbuf.read 0) (s.regs.fbuf.read 1)
        chk := u16le (s.regs.fbuf.read 10) (s.regs.fbuf.read 11)
        pbuf := pack64le (s.regs.fbuf.bytes 2 8)
        cover := 0xFFFFFFFFFFFFFFFF#64
        encerr := false
        fvalid := true } ⟨.ok, 0#64⟩)) ∧
  wordRuns 0x22#8 0xFFFFFFFFFFFFFFFF#64 (fun _ => .frmDecode)

/-- 42_codec.md R160, with the fields of 10_state.md R28. -/
def Obligations.SetdescStoresUnchecked : Prop :=
  (∀ start len order signed s, ∃ t, exec (.setdesc start len order signed) s = .next t ∧
    t.regs.desc.start = start.toNat ∧ t.regs.desc.len = len.toNat ∧ t.regs.desc.order = order ∧
    t.regs.desc.signed = signed ∧
    t = s.after { s.regs with desc := t.regs.desc } ⟨.ok, 0#64⟩) ∧
  (∀ w s, opOf w = 0x30#8 →
    issue w s = .next
      (if argOf w &&& 0xFFFFFFFFFFFC0000#64 ≠ 0#64 then s.refused .eArg
       else s.after { s.regs with desc := (argOf w).extractLsb' 0 18 } ⟨.ok, 0#64⟩))

/-- 42_codec.md R161. -/
def Obligations.ExtractReadsTheSignal : Prop :=
  (∀ s, s.regs.encerr = true → exec .extract s = .next (s.refused .eEncode)) ∧
  (∀ s, s.regs.encerr = false → validDesc Config.beStartNumbering s.regs.desc = false →
    exec .extract s = .next (s.refused .eDesc)) ∧
  (∀ s, s.regs.encerr = false → validDesc Config.beStartNumbering s.regs.desc = true →
    exec .extract s = .next (s.after s.regs
      ⟨.ok, extractRaw Config.beStartNumbering s.regs.pbuf s.regs.desc⟩)) ∧
  wordRuns 0x31#8 0xFFFFFFFFFFFFFFFF#64 (fun _ => .extract)

/-- 42_codec.md R162. -/
def Obligations.EncBeginZeroesThePayload : Prop :=
  (∀ s, exec .encBegin s =
    .next (s.after { s.regs with pbuf := 0#64, cover := 0#64, encerr := false } ⟨.ok, 0#64⟩)) ∧
  wordRuns 0x32#8 0xFFFFFFFFFFFFFFFF#64 (fun _ => .encBegin)

/-- 42_codec.md R163, the checks in their order. -/
def Obligations.InsertChecksThenWrites : Prop :=
  (∀ v s, s.regs.encerr = true → exec (.insert v) s = .next (s.refused .eEncode)) ∧
  (∀ v s, s.regs.encerr = false → validDesc Config.beStartNumbering s.regs.desc = false →
    exec (.insert v) s = .next (s.after { s.regs with encerr := true } ⟨.eDesc, 0#64⟩)) ∧
  (∀ v s, s.regs.encerr = false → validDesc Config.beStartNumbering s.regs.desc = true →
    fits v s.regs.desc = false →
    exec (.insert v) s = .next (s.after { s.regs with encerr := true } ⟨.eFit, 0#64⟩)) ∧
  (∀ v s, s.regs.encerr = false → validDesc Config.beStartNumbering s.regs.desc = true →
    fits v s.regs.desc = true →
    s.regs.cover &&& rangeMask Config.beStartNumbering s.regs.desc ≠ 0#64 →
    exec (.insert v) s = .next (s.after { s.regs with encerr := true } ⟨.eOverlap, 0#64⟩)) ∧
  (∀ v s, s.regs.encerr = false → validDesc Config.beStartNumbering s.regs.desc = true →
    fits v s.regs.desc = true →
    s.regs.cover &&& rangeMask Config.beStartNumbering s.regs.desc = 0#64 →
    exec (.insert v) s = .next (s.after
      { s.regs with
        pbuf := insertRaw Config.beStartNumbering s.regs.pbuf s.regs.desc v
        cover := s.regs.cover ||| rangeMask Config.beStartNumbering s.regs.desc } ⟨.ok, 0#64⟩)) ∧
  wordRuns 0x33#8 0#64 (fun arg => .insert arg)

/-- 42_codec.md R164. -/
def Obligations.PloadReplacesThePayload : Prop :=
  (∀ v s, exec (.pload v) s =
    .next (s.after { s.regs with pbuf := v, cover := 0xFFFFFFFFFFFFFFFF#64, encerr := false }
      ⟨.ok, 0#64⟩)) ∧
  wordRuns 0x34#8 0#64 (fun arg => .pload arg)

/-- 43_system.md R190: every register number, with its gate. -/
def Obligations.RdReadsEachRegister : Prop :=
  (∀ s, exec (.rd 0x00#8) s = .next (s.after s.regs ⟨.ok, s.regs.crc.setWidth 64⟩) ∧
    exec (.rd 0x01#8) s = .next (s.after s.regs
      ⟨.ok, (if s.regs.fvalid then 1#64 else 0#64) ||| (if s.regs.encerr then 2#64 else 0#64)⟩) ∧
    exec (.rd 0x02#8) s = .next (s.after s.regs ⟨.ok, s.regs.flen.setWidth 64⟩) ∧
    exec (.rd 0x0A#8) s = .next (s.after s.regs ⟨.ok, s.regs.desc.setWidth 64⟩) ∧
    exec (.rd 0x0B#8) s = .next (s.after s.regs ⟨.ok, s.regs.cover⟩)) ∧
  (∀ s, s.regs.fvalid = true →
    exec (.rd 0x03#8) s = .next (s.after s.regs ⟨.ok, s.regs.hdr.setWidth 64⟩) ∧
    exec (.rd 0x04#8) s = .next (s.after s.regs ⟨.ok, (s.regs.hdr.extractLsb' 0 5).setWidth 64⟩) ∧
    exec (.rd 0x05#8) s = .next (s.after s.regs ⟨.ok, (s.regs.hdr.extractLsb' 5 10).setWidth 64⟩) ∧
    exec (.rd 0x06#8) s = .next (s.after s.regs ⟨.ok, (s.regs.hdr.extractLsb' 15 1).setWidth 64⟩) ∧
    exec (.rd 0x07#8) s = .next (s.after s.regs ⟨.ok, s.regs.chk.setWidth 64⟩) ∧
    exec (.rd 0x08#8) s = .next (s.after s.regs ⟨.ok, pack64le (s.regs.fbuf.bytes 2 8)⟩)) ∧
  (∀ s r, s.regs.fvalid = false → 0x03 ≤ r.toNat → r.toNat ≤ 0x08 →
    exec (.rd r) s = .next (s.refused .eNoFrame)) ∧
  (∀ s, s.regs.encerr = false → exec (.rd 0x09#8) s = .next (s.after s.regs ⟨.ok, s.regs.pbuf⟩)) ∧
  (∀ s, s.regs.encerr = true → exec (.rd 0x09#8) s = .next (s.refused .eEncode)) ∧
  (∀ s r, 0x0B < r.toNat → exec (.rd r) s = .next (s.refused .eArg)) ∧
  wordRuns 0x40#8 0xFFFFFFFFFFFFFF00#64 (fun arg => .rd (arg.extractLsb' 0 8))

/-! ## Encoding -/

/-- No operand bit of an encoding is dropped (30_encoding.md R80, R82, R84, R85). -/
def Obligations.DecodeOfEncode : Prop :=
  ∀ i : Instr, i.wf = true → decode (encode i) = .ok i

/-- A legally encoded word has one meaning and no bit without one (30_encoding.md R85, R88). -/
def Obligations.EncodeOfDecode : Prop :=
  ∀ w i, decode w = .ok i → encode i = w ∧ i.wf = true

/-- Words written out from the encodings of spec/opcode_table.json and 30_encoding.md R91: one a
sub-block, and the two kinds of refused word. -/
def Obligations.WrittenWordsDecode : Prop :=
  decode 0x010000000000000000#72 = .ok .reset ∧
  decode 0x1100000000000000A5#72 = .ok (.crcByte 0xA5#8) ∧
  decode 0x12000000000000BB3D#72 = .ok (.crcVerify 0xBB3D#16) ∧
  decode 0x210000000000000081#72 = .ok (.frmPush 0x81#8) ∧
  decode 0x300000000000030C04#72 = .ok (.setdesc 0x04#8 0x0C#8 .big true) ∧
  decode 0x33FFFFFFFFFFFFFCFE#72 = .ok (.insert 0xFFFFFFFFFFFFFCFE#64) ∧
  decode 0x40000000000000000B#72 = .ok (.rd 0x0B#8) ∧
  decode 0x000000000000000000#72 = .error .illegalOpcode ∧
  decode 0x228000000000000000#72 = .error .reservedBits

/-- 30_encoding.md R86. -/
def Obligations.IllegalOpcodesChangeNothing : Prop :=
  ∀ w s,
    ((opOf w).toNat = 0x00 ∨ (0x02 ≤ (opOf w).toNat ∧ (opOf w).toNat ≤ 0x0F) ∨
      (0x13 ≤ (opOf w).toNat ∧ (opOf w).toNat ≤ 0x1F) ∨
      (0x23 ≤ (opOf w).toNat ∧ (opOf w).toNat ≤ 0x2F) ∨
      (0x35 ≤ (opOf w).toNat ∧ (opOf w).toNat ≤ 0x3F) ∨ 0x41 ≤ (opOf w).toNat) →
    issue w s = .next (s.refused .eOpcode)

/-- 30_encoding.md R87, with the reserved bits of each format (R82). -/
def Obligations.ReservedBitsAreRefused : Prop :=
  (∀ w s, opOf w ∈ [0x01#8, 0x10#8, 0x20#8, 0x22#8, 0x31#8, 0x32#8] → argOf w ≠ 0#64 →
    issue w s = .next (s.refused .eArg)) ∧
  (∀ w s, opOf w ∈ [0x11#8, 0x21#8, 0x40#8] → (argOf w).extractLsb' 8 56 ≠ 0#56 →
    issue w s = .next (s.refused .eArg)) ∧
  (∀ w s, opOf w = 0x12#8 → (argOf w).extractLsb' 16 48 ≠ 0#48 →
    issue w s = .next (s.refused .eArg)) ∧
  (∀ w s, opOf w = 0x30#8 → (argOf w).extractLsb' 18 46 ≠ 0#46 →
    issue w s = .next (s.refused .eArg)) ∧
  (∀ w s, opOf w = 0x40#8 → 0x0B < ((argOf w).extractLsb' 0 8).toNat →
    issue w s = .next (s.refused .eArg)) ∧
  (∀ w s t, opOf w ∈ [0x33#8, 0x34#8] → issue w s = .next t → ¬ answered s t .eArg)

/-! ## Every step -/

/-- A word that decodes runs as its command, on the state with the rest of the inputs (30_encoding.md R85;
the fields `inputs` and `responses` are the model's, log entries 1 and 2). -/
def Obligations.StepRunsTheDecodedCommand : Prop :=
  ∀ s w rest i, s.inputs = .command w :: rest → decode w = .ok i →
    step s = exec i { s with inputs := rest }

/-- No state stops the block (60_exceptions.md R236; 70_reset_and_hazards.md R266; that an idle step holds
the state is the model's, log entry 3). -/
def Obligations.EveryStepGoesOn : Prop := ∀ s, ∃ t, step s = .next t

/-- 30_encoding.md R81. -/
def Obligations.EveryCommandGivesOneResponse : Prop :=
  ∀ w s, ∃ r q, issue w s = .next (s.after r q) ∧
    q.toWord.extractLsb' 64 8 = q.status.code ∧ q.toWord.extractLsb' 0 64 = q.data ∧
    (q.status ≠ .ok → q.data = 0#64) ∧
    (opOf w ≠ 0x12#8 → opOf w ≠ 0x31#8 → opOf w ≠ 0x40#8 → q.data = 0#64)

/-- 00_scope.md R10: the response and the next registers depend on the registers and the word alone. -/
def Obligations.ResponseDependsOnRegistersOnly : Prop :=
  ∀ w s s', s.regs = s'.regs →
    ∃ r q, issue w s = .next (s.after r q) ∧ issue w s' = .next (s'.after r q)

/-- 60_exceptions.md R230: the codes, who raises each status, and what the refusal changes. -/
def Obligations.StatusesAndWhatRefusalsChange : Prop :=
  ([Status.ok, .eLength, .eCrc, .eNoFrame, .eDesc, .eFit, .eOverlap, .eEncode, .eOpcode, .eArg].map
    Status.code = [0x00#8, 0x01#8, 0x02#8, 0x03#8, 0x04#8, 0x05#8, 0x06#8, 0x07#8, 0x08#8, 0x09#8]) ∧
  ∀ w s r q, issue w s = .next (s.after r q) →
    (q.status ≠ .ok → q.data = 0#64) ∧
    match q.status with
    | .ok => ∃ i, decode w = .ok i
    | .eLength =>
      decode w = .ok .frmDecode ∧ s.regs.flen ≠ 12#4 ∧ r = { s.regs with fvalid := false }
    | .eCrc =>
      decode w = .ok .frmDecode ∧ s.regs.flen = 12#4 ∧
        checksum (s.regs.fbuf.bytes 0 10) ≠ u16le (s.regs.fbuf.read 10) (s.regs.fbuf.read 11) ∧
        r = { s.regs with fvalid := false }
    | .eNoFrame =>
      (∃ n, decode w = .ok (.rd n) ∧ 0x03 ≤ n.toNat ∧ n.toNat ≤ 0x08) ∧ s.regs.fvalid = false ∧
        r = s.regs
    | .eDesc =>
      validDesc Config.beStartNumbering s.regs.desc = false ∧
        ((decode w = .ok .extract ∧ r = s.regs) ∨
          (∃ v, decode w = .ok (.insert v)) ∧ r = { s.regs with encerr := true })
    | .eFit =>
      ∃ v, decode w = .ok (.insert v) ∧ fits v s.regs.desc = false ∧
        r = { s.regs with encerr := true }
    | .eOverlap =>
      (∃ v, decode w = .ok (.insert v)) ∧
        s.regs.cover &&& rangeMask Config.beStartNumbering s.regs.desc ≠ 0#64 ∧
        r = { s.regs with encerr := true }
    | .eEncode =>
      ((∃ v, decode w = .ok (.insert v)) ∨ decode w = .ok .extract ∨ decode w = .ok (.rd 0x09#8)) ∧
        s.regs.encerr = true ∧ r = s.regs
    | .eOpcode => decode w = .error .illegalOpcode ∧ r = s.regs
    | .eArg =>
      (decode w = .error .reservedBits ∨ decode w = .error .badRegister) ∧ opOf w ≠ 0x33#8 ∧
        opOf w ≠ 0x34#8 ∧ r = s.regs

/-- 10_state.md R24: a register changes only by its writers; `FBUF` byte by byte. -/
def Obligations.RegistersChangeOnlyByTheirWriters : Prop :=
  ∀ s t, step s = .next t → ¬ resetsNext s →
    (t.regs.crc ≠ s.regs.crc →
      runsNext s .crcInit ∨ (∃ b, runsNext s (.crcByte b)) ∨ runsNext s .reset) ∧
    (∀ a, t.regs.fbuf.read a ≠ s.regs.fbuf.read a →
      ((∃ b, runsNext s (.frmPush b)) ∧ s.regs.flen.toNat < 12 ∧ a = s.regs.flen.toNat) ∨
        runsNext s .reset) ∧
    (t.regs.flen ≠ s.regs.flen →
      runsNext s .frmReset ∨ (∃ b, runsNext s (.frmPush b)) ∨ runsNext s .reset) ∧
    (t.regs.fvalid ≠ s.regs.fvalid →
      runsNext s .frmDecode ∨ runsNext s .frmReset ∨ runsNext s .reset) ∧
    (t.regs.hdr ≠ s.regs.hdr ∨ t.regs.chk ≠ s.regs.chk →
      (runsNext s .frmDecode ∧ answered s t .ok) ∨ runsNext s .reset) ∧
    (t.regs.pbuf ≠ s.regs.pbuf ∨ t.regs.cover ≠ s.regs.cover →
      (runsNext s .frmDecode ∧ answered s t .ok) ∨ runsNext s .encBegin ∨
        ((∃ v, runsNext s (.insert v)) ∧ answered s t .ok) ∨ (∃ v, runsNext s (.pload v)) ∨
        runsNext s .reset) ∧
    (t.regs.encerr ≠ s.regs.encerr →
      ((∃ v, runsNext s (.insert v)) ∧
        (answered s t .eDesc ∨ answered s t .eFit ∨ answered s t .eOverlap)) ∨
        runsNext s .encBegin ∨ (∃ v, runsNext s (.pload v)) ∨
        (runsNext s .frmDecode ∧ answered s t .ok) ∨ runsNext s .reset) ∧
    (t.regs.desc ≠ s.regs.desc →
      (∃ start len order signed, runsNext s (.setdesc start len order signed)) ∨
        runsNext s .reset) ∧
    (runsNext s .frmDecode → answered s t .eLength ∨ answered s t .eCrc → t.regs.fvalid = false) ∧
    (∀ v, runsNext s (.insert v) →
      answered s t .eDesc ∨ answered s t .eFit ∨ answered s t .eOverlap → t.regs.encerr = true) ∧
    (∀ st, st ≠ .ok → answered s t st →
      t.regs = { s.regs with fvalid := t.regs.fvalid, encerr := t.regs.encerr })

/-- 20_memory.md R60. -/
def Obligations.ReadsAreFreeOfEffectsAndWhichCommandsRepeat : Prop :=
  ((∀ r, pureRead (.rd r)) ∧ pureRead .extract ∧ ∀ e, pureRead (.crcVerify e)) ∧
  (idempotent .crcInit ∧ idempotent .frmReset ∧ idempotent .encBegin ∧
    (∀ start len order signed, idempotent (.setdesc start len order signed)) ∧
    (∀ v, idempotent (.pload v)) ∧ idempotent .reset) ∧
  ((∀ b, ¬ idempotent (.crcByte b)) ∧ (∀ b, ¬ idempotent (.frmPush b)) ∧
    (∀ v, ¬ idempotent (.insert v))) ∧
  (∀ s r q, exec .frmDecode s = .next (s.after r q) →
    exec .frmDecode (s.after r q) = .next ((s.after r q).after r q))

/-- While an encode stands rejected, the payload and its cover do not change, and the payload is not
shown (10_state.md R32 item 4; 42_codec.md R163). -/
def Obligations.RejectedEncodeIsFrozen : Prop :=
  ∀ s t, s.regs.encerr = true → step s = .next t → ¬ resetsNext s →
    ¬ runsNext s .encBegin → (∀ v, ¬ runsNext s (.pload v)) → ¬ runsNext s .reset →
    ¬ (runsNext s .frmDecode ∧ answered s t .ok) →
    t.regs.pbuf = s.regs.pbuf ∧ t.regs.cover = s.regs.cover ∧ t.regs.encerr = true ∧
      (((∃ v, runsNext s (.insert v)) ∨ runsNext s .extract ∨ runsNext s (.rd 0x09#8)) →
        answered s t .eEncode)

/-! ## Reset, runs and invariants -/

/-- 10_state.md R31: hardware reset and `RESET` leave every item zero (that `rst_n` arrives as an input is
the model's, log entry 1). -/
def Obligations.BothResetsLeaveEveryItemZero : Prop :=
  ∀ s t, (resetsNext s ∨ runsNext s .reset) → step s = .next t →
    t.regs.crc = 0x0000#16 ∧ (∀ a, a < 12 → t.regs.fbuf.read a = 0x00#8) ∧ t.regs.flen = 0#4 ∧
    t.regs.fvalid = false ∧ t.regs.hdr = 0x0000#16 ∧ t.regs.chk = 0x0000#16 ∧
    t.regs.pbuf = 0#64 ∧ t.regs.cover = 0#64 ∧ t.regs.encerr = false ∧ t.regs.desc = 0#18

/-- A run of the host's list of words is that many steps of the machine with the list presented
(70_reset_and_hazards.md R267; how the list is held is the model's, log entries 1 and 9). -/
def Obligations.RunIsStepsOverThePresentedList : Prop :=
  ∀ (ws : List CmdWord) (s : State),
    Host.Core.run Sys2Proof.core ws.length { s with inputs := ws.map .command ++ s.inputs } =
      runWords ws s

/-- The invariants of 10_state.md R32, and `FBUF`'s canonical form, hold at reset. -/
def Obligations.ResetStateMeetsTheInvariants : Prop := State.reset.Inv

/-- Every step keeps them, from every state that meets them (10_state.md R32 items 1 to 3). -/
def Obligations.EveryStepKeepsTheInvariants : Prop :=
  ∀ s t, State.Inv s → step s = .next t → State.Inv t

/-! ## The CRC engine -/

/-- 40_crc.md R111, R112. -/
def Obligations.SerialFormOfTheCrcStep : Prop :=
  (∀ r, bitstep r = if r.getLsbD 0 = true then (r >>> 1) ^^^ 0xA001#16 else r >>> 1) ∧
  ∀ r b, crcUpdate r b =
    bitstep (bitstep (bitstep (bitstep (bitstep (bitstep (bitstep (bitstep
      (r ^^^ b.setWidth 16))))))))

/-- 40_crc.md R113: the printed entries are the function's. -/
def Obligations.PrintedTableIsTheCrcOfEachByte : Prop :=
  crcTable.length = 256 ∧ ∀ i : Byte, tableEntry i = crcUpdate 0x0000#16 i

/-- 40_crc.md R114, for all 2^24 inputs. -/
def Obligations.TableFormEqualsSerialForm : Prop :=
  ∀ r b, crcUpdate r b = (r >>> 8) ^^^ tableEntry ((r ^^^ b.setWidth 16).extractLsb' 0 8)

/-- 40_crc.md R115. -/
def Obligations.ParallelFormEqualsSerialForm : Prop :=
  ∀ r b, crcUpdateParallel r b = crcUpdate r b ∧
    ∀ i, i < 16 → (crcUpdate r b).getLsbD i = parallelBit r b i

/-- 40_crc.md R116. -/
def Obligations.ChecksumFoldsTheBytes : Prop :=
  checksum [] = 0x0000#16 ∧ (∀ m b, checksum (m ++ [b]) = crcUpdate (checksum m) b) ∧
  checksum [0x31#8, 0x32#8, 0x33#8, 0x34#8, 0x35#8, 0x36#8, 0x37#8, 0x38#8, 0x39#8] = 0xBB3D#16

/-- 40_crc.md R121 item 1. -/
def Obligations.CrcStepIsLinear : Prop :=
  (∀ r1 r2 b1 b2, crcUpdate (r1 ^^^ r2) (b1 ^^^ b2) = crcUpdate r1 b1 ^^^ crcUpdate r2 b2) ∧
  crcUpdate 0#16 0#8 = 0#16

/-- 40_crc.md R121 item 2. -/
def Obligations.AppendedChecksumLeavesZero : Prop :=
  ∀ m, checksum (m ++ [(checksum m).extractLsb' 0 8, (checksum m).extractLsb' 8 8]) = 0x0000#16

/-- 40_crc.md R121 item 3. -/
def Obligations.SingleBitErrorChangesTheChecksum : Prop :=
  ∀ (pre post : List Byte) (b : Byte) (j : Nat), j < 8 →
    checksum (pre ++ (b ^^^ (1#8 <<< j)) :: post) ≠ checksum (pre ++ b :: post)

/-- The pseudo-commands `CHECKSUM` and `VERIFY` compute `checksum` and `verify` (30_encoding.md R100;
40_crc.md R116, R117). -/
def Obligations.ChecksumAndVerifyByCommands : Prop :=
  (∀ bytes s, ∃ t, runInstrs (checksumCommands bytes) s = .next t ∧
    t.responses.getLast? = some ⟨.ok, (checksum bytes).setWidth 64⟩ ∧
    t.regs = { s.regs with crc := checksum bytes }) ∧
  (∀ bytes expected s, ∃ t, runInstrs (verifyCommands bytes expected) s = .next t ∧
    t.responses.getLast? = some ⟨.ok, if checksum bytes = expected then 1#64 else 0#64⟩ ∧
    t.regs = { s.regs with crc := checksum bytes })

/-! ## The frame parser -/

/-- 41_frame.md R133. -/
def Obligations.FlenCountsThePushes : Prop :=
  (∀ raw s, ∃ t, runInstrs (pushCommands raw) s = .next t ∧
    t.regs.flen.toNat = (if raw.length ≤ 12 then raw.length else 13) ∧
    (t.regs.flen = 12#4 ↔ raw.length = 12) ∧
    ∀ i, i < min raw.length 12 → some (t.regs.fbuf.read i) = raw[i]?) ∧
  (∀ w s, opOf w = 0x21#8 → argOf w &&& 0xFFFFFFFFFFFFFF00#64 ≠ 0#64 →
    issue w s = .next (s.refused .eArg))

/-- The command sequence `DECODE raw` is the document's function `decode(raw)` (41_frame.md R130, R134,
R137; 30_encoding.md R100), from every state. Payload byte i of the frame is bits 8i+7 : 8i of `PBUF` and of
what `RD FPAY` gives (20_memory.md R55). The whole pseudo-command, with its reads, returns what the function
returns. -/
def Obligations.DecodeCommandsComputeDecode : Prop :=
  (∀ raw s, ∃ u, decodeByCommands raw s = some (u, match decodeFrame raw with
    | .error e => .error e.status
    | .ok f => .ok f)) ∧
  ∀ raw s, ∃ t, runInstrs (decodeCommands raw) s = .next t ∧ t.regs.crc = s.regs.crc ∧
    t.regs.desc = s.regs.desc ∧
    match decodeFrame raw with
    | .error e =>
      t.responses.getLast? = some ⟨e.status, 0#64⟩ ∧ t.regs.fvalid = false ∧
        t.regs.hdr = s.regs.hdr ∧ t.regs.chk = s.regs.chk ∧ t.regs.pbuf = s.regs.pbuf ∧
        t.regs.cover = s.regs.cover ∧ t.regs.encerr = s.regs.encerr
    | .ok f =>
      t.responses.getLast? = some ⟨.ok, 0#64⟩ ∧ t.regs.fvalid = true ∧
        splitHeader t.regs.hdr = f.header ∧ t.regs.chk = f.checksum ∧
        unpack64le (framePayload t.regs.fbuf) = f.payload ∧ unpack64le t.regs.pbuf = f.payload ∧
        t.regs.cover = 0xFFFFFFFFFFFFFFFF#64 ∧ t.regs.encerr = false ∧
        (∀ i, i < 8 → some (t.regs.pbuf.extractLsb' (8 * i) 8) = raw[2 + i]?) ∧
        ∃ d, exec (.rd 0x08#8) t = .next (t.after t.regs ⟨.ok, d⟩) ∧
          ∀ i, i < 8 → some (d.extractLsb' (8 * i) 8) = raw[2 + i]?

/-- 41_frame.md R136: no header value is illegal. -/
def Obligations.BuiltFrameAlwaysDecodes : Prop :=
  ∀ (h : Word16) (payload : List Byte), payload.length = 8 →
    ∃ f, decodeFrame (buildFrame h payload) = .ok f ∧ f.payload = payload ∧
      f.header.deviceAddress.setWidth 16 = h &&& 0x1F#16 ∧
      f.header.messageId.setWidth 16 = (h >>> 5) &&& 0x3FF#16 ∧
      f.header.reserved = h.extractLsb' 15 1

/-- Any single flipped bit of a valid frame is found, and any other length fails whatever the content
(41_frame.md R138 items b, c, d). -/
def Obligations.DamagedFramesAreRefused : Prop :=
  (∀ raw, raw.length ≠ 12 → decodeFrame raw = .error .frameLength) ∧
  (∀ raw f i j b, decodeFrame raw = .ok f → j < 8 → raw[i]? = some b →
    decodeFrame (raw.set i (b ^^^ (1#8 <<< j))) = .error .crcMismatch)

/-- 10_state.md R26. -/
def Obligations.HeaderViewsRebuildTheHeader : Prop :=
  ∀ h : Word16,
    (headerDev h).setWidth 16 ||| ((headerMid h).setWidth 16 <<< 5) |||
      ((headerRsv h).setWidth 16 <<< 15) = h ∧
    (headerDev h).setWidth 16 = h &&& 0x1F#16 ∧
    (headerMid h).setWidth 16 = (h >>> 5) &&& 0x3FF#16 ∧
    (headerRsv h).setWidth 16 = h >>> 15

/-! ## The signal codec -/

/-- 20_memory.md R53. -/
def Obligations.FlatIndexOfMsb0Positions : Prop :=
  (∀ p, p ≤ 63 → flat p = 8 * (p / 8) + (7 - p % 8) ∧ flat p ≤ 63 ∧ flat (flat p) = p) ∧
  (∀ p, p % 8 ≠ 7 → flat (p + 1) + 1 = flat p) ∧
  (∀ p, p % 8 = 7 → flat (p + 1) = 8 * (p / 8 + 1) + 7)

/-- 42_codec.md R157. -/
def Obligations.ValidDescriptorsKeepInsideThePayload : Prop :=
  ∀ n d, validDesc n d = true ↔
    (1 ≤ d.len ∧ d.len ≤ 64) ∧
    match d.order, n with
    | .little, _ => d.start + d.len ≤ 64
    | .big, .msb0 => d.start + d.len ≤ 64
    | .big, .lsb0 => d.start ≤ 63 ∧ 8 * (d.start / 8) + 7 - d.start % 8 + d.len ≤ 64

/-- 42_codec.md R152: the walk and its closed form. -/
def Obligations.LittleEndianWalkIsAShift : Prop :=
  ∀ n d P, d.order = .little → validDesc n d = true →
    (∀ k, k < d.len → loc n d k = d.start + k) ∧
    gatherBits P (loc n d) d.len = (P >>> d.start) &&& lowMask d.len

/-- 42_codec.md R153: the walk and its closed form over the byte-reversed payload, in which payload byte i is
at bits 8·(7−i)+7 : 8·(7−i); the position p0 where it begins is START, or flat(START), by the numbering
(R154). -/
def Obligations.BigEndianWalkIsAShiftOfTheReversedBytes : Prop :=
  (∀ d, bigStart .msb0 d = d.start) ∧
  (∀ d, bigStart .lsb0 d = 8 * (d.start / 8) + 7 - d.start % 8) ∧
  (∀ (P : Word) i, i < 8 →
    (byteRev P).extractLsb' (8 * (7 - i)) 8 = P.extractLsb' (8 * i) 8) ∧
  ∀ n d P, d.order = .big → validDesc n d = true →
    (∀ k, k < d.len → loc n d k =
      8 * ((bigStart n d + d.len - 1 - k) / 8) + 7 - (bigStart n d + d.len - 1 - k) % 8) ∧
    gatherBits P (loc n d) d.len =
      (byteRev P >>> (64 - bigStart n d - d.len)) &&& lowMask d.len

/-- 42_codec.md R155. -/
def Obligations.RangeMaskHasTheSignalsBits : Prop :=
  ∀ n d, validDesc n d = true →
    (∀ j, (rangeMask n d).getLsbD j = true ↔ ∃ k < d.len, loc n d k = j) ∧
    (List.range 64).countP (fun j => (rangeMask n d).getLsbD j) = d.len ∧
    (d.order = .little → rangeMask n d = lowMask d.len <<< d.start) ∧
    (d.order = .big → rangeMask n d = byteRev (lowMask d.len <<< (64 - bigStart n d - d.len)))

/-- 42_codec.md R154: "START_LSB0 = flat(START_MSB0)" names the same signal. -/
def Obligations.TheTwoNumberingsNameTheSameSignals : Prop :=
  ∀ (start len : Byte) (signed : Bool), start.toNat ≤ 63 →
    validDesc .lsb0 (descBits (BitVec.ofNat 8 (flat start.toNat)) len .big signed) =
      validDesc .msb0 (descBits start len .big signed) ∧
    ∀ k, loc .lsb0 (descBits (BitVec.ofNat 8 (flat start.toNat)) len .big signed) k =
      loc .msb0 (descBits start len .big signed) k

/-- 42_codec.md R156, R158: the extracted pattern read as an integer. -/
def Obligations.ExtractedValueIsTheSignalsInteger : Prop :=
  ∀ n P d, validDesc n d = true →
    (∀ k, k < 64 → (gatherBits P (loc n d) d.len).getLsbD k =
      (decide (k < d.len) && P.getLsbD (loc n d k))) ∧
    (d.signed = false → extractRaw n P d = gatherBits P (loc n d) d.len) ∧
    (d.signed = true → (extractRaw n P d).toInt =
      if (gatherBits P (loc n d) d.len).getLsbD (d.len - 1) = true
      then ((gatherBits P (loc n d) d.len).toNat : Int) - 2 ^ d.len
      else ((gatherBits P (loc n d) d.len).toNat : Int))

/-- 42_codec.md R159: `fits` on integers and on bit patterns; a 64-bit signal always fits. -/
def Obligations.FitsOnIntegersEqualsFitsOnPatterns : Prop :=
  ∀ v (d : Desc), 1 ≤ d.len → d.len ≤ 64 →
    (fits v d = true ↔
      if d.signed = true then -(2 : Int) ^ (d.len - 1) ≤ v.toInt ∧ v.toInt < (2 : Int) ^ (d.len - 1)
      else v.toNat < 2 ^ d.len) ∧
    (d.signed = false → (fits v d = true ↔ v &&& ~~~lowMask d.len = 0#64)) ∧
    (d.signed = true → (fits v d = true ↔
      ∀ i, d.len - 1 ≤ i → i < 64 → v.getLsbD i = v.getLsbD 63)) ∧
    (d.len = 64 → fits v d = true)

/-- 42_codec.md R165 items 1 to 3. -/
def Obligations.ExtractAndInsertRoundTrip : Prop :=
  ∀ n d P v, validDesc n d = true →
    fits (extractRaw n P d) d = true ∧
    insertRaw n P d (extractRaw n P d) = P ∧
    (fits v d = true → extractRaw n (insertRaw n P d v) d = v)

/-- 42_codec.md R165 items 4 to 6. -/
def Obligations.SignalsInDisjointRangesAreIndependent : Prop :=
  (∀ n d P v, validDesc n d = true →
    insertRaw n P d v &&& ~~~rangeMask n d = P &&& ~~~rangeMask n d) ∧
  (∀ n d P Q, validDesc n d = true → P &&& rangeMask n d = Q &&& rangeMask n d →
    extractRaw n P d = extractRaw n Q d) ∧
  (∀ n d1 d2 P v1 v2, validDesc n d1 = true → validDesc n d2 = true →
    rangeMask n d1 &&& rangeMask n d2 = 0#64 →
    insertRaw n (insertRaw n P d1 v1) d2 v2 = insertRaw n (insertRaw n P d2 v2) d1 v1)

/-- 42_codec.md R165 item 7, over the commands. -/
def Obligations.SuccessfulEncodeReadsBack : Prop :=
  ∀ (xs : List RawSignal) (s t : State) (qs : List Response),
    runInstrs (rawEncodeCommands xs) s = .next t → t.responses = s.responses ++ qs →
    (∀ q ∈ qs, q.status = .ok) →
    t.regs.cover = rawCover Config.beStartNumbering xs ∧
    xs.Pairwise (fun x y =>
      rangeMask Config.beStartNumbering x.desc &&& rangeMask Config.beStartNumbering y.desc = 0#64) ∧
    (∀ x ∈ xs, validDesc Config.beStartNumbering x.desc = true ∧
      extractRaw Config.beStartNumbering t.regs.pbuf x.desc = x.value) ∧
    t.regs.pbuf &&& ~~~t.regs.cover = 0#64

/-- A payload whose every bit is taken, as `PLOAD` and a successful `FRM_DECODE` leave it, cannot be
patched (42_codec.md R163 corner cases, R164). -/
def Obligations.LoadedPayloadCannotBePatched : Prop :=
  ∀ v s, s.regs.cover = 0xFFFFFFFFFFFFFFFF#64 →
    ∃ r q, exec (.insert v) s = .next (s.after r q) ∧ q.status ≠ .ok ∧ r.pbuf = s.regs.pbuf ∧
      r.cover = s.regs.cover ∧ r.encerr = true ∧
      (s.regs.encerr = false → validDesc Config.beStartNumbering s.regs.desc = true →
        fits v s.regs.desc = true → q.status = .eOverlap)

/-! ## The host-side stage

Its terms (`signalRaw`, `signalValue`, `inBounds`, `roundsTo`, `rawFits`, `Decoded.of`) are written out from
the rules in Sys2Proof/Safety.lean and use none of the model's host-side functions. -/

/-- 44_host_level.md R203 to R205: `decode_signals` gives each signal the value of its own raw value, reports
exactly the values out of bounds, a NaN never, and clamps and drops nothing. It stops at the first signal whose
descriptor is not valid (R204, R216). The worked example of R212 gives 1000.0. The spec has payloads of eight
bytes only (00_scope.md R8); what the statement says of a list of another length is the model's choice, log
entry 22. -/
def Obligations.DecodeSignalsGivesEachPhysicalValue : Prop :=
  (∀ (F : Type) (num : Num F) (payload : List Byte) (md : MessageDescriptor F) (s : State),
    (md.signals.map (·.name)).Nodup →
    (∀ sd ∈ md.signals, sd.valid Config.beStartNumbering = true) →
    ∃ t d, decodeSignals num payload md s = (t, .ok d) ∧
      Decoded.of num Config.beStartNumbering payload md d ∧
      ∀ e ∈ d.reports, num.isNan e.2 = false) ∧
  (∀ (F : Type) (num : Num F) (payload : List Byte) (md : MessageDescriptor F) (s : State)
    (pre post : List (SignalDescriptor F)) (sd : SignalDescriptor F),
    md.signals = pre ++ sd :: post → (∀ p ∈ pre, p.valid Config.beStartNumbering = true) →
    sd.valid Config.beStartNumbering = false →
    (decodeSignals num payload md s).2 = .error (.malformed sd.name .eDesc)) ∧
  ∀ (F : Type) (num : Num F) (rest : List Byte) (id : BitVec 32) (name unit : String) (s : State),
    ∃ t d, decodeSignals num (0x10#8 :: 0x27#8 :: rest)
        ⟨id, "m", 8, [⟨name, 0#8, 16#8, .little, false, num.tenth, num.i2f 0, none, none, unit⟩]⟩ s =
          (t, .ok d) ∧
      mapGet d.values name = some (num.i2f 1000)

/-- 44_host_level.md R207 to R210. An encode that gives a payload had every signal given, finite, with a scale
that is not 0, in its bounds, with a rounded raw value that fits, in ranges that do not overlap, and the
payload holds those raw values and no other bit. An encode that fails names what was wrong: out of bounds is a
range error, no raw value or one that does not fit an encode error (R210), a signal not given is found before
the block is touched (R209), and the block refuses an invalid descriptor or an overlap only. The model's: for a
signed signal of bit_length 0, that the raw values −1 and 0 pass `rawFits`, so that the block and not the host
refuses them, is its choice, log entry 23; that a scale is 0 by `Num.isZero` is log entry 6. -/
def Obligations.EncodeSignalsIsNeverPartial : Prop :=
  ∀ (F : Type) (num : Num F) (values : List (String × F)) (md : MessageDescriptor F) (s : State),
    (∀ t bytes, encodeSignals num values md s = (t, .ok bytes) →
      bytes.length = 8 ∧ rangesDisjoint Config.beStartNumbering md.signals ∧
      (∀ sd ∈ md.signals, ∃ value raw, mapGet values sd.name = some value ∧
        num.isFinite value = true ∧ num.isZero sd.scale = false ∧ inBounds num value sd ∧
        roundsTo num sd value raw ∧ rawFits sd raw ∧ sd.valid Config.beStartNumbering = true ∧
        extractRaw Config.beStartNumbering (pack64le bytes) sd.desc = BitVec.ofInt 64 raw) ∧
      pack64le bytes &&& ~~~coverOf Config.beStartNumbering md.signals = 0#64) ∧
    (∀ t e, encodeSignals num values md s = (t, .error e) →
      match e with
      | .missingSignal name =>
        (∃ sd ∈ md.signals, sd.name = name) ∧ mapGet values name = none ∧ t = s
      | .range name value =>
        ∃ sd ∈ md.signals, sd.name = name ∧ mapGet values name = some value ∧ ¬ inBounds num value sd
      | .encode name =>
        ∃ sd ∈ md.signals, ∃ value, sd.name = name ∧ mapGet values name = some value ∧
          inBounds num value sd ∧ ∀ raw, roundsTo num sd value raw → ¬ rawFits sd raw
      | .insertRefused name st =>
        ∃ sd ∈ md.signals, ∃ value raw, sd.name = name ∧ mapGet values name = some value ∧
          inBounds num value sd ∧ roundsTo num sd value raw ∧ rawFits sd raw ∧
          ((st = .eDesc ∧ sd.valid Config.beStartNumbering = false) ∨
            (st = .eOverlap ∧ ¬ rangesDisjoint Config.beStartNumbering md.signals))
      | .malformed _ _ => False
      | .payloadRefused _ => False
      | .noAnswer => False) ∧
    ∀ sd ∈ md.signals, mapGet values sd.name = none →
      ∃ name, encodeSignals num values md s = (s, .error (.missingSignal name))

/-- 44_host_level.md R211: the round-trip law in the form that holds. The encode of R212's example, by
binary64 and either tie rule, gives its bytes (that NUM is presumed, log entry 24). The spec has payloads of
eight bytes only (00_scope.md R8); what the law says of a list of another length is the model's choice, log
entry 22. -/
def Obligations.HostRoundTripOnCoveredBits : Prop :=
  (∀ (F : Type) (num : Num F) (payload : List Byte) (md : MessageDescriptor F) (s : State),
    (md.signals.map (·.name)).Nodup →
    (∀ sd ∈ md.signals, sd.valid Config.beStartNumbering = true) →
    rangesDisjoint Config.beStartNumbering md.signals →
    (∀ sd ∈ md.signals, inBounds num (signalValue num Config.beStartNumbering payload sd) sd) →
    (∀ sd ∈ md.signals, roundsTo num sd (signalValue num Config.beStartNumbering payload sd)
      (signalRaw Config.beStartNumbering payload sd)) →
    ∃ t d u, decodeSignals num payload md s = (t, .ok d) ∧
      encodeSignals num d.values md t =
        (u, .ok (unpack64le (pack64le payload &&& coverOf Config.beStartNumbering md.signals)))) ∧
  ∀ (mode : RoundMode) (s : State), ∃ t,
    encodeSignals (binary64 mode) [("a", 0x408F400000000000#64)]
      ⟨0#32, "m", 8, [⟨"a", 0#8, 16#8, .little, false, 0x3FB999999999999A#64, 0#64, none, none, ""⟩]⟩ s =
        (t, .ok [0x10#8, 0x27#8, 0#8, 0#8, 0#8, 0#8, 0#8, 0#8])

/-- What becomes of a received frame (44_host_level.md R214 to R216; 41_frame.md R137, R139). One that fails is
dropped with the block's status. For one that decodes the lookup key is `MID`, compared with the catalog's ids
as a number: an id that is not there, and a message with a descriptor that is not valid, give a record with the
device address and the payload; else the signals are decoded from the payload that is in the block. -/
def Obligations.FailedFramesAreDroppedUnknownIdsAreNot : Prop :=
  ∀ (F : Type) (num : Num F) (catalog : List (MessageDescriptor F)) (raw : List Byte) (s : State),
    (∀ e, decodeFrame raw = .error e →
      (handleFrame num catalog raw s).2 = .ok (.dropped e.status)) ∧
    ∀ f, decodeFrame raw = .ok f →
      ((∀ md ∈ catalog, md.id.toNat ≠ f.header.messageId.toNat) →
        (handleFrame num catalog raw s).2 =
          .ok (.unparsed (f.header.deviceAddress.setWidth 64) f.payload .unknownId)) ∧
      ∀ md ∈ catalog, md.id.toNat = f.header.messageId.toNat →
        (∀ other ∈ catalog, other.id.toNat = f.header.messageId.toNat → other = md) →
        ((md.signals.map (·.name)).Nodup →
          (∀ sd ∈ md.signals, sd.valid Config.beStartNumbering = true) →
          ∃ d, (handleFrame num catalog raw s).2 =
              .ok (.parsed (f.header.deviceAddress.setWidth 64) (f.header.messageId.setWidth 64) d) ∧
            Decoded.of num Config.beStartNumbering f.payload md d) ∧
        ∀ (pre post : List (SignalDescriptor F)) (sd : SignalDescriptor F),
          md.signals = pre ++ sd :: post →
          (∀ p ∈ pre, p.valid Config.beStartNumbering = true) →
          sd.valid Config.beStartNumbering = false →
          (handleFrame num catalog raw s).2 =
            .ok (.unparsed (f.header.deviceAddress.setWidth 64) f.payload (.malformed sd.name .eDesc))
end

