-- ==== Sys2Proof/Laws/Codec.lean ====
section
/-! SUPPORT. Where the bits of a signal are, and what reading and writing them does, bit by bit: the lemmas
that proofs about EXTRACT and INSERT cite instead of unfolding the walks. -/

namespace Sys2Proof.Machine

/-! ## Single bits -/

theorem getLsbD_setBit (x : Word) (i j : Nat) (b : Bool) (h : i < 64) :
    (setBit x i b).getLsbD j = if j = i then b else x.getLsbD j := by
  unfold setBit
  split <;> simp [BitVec.getLsbD_shiftLeft] <;> grind

theorem getLsbD_lowMask (l j : Nat) (h : l ≤ 64) : (lowMask l).getLsbD j = decide (j < l) := by
  unfold lowMask
  rw [BitVec.getLsbD_ofNat, Nat.testBit_two_pow_sub_one]
  by_cases hj : j < l
  · simp [hj]; omega
  · simp [hj]

/-! ## `flat` -/

theorem flat_lt (p : Nat) (h : p < 64) : flat p < 64 := by unfold flat; omega

theorem flat_flat (p : Nat) : flat (flat p) = p := by unfold flat; omega

theorem flat_inj {p q : Nat} (h : flat p = flat q) : p = q := by
  rw [← flat_flat p, h, flat_flat]

/-! ## `loc` for a valid descriptor -/

/-- What `valid(DESC)` says, field by field. -/
theorem validDesc_iff (n : BeStartNumbering) (d : Desc) :
    validDesc n d = true ↔ 1 ≤ d.len ∧ d.len ≤ 64 ∧
      (d.order = .little → d.start + d.len ≤ 64) ∧
      (d.order = .big → bigStart n d + d.len ≤ 64 ∧ (n = .lsb0 → d.start ≤ 63)) := by
  unfold validDesc bigStart
  cases d.order <;> cases n <;>
    simp only [Config.bitlenMin, Config.bitlenMax, Config.payloadBits, Bool.and_eq_true,
      decide_eq_true_eq] <;> grind

theorem validDesc_len (n : BeStartNumbering) (d : Desc) (h : validDesc n d = true) :
    1 ≤ d.len ∧ d.len ≤ 64 := ⟨((validDesc_iff n d).1 h).1, ((validDesc_iff n d).1 h).2.1⟩

/-- Every bit of a valid signal is a payload bit. -/
theorem loc_lt (n : BeStartNumbering) (d : Desc) (k : Nat) (h : validDesc n d = true)
    (hk : k < d.len) : loc n d k < 64 := by
  obtain ⟨_, _, hl, hb⟩ := (validDesc_iff n d).1 h
  unfold loc
  cases ho : d.order with
  | little => have := hl ho; simp only; omega
  | big => have := (hb ho).1; exact flat_lt _ (by omega)

/-- Two bits of a valid signal are two payload bits. -/
theorem loc_inj (n : BeStartNumbering) (d : Desc) (j k : Nat)
    (hj : j < d.len) (hk : k < d.len) (he : loc n d j = loc n d k) : j = k := by
  unfold loc at he
  cases ho : d.order with
  | little => rw [ho] at he; simp only at he; omega
  | big => rw [ho] at he; have := flat_inj he; omega

/-! ## The three loops -/

theorem getLsbD_gatherBits (P : Word) (pos : Nat → Nat) (c j : Nat) (hc : c ≤ 64) :
    (gatherBits P pos c).getLsbD j = (decide (j < c) && P.getLsbD (pos j)) := by
  induction c with
  | zero => simp [gatherBits]
  | succ c ih =>
    rw [gatherBits, getLsbD_setBit _ _ _ _ (by omega), ih (by omega)]
    grind

theorem getLsbD_scatterBits (P : Word) (pos : Nat → Nat) (v : Word) (c j : Nat)
    (hlt : ∀ k < c, pos k < 64) (hinj : ∀ i < c, ∀ k < c, pos i = pos k → i = k) :
    (∀ k < c, (scatterBits P pos v c).getLsbD (pos k) = v.getLsbD k) ∧
      ((∀ k < c, j ≠ pos k) → (scatterBits P pos v c).getLsbD j = P.getLsbD j) := by
  induction c with
  | zero => simp [scatterBits]
  | succ c ih =>
    have ih := ih (fun k hk => hlt k (by omega)) (fun i hi k hk => hinj i (by omega) k (by omega))
    refine ⟨fun k hk => ?_, fun hj => ?_⟩
    · rw [scatterBits, getLsbD_setBit _ _ _ _ (hlt c (by omega))]
      by_cases hkc : k = c
      · simp [hkc]
      · rw [if_neg (fun he => hkc (hinj k hk c (by omega) he)), ih.1 k (by omega)]
    · rw [scatterBits, getLsbD_setBit _ _ _ _ (hlt c (by omega)), if_neg (hj c (by omega)),
        ih.2 (fun k hk => hj k (by omega))]

theorem getLsbD_bitsAt (pos : Nat → Nat) (c j : Nat) (hlt : ∀ k < c, pos k < 64) :
    (bitsAt pos c).getLsbD j = true ↔ ∃ k < c, pos k = j := by
  induction c with
  | zero => simp [bitsAt]
  | succ c ih =>
    rw [bitsAt, getLsbD_setBit _ _ _ _ (hlt c (by omega))]
    have ih := ih (fun k hk => hlt k (by omega))
    by_cases h : j = pos c
    · simp only [h, if_true, true_iff]; exact ⟨c, by omega, rfl⟩
    · rw [if_neg h, ih]
      constructor
      · rintro ⟨k, hk, he⟩; exact ⟨k, by omega, he⟩
      · rintro ⟨k, hk, he⟩
        refine ⟨k, ?_, he⟩
        rcases Nat.lt_succ_iff_lt_or_eq.1 hk with h' | h'
        · exact h'
        · subst h'; exact absurd he.symm h

/-! ## A signal's bits -/

/-- The range mask has exactly the bits `loc(k)`. -/
theorem getLsbD_rangeMask (n : BeStartNumbering) (d : Desc) (j : Nat) (h : validDesc n d = true) :
    (rangeMask n d).getLsbD j = true ↔ ∃ k < d.len, loc n d k = j :=
  getLsbD_bitsAt _ _ _ (fun k hk => loc_lt n d k h hk)

/-- After `insert_raw`, the signal's bits are the value's low LEN bits. -/
theorem getLsbD_insertRaw_loc (n : BeStartNumbering) (P : Word) (d : Desc) (v : Word) (k : Nat)
    (h : validDesc n d = true) (hk : k < d.len) :
    (insertRaw n P d v).getLsbD (loc n d k) = v.getLsbD k :=
  (getLsbD_scatterBits P (loc n d) v d.len 0 (fun k hk => loc_lt n d k h hk)
    (fun i hi k hk => loc_inj n d i k hi hk)).1 k hk

/-- After `insert_raw`, a payload bit outside the signal's range is as before. -/
theorem getLsbD_insertRaw_other (n : BeStartNumbering) (P : Word) (d : Desc) (v : Word) (j : Nat)
    (h : validDesc n d = true) (hj : (rangeMask n d).getLsbD j = false) :
    (insertRaw n P d v).getLsbD j = P.getLsbD j := by
  refine (getLsbD_scatterBits P (loc n d) v d.len j (fun k hk => loc_lt n d k h hk)
    (fun i hi k hk => loc_inj n d i k hi hk)).2 (fun k hk he => ?_)
  rw [(getLsbD_rangeMask n d j h).2 ⟨k, hk, he.symm⟩] at hj
  exact Bool.noConfusion hj

/-- The extracted value, bit by bit: the signal's bits below LEN, above them the sign or zero. -/
theorem getLsbD_extractRaw (n : BeStartNumbering) (P : Word) (d : Desc) (j : Nat)
    (h : validDesc n d = true) (hj : j < 64) :
    (extractRaw n P d).getLsbD j =
      if j < d.len then P.getLsbD (loc n d j)
      else d.signed && P.getLsbD (loc n d (d.len - 1)) := by
  obtain ⟨h1, h64⟩ := validDesc_len n d h
  unfold extractRaw signExtend
  have hg := fun i => getLsbD_gatherBits P (loc n d) d.len i h64
  have hm := fun i => getLsbD_lowMask d.len i h64
  cases hs : d.signed with
  | false => simp only [hg, Bool.false_eq_true, if_false]; grind
  | true =>
    simp only [if_true, hg, Bool.true_and]
    have : d.len - 1 < d.len := by omega
    cases hp : P.getLsbD (loc n d (d.len - 1)) <;> simp [this, hg, hm]; grind

end Sys2Proof.Machine
end

