-- ==== Sys2Proof/Laws/Crc.lean ====
section
/-! SUPPORT. Small laws of the CRC step: what one bit step does to each bit, and how a checksum is built
up byte by byte. -/

namespace Sys2Proof.Machine

@[simp] theorem bitsteps_zero (r : Word16) : bitsteps 0 r = r := rfl

theorem bitsteps_succ (n : Nat) (r : Word16) : bitsteps (n + 1) r = bitsteps n (bitstep r) := rfl

/-- `bitstep` is linear over XOR. -/
theorem bitstep_xor (r q : Word16) : bitstep (r ^^^ q) = bitstep r ^^^ bitstep q := by
  unfold bitstep
  simp only [BitVec.getLsbD_xor, BitVec.ushiftRight_xor_distrib]
  refine BitVec.eq_of_getLsbD_eq fun i _ => ?_
  cases r.getLsbD 0 <;> cases q.getLsbD 0 <;>
    simp [BitVec.getLsbD_xor, Bool.xor_comm, Bool.xor_left_comm]

@[simp] theorem crcFrom_nil (r : Word16) : crcFrom r [] = r := rfl

@[simp] theorem crcFrom_cons (r : Word16) (b : Byte) (bs : List Byte) :
    crcFrom r (b :: bs) = crcFrom (crcUpdate r b) bs := rfl

theorem crcFrom_append (r : Word16) (m n : List Byte) :
    crcFrom r (m ++ n) = crcFrom (crcFrom r m) n := List.foldl_append ..

theorem checksum_eq (bytes : List Byte) : checksum bytes = crcFrom 0#16 bytes := rfl

end Sys2Proof.Machine
end

