-- ==== Sys2Proof/Laws/Decode.lean ====
section
/-! SUPPORT. The small laws of the encoding: each field of a word is what was put there. -/

namespace Sys2Proof

@[simp] theorem opOf_cmdWord (op : Byte) (arg : Word) : opOf (cmdWord op arg) = op := by
  refine BitVec.eq_of_getLsbD_eq fun i hi => ?_
  simp [opOf, cmdWord, hi]
  grind

@[simp] theorem argOf_cmdWord (op : Byte) (arg : Word) : argOf (cmdWord op arg) = arg := by
  refine BitVec.eq_of_getLsbD_eq fun i hi => ?_
  simp [argOf, cmdWord, hi]
  grind

theorem cmdWord_opOf_argOf (w : CmdWord) : cmdWord (opOf w) (argOf w) = w := by
  refine BitVec.eq_of_getLsbD_eq fun i hi => ?_
  by_cases h : i < 64
  · simp [opOf, argOf, cmdWord, h, hi]
  · simp [opOf, argOf, cmdWord, h, hi, show i - 64 < 8 by omega, show 64 + (i - 64) = i by omega]

@[simp] theorem opOf_encode (i : Instr) : opOf (encode i) = i.opcode := opOf_cmdWord _ _

@[simp] theorem argOf_encode (i : Instr) : argOf (encode i) = i.arg := argOf_cmdWord _ _

/-- The bits of the packed descriptor. -/
theorem getLsbD_descBits (start len : Byte) (order : ByteOrder) (signed : Bool) (i : Nat) :
    (descBits start len order signed).getLsbD i =
      if i < 8 then start.getLsbD i
      else if i < 16 then len.getLsbD (i - 8)
      else if i = 16 then order.toBit
      else decide (i = 17) && signed := by
  have hs : 8 ≤ i → start.getLsbD i = false := BitVec.getLsbD_of_ge _ _
  have hl : 16 ≤ i → len.getLsbD (i - 8) = false := fun h => BitVec.getLsbD_of_ge _ _ (by omega)
  simp only [descBits, BitVec.getLsbD_or, BitVec.getLsbD_setWidth, BitVec.getLsbD_shiftLeft,
    BitVec.getLsbD_ofBool]
  grind

@[simp] theorem ofBit_toBit (o : ByteOrder) : ByteOrder.ofBit o.toBit = o := by cases o <;> rfl

@[simp] theorem toBit_ofBit (b : Bool) : (ByteOrder.ofBit b).toBit = b := by cases b <;> rfl

@[simp] theorem descBits_start (start len : Byte) (order : ByteOrder) (signed : Bool) :
    (descBits start len order signed).start = start.toNat := by
  unfold Desc.start
  congr 1
  refine BitVec.eq_of_getLsbD_eq fun i hi => ?_
  rw [BitVec.getLsbD_extractLsb', getLsbD_descBits]
  grind

@[simp] theorem descBits_len (start len : Byte) (order : ByteOrder) (signed : Bool) :
    (descBits start len order signed).len = len.toNat := by
  unfold Desc.len
  congr 1
  refine BitVec.eq_of_getLsbD_eq fun i hi => ?_
  rw [BitVec.getLsbD_extractLsb', getLsbD_descBits]
  grind

@[simp] theorem descBits_order (start len : Byte) (order : ByteOrder) (signed : Bool) :
    (descBits start len order signed).order = order := by
  rw [Desc.order, getLsbD_descBits]
  simp

@[simp] theorem descBits_signed (start len : Byte) (order : ByteOrder) (signed : Bool) :
    (descBits start len order signed).signed = signed := by
  rw [Desc.signed, getLsbD_descBits]
  simp

/-- Packing the four fields of 18 bits gives the 18 bits back. -/
theorem descBits_fields (x : Word) :
    descBits (x.extractLsb' 0 8) (x.extractLsb' 8 8) (.ofBit (x.getLsbD 16)) (x.getLsbD 17) =
      x.extractLsb' 0 18 := by
  refine BitVec.eq_of_getLsbD_eq fun i hi => ?_
  rw [getLsbD_descBits]
  simp only [BitVec.getLsbD_extractLsb', toBit_ofBit]
  grind

end Sys2Proof
end

