-- ==== Sys2Proof/Laws/State.lean ====
section
/-! SUPPORT. One lemma per field per update of the state, so that no proof unfolds a record update. -/

namespace Sys2Proof.Machine

/-! ## `dropFrame`: only FVALID -/

@[simp] theorem dropFrame_crc (r : Regs) : (dropFrame r).crc = r.crc := rfl
@[simp] theorem dropFrame_fbuf (r : Regs) : (dropFrame r).fbuf = r.fbuf := rfl
@[simp] theorem dropFrame_flen (r : Regs) : (dropFrame r).flen = r.flen := rfl
@[simp] theorem dropFrame_fvalid (r : Regs) : (dropFrame r).fvalid = false := rfl
@[simp] theorem dropFrame_hdr (r : Regs) : (dropFrame r).hdr = r.hdr := rfl
@[simp] theorem dropFrame_chk (r : Regs) : (dropFrame r).chk = r.chk := rfl
@[simp] theorem dropFrame_pbuf (r : Regs) : (dropFrame r).pbuf = r.pbuf := rfl
@[simp] theorem dropFrame_cover (r : Regs) : (dropFrame r).cover = r.cover := rfl
@[simp] theorem dropFrame_encerr (r : Regs) : (dropFrame r).encerr = r.encerr := rfl
@[simp] theorem dropFrame_desc (r : Regs) : (dropFrame r).desc = r.desc := rfl

/-! ## `rejectEncode`: only ENCERR -/

@[simp] theorem rejectEncode_crc (r : Regs) : (rejectEncode r).crc = r.crc := rfl
@[simp] theorem rejectEncode_fbuf (r : Regs) : (rejectEncode r).fbuf = r.fbuf := rfl
@[simp] theorem rejectEncode_flen (r : Regs) : (rejectEncode r).flen = r.flen := rfl
@[simp] theorem rejectEncode_fvalid (r : Regs) : (rejectEncode r).fvalid = r.fvalid := rfl
@[simp] theorem rejectEncode_hdr (r : Regs) : (rejectEncode r).hdr = r.hdr := rfl
@[simp] theorem rejectEncode_chk (r : Regs) : (rejectEncode r).chk = r.chk := rfl
@[simp] theorem rejectEncode_pbuf (r : Regs) : (rejectEncode r).pbuf = r.pbuf := rfl
@[simp] theorem rejectEncode_cover (r : Regs) : (rejectEncode r).cover = r.cover := rfl
@[simp] theorem rejectEncode_encerr (r : Regs) : (rejectEncode r).encerr = true := rfl
@[simp] theorem rejectEncode_desc (r : Regs) : (rejectEncode r).desc = r.desc := rfl

/-! ## The reset state -/

@[simp] theorem Regs.reset_crc : Regs.reset.crc = 0#16 := rfl
@[simp] theorem Regs.reset_fbuf : Regs.reset.fbuf = [] := rfl
@[simp] theorem Regs.reset_flen : Regs.reset.flen = 0#4 := rfl
@[simp] theorem Regs.reset_fvalid : Regs.reset.fvalid = false := rfl
@[simp] theorem Regs.reset_hdr : Regs.reset.hdr = 0#16 := rfl
@[simp] theorem Regs.reset_chk : Regs.reset.chk = 0#16 := rfl
@[simp] theorem Regs.reset_pbuf : Regs.reset.pbuf = 0#64 := rfl
@[simp] theorem Regs.reset_cover : Regs.reset.cover = 0#64 := rfl
@[simp] theorem Regs.reset_encerr : Regs.reset.encerr = false := rfl
@[simp] theorem Regs.reset_desc : Regs.reset.desc = 0#18 := rfl
@[simp] theorem State.reset_regs : State.reset.regs = Regs.reset := rfl
@[simp] theorem State.reset_inputs : State.reset.inputs = [] := rfl
@[simp] theorem State.reset_responses : State.reset.responses = [] := rfl

/-! ## Presenting a word -/

@[simp] theorem presentNext_regs (w : CmdWord) (s : State) : (presentNext w s).regs = s.regs := rfl
@[simp] theorem presentNext_inputs (w : CmdWord) (s : State) :
    (presentNext w s).inputs = .command w :: s.inputs := rfl
@[simp] theorem presentNext_responses (w : CmdWord) (s : State) :
    (presentNext w s).responses = s.responses := rfl
@[simp] theorem withFetchWord_eq (s : State) (nbits w : Nat) :
    s.withFetchWord nbits w = presentNext (tableWord nbits w) s := rfl

end Sys2Proof.Machine
end

