-- ==== Sys2Proof/Laws/Ops.lean ====
section
/-! SUPPORT. What each shared operation can do, said once: the effect of each command, ending a command,
refusing a word, and what a step does. -/

namespace Sys2Proof.Machine

/-! ## The terms of the statements -/

@[simp] theorem after_regs (s : State) (r : Regs) (q : Response) : (s.after r q).regs = r := rfl
@[simp] theorem after_inputs (s : State) (r : Regs) (q : Response) : (s.after r q).inputs = s.inputs := rfl
@[simp] theorem after_responses (s : State) (r : Regs) (q : Response) :
    (s.after r q).responses = s.responses ++ [q] := rfl

@[simp] theorem accept_regs (r : Regs) (d : Word) : (accept r d).regs = r := rfl
@[simp] theorem accept_response (r : Regs) (d : Word) : (accept r d).response = ⟨.ok, d⟩ := rfl
@[simp] theorem raise_regs (st : Status) (r : Regs) : (raise st r).regs = r := rfl
@[simp] theorem raise_response (st : Status) (r : Regs) : (raise st r).response = ⟨st, 0#64⟩ := rfl

/-- Two commands' ends are the same only with the same registers and response. -/
theorem after_inj {s : State} {r r' : Regs} {q q' : Response} (h : s.after r q = s.after r' q') :
    r = r' ∧ q = q' := by
  have h1 := congrArg State.regs h
  have h2 := congrArg State.responses h
  simp only [after_responses, List.append_cancel_left_eq, List.cons.injEq, and_true] at h2
  exact ⟨h1, h2⟩

/-- The last response after a command is that command's. -/
theorem getLast_after (s : State) (r : Regs) (q : Response) :
    (s.after r q).responses.getLast? = some q := by simp

/-! ## The effect of each command -/

/-- What a command does to the registers, and its response. -/
def effectOf : Instr → Regs → Effect
  | .reset => resetEffect
  | .crcInit => crcInitEffect
  | .crcByte b => crcByteEffect b
  | .crcVerify e => crcVerifyEffect e
  | .frmReset => frmResetEffect
  | .frmPush b => frmPushEffect b
  | .frmDecode => frmDecodeEffect
  | .setdesc start len order signed => setdescEffect start len order signed
  | .extract => extractEffect Config.beStartNumbering
  | .encBegin => encBeginEffect
  | .insert v => insertEffect Config.beStartNumbering v
  | .pload v => ploadEffect v
  | .rd n => rdEffect n

theorem perform_after (e : Regs → Effect) (s : State) :
    perform e s = .next (s.after (e s.regs).regs (e s.regs).response) := rfl

/-- Every command answers with exactly one response, that of its effect, and waits for nothing. -/
theorem exec_after (i : Instr) (s : State) :
    exec i s = .next (s.after (effectOf i s.regs).regs (effectOf i s.regs).response) := by
  cases i <;> rfl

theorem rejectWord_after (e : DecodeError) (s : State) :
    rejectWord e s = .next (s.refused (DecodeError.status e)) := rfl

/-- What a command answers, and nothing else. -/
theorem exec_next {i : Instr} {s t : State} (h : exec i s = .next t) :
    t = s.after (effectOf i s.regs).regs (effectOf i s.regs).response := by
  rw [exec_after] at h
  exact (Host.Outcome.next.inj h).symm

/-- Every status but OK comes with data 0 (30_encoding.md R81). -/
def Response.dataRule (q : Response) : Prop := q.status ≠ .ok → q.data = 0#64

@[simp] theorem dataRule_ok (d : Word) : (⟨.ok, d⟩ : Response).dataRule := fun h => absurd rfl h

@[simp] theorem dataRule_zero (st : Status) : (⟨st, 0#64⟩ : Response).dataRule := fun _ => rfl

/-! ## The counter of the frame buffer -/

/-- `FLEN` saturates at 13 and does not wrap. -/
theorem nextFlen_toNat (l : BitVec 4) : (nextFlen l).toNat = min (l.toNat + 1) 13 := by
  simp only [nextFlen, Config.frameBytes, BitVec.toNat_ofNat]
  omega

/-! ## The cases of the commands that can be refused -/

theorem frmDecodeEffect_cases (r : Regs) :
    (r.flen.toNat ≠ 12 ∧ frmDecodeEffect r = raise .eLength (dropFrame r)) ∨
    (r.flen.toNat = 12 ∧ checksum (frameCovered r.fbuf) ≠ frameChecksum r.fbuf ∧
      frmDecodeEffect r = raise .eCrc (dropFrame r)) ∨
    (r.flen.toNat = 12 ∧ checksum (frameCovered r.fbuf) = frameChecksum r.fbuf ∧
      frmDecodeEffect r = accept
        { r with
          hdr := frameHeader r.fbuf
          chk := frameChecksum r.fbuf
          pbuf := framePayload r.fbuf
          cover := BitVec.allOnes 64
          encerr := false
          fvalid := true } 0#64) := by
  unfold frmDecodeEffect frameComplete
  by_cases h1 : r.flen.toNat = 12 <;> by_cases h2 : checksum (frameCovered r.fbuf) = frameChecksum r.fbuf <;>
    simp [h1, h2]

theorem extractEffect_cases (n : BeStartNumbering) (r : Regs) :
    (r.encerr = true ∧ extractEffect n r = raise .eEncode r) ∨
    (r.encerr = false ∧ validDesc n r.desc = false ∧ extractEffect n r = raise .eDesc r) ∨
    (r.encerr = false ∧ validDesc n r.desc = true ∧
      extractEffect n r = accept r (extractRaw n r.pbuf r.desc)) := by
  unfold extractEffect
  cases r.encerr <;> cases validDesc n r.desc <;> simp

theorem insertEffect_cases (n : BeStartNumbering) (v : Word) (r : Regs) :
    (r.encerr = true ∧ insertEffect n v r = raise .eEncode r) ∨
    (r.encerr = false ∧ validDesc n r.desc = false ∧ insertEffect n v r = raise .eDesc (rejectEncode r)) ∨
    (r.encerr = false ∧ validDesc n r.desc = true ∧ fits v r.desc = false ∧
      insertEffect n v r = raise .eFit (rejectEncode r)) ∨
    (r.encerr = false ∧ validDesc n r.desc = true ∧ fits v r.desc = true ∧
      r.cover &&& rangeMask n r.desc ≠ 0#64 ∧ insertEffect n v r = raise .eOverlap (rejectEncode r)) ∨
    (r.encerr = false ∧ validDesc n r.desc = true ∧ fits v r.desc = true ∧
      r.cover &&& rangeMask n r.desc = 0#64 ∧
      insertEffect n v r = accept
        { r with
          pbuf := insertRaw n r.pbuf r.desc v
          cover := r.cover ||| rangeMask n r.desc } 0#64) := by
  unfold insertEffect overlaps
  by_cases h : r.cover &&& rangeMask n r.desc = 0#64 <;>
    cases r.encerr <;> cases validDesc n r.desc <;> cases fits v r.desc <;> simp [h]

/-- A read changes no register, and is refused by its gate or gives its register. -/
theorem rdEffect_cases (n : Byte) (r : Regs) :
    (∃ d, rdEffect n r = accept r d) ∨
    (3 ≤ n.toNat ∧ n.toNat ≤ 8 ∧ r.fvalid = false ∧ rdEffect n r = raise .eNoFrame r) ∨
    (n.toNat = 9 ∧ r.encerr = true ∧ rdEffect n r = raise .eEncode r) ∨
    (11 < n.toNat ∧ rdEffect n r = raise .eArg r) := by
  unfold rdEffect readFrame
  generalize n.toNat = k
  iterate 12
    rcases k with _ | k
    · cases r.fvalid <;> cases r.encerr <;> simp
  exact .inr (.inr (.inr ⟨by omega, rfl⟩))

theorem rdEffect_regs (n : Byte) (r : Regs) : (rdEffect n r).regs = r := by
  rcases rdEffect_cases n r with ⟨d, h⟩ | ⟨_, _, _, h⟩ | ⟨_, _, h⟩ | ⟨_, h⟩ <;> rw [h] <;> rfl

/-! ## What a step does -/

/-- The cases of a step, with everything each can do. -/
theorem step_cases (s : State) :
    (s.inputs = [] ∧ step s = .next s) ∨
    (∃ rest, s.inputs = .hardReset :: rest ∧
      step s = .next { s with regs := Regs.reset, inputs := rest }) ∨
    (∃ w rest i, s.inputs = .command w :: rest ∧ decode w = .ok i ∧
      step s = exec i { s with inputs := rest }) ∨
    (∃ w rest e, s.inputs = .command w :: rest ∧ decode w = .error e ∧
      step s = .next (({ s with inputs := rest } : State).refused (DecodeError.status e))) := by
  unfold step fetch
  cases hin : s.inputs with
  | nil => exact .inl ⟨rfl, rfl⟩
  | cons x rest =>
    cases x with
    | hardReset => exact .inr (.inl ⟨rest, rfl, rfl⟩)
    | command w =>
      cases hd : decode w with
      | ok i => exact .inr (.inr (.inl ⟨w, rest, i, rfl, hd, by simp only [hd]⟩))
      | error e => exact .inr (.inr (.inr ⟨w, rest, e, rfl, hd, by simp only [hd, rejectWord_after]⟩))

end Sys2Proof.Machine
end

