-- ==== Sys2Proof/Laws/Run.lean ====
section
/-! SUPPORT. What presenting one word does, in the terms of the statements. -/

namespace Sys2Proof.Machine

/-- A presented word is decoded, and executed or refused. -/
theorem issue_eq (w : CmdWord) (s : State) :
    issue w s = match decode w with
      | .ok i => exec i s
      | .error e => rejectWord e s := rfl

theorem issue_of_decode {w : CmdWord} {i : Instr} (h : decode w = .ok i) (s : State) :
    issue w s = exec i s := by rw [issue_eq, h]

theorem issue_of_error {w : CmdWord} {e : DecodeError} (h : decode w = .error e) (s : State) :
    issue w s = .next (s.refused (DecodeError.status e)) := by
  simp only [issue_eq, h, rejectWord_after]

end Sys2Proof.Machine
end

