-- ==== Sys2Proof/Laws/HostStage.lean ====
section
/-! SUPPORT. The host-side functions in the terms of the statements, and what asking the block a command
gives: the lemmas that proofs about the host-side stage cite instead of unfolding it. -/

namespace Sys2Proof.Machine

/-! ## Asking the block -/

/-- A command whose word decodes to it is answered with its effect. -/
theorem ask_of_decode {i : Instr} (h : decode (encode i) = .ok i) (s : State) :
    ask i s = some (s.after (effectOf i s.regs).regs (effectOf i s.regs).response,
      (effectOf i s.regs).response) := by
  unfold ask
  rw [issue_of_decode h, exec_after]
  simp only [getLast_after, Option.map_some]

@[simp] theorem askAll_nil (s : State) : askAll [] s = some (s, []) := rfl

/-- The first command is asked, then the rest of them in the state it leaves. -/
theorem askAll_cons {i : Instr} (h : decode (encode i) = .ok i) (is : List Instr) (s : State) :
    askAll (i :: is) s =
      (askAll is (s.after (effectOf i s.regs).regs (effectOf i s.regs).response)).map
        (fun x => (x.1, (effectOf i s.regs).response :: x.2)) := by
  rw [askAll, ask_of_decode h]
  simp only
  cases askAll is (s.after (effectOf i s.regs).regs (effectOf i s.regs).response) <;> rfl

/-! ## Physical values -/

section
variable {F : Type} (num : Num F) (sd : SignalDescriptor F)

theorem physical_extracted (n : BeStartNumbering) (payload : List Byte) :
    physical num sd (extractRaw n (pack64le payload) sd.desc) = signalValue num n payload sd := rfl

theorem inBounds_iff (x : F) : inBounds num x sd ↔ outOfRange num x sd = false := by
  unfold inBounds outOfRange
  cases sd.minimum <;> cases sd.maximum <;> simp

/-- A NaN is never out of bounds. -/
theorem inBounds_nan (x : F) (h : num.isNan x = true) : inBounds num x sd :=
  ⟨fun _ _ => num.flt_nan _ _ (.inl h), fun _ _ => num.flt_nan _ _ (.inr h)⟩

theorem roundsTo_iff (value : F) (raw : Int) :
    roundsTo num sd value raw ↔ encodeRaw num sd value = some raw := by
  unfold roundsTo encodeRaw quotient
  split
  · rename_i h
    exact ⟨fun ⟨_, e⟩ => congrArg some e, fun e => ⟨h, Option.some.inj e⟩⟩
  · rename_i h
    exact ⟨fun ⟨h', _⟩ => absurd h' h, fun e => nomatch e⟩

theorem rawFits_iff (raw : Int) : rawFits sd raw ↔ fitsInt sd raw = true := by
  unfold rawFits fitsInt
  cases sd.isSigned <;> simp

/-- A value that is not finite has no raw value (R209). -/
theorem encodeRaw_not_finite (value : F) (h : num.isFinite value = false) :
    encodeRaw num sd value = none := by
  unfold encodeRaw quotient
  rw [dif_neg]
  simp [num.quotient_not_finite _ _ _ h]

/-- With scale 0 there is no raw value (R209). -/
theorem encodeRaw_zero_scale (value : F) (h : num.isZero sd.scale = true) :
    encodeRaw num sd value = none := by
  simp only [Num.isZero, Bool.and_eq_true, Bool.not_eq_true'] at h
  unfold encodeRaw quotient
  rw [dif_neg]
  simp [num.fdiv_zero _ _ h.1.1 h.1.2 h.2]

end
end Sys2Proof.Machine
end

