-- ==== Sys2Proof/Laws/Memory.lean ====
section
/-! SUPPORT. The laws of the frame buffer's bytes: read after write, and the canonical form. -/

namespace Sys2Proof.Machine

@[simp] theorem Memory.read_nil (a : Nat) : Memory.read [] a = 0#8 := rfl

theorem Memory.read_cons (c : Host.Cell) (m : Memory) (a : Nat) :
    Memory.read (c :: m) a = if c.1 = a then c.2 else Memory.read m a := rfl

theorem Memory.read_erase (m : Memory) (a b : Nat) :
    (m.erase a).read b = if b = a then 0#8 else m.read b := by
  induction m with
  | nil => simp [Memory.erase]
  | cons c m ih =>
    simp only [Memory.erase, List.filter_cons] at ih ⊢
    by_cases h : c.1 = a
    · simp only [h, ne_eq, not_true_eq_false, decide_false, Bool.false_eq_true, if_false, ih,
        Memory.read_cons]
      grind
    · simp only [h, ne_eq, not_false_eq_true, decide_true, if_true, Memory.read_cons, ih]
      grind

theorem Memory.read_place_same (m : Memory) (a : Nat) (v : Byte) (h : ∀ c ∈ m, c.1 ≠ a) :
    (m.place a v).read a = v := by
  induction m with
  | nil => simp [Memory.place, Memory.read_cons]
  | cons c m ih =>
    simp only [Memory.place]
    split
    · simp [Memory.read_cons]
    · rw [Memory.read_cons, if_neg (h c (by simp)), ih (fun d hd => h d (by simp [hd]))]

theorem Memory.read_place_other (m : Memory) (a b : Nat) (v : Byte) (h : b ≠ a) :
    (m.place a v).read b = m.read b := by
  induction m with
  | nil => simp [Memory.place, Memory.read_cons, h.symm]
  | cons c m ih =>
    simp only [Memory.place]
    split
    · simp [Memory.read_cons, h.symm]
    · rw [Memory.read_cons, Memory.read_cons, ih]

theorem Memory.not_mem_erase (m : Memory) (a : Nat) : ∀ c ∈ m.erase a, c.1 ≠ a := by
  simp [Memory.erase]

/-- A read after a write: the written byte at its address, the old byte everywhere else. -/
theorem Memory.read_write (m : Memory) (a b : Nat) (v : Byte) :
    (m.write a v).read b = if b = a then v else m.read b := by
  unfold Memory.write
  split
  · rename_i h; rw [Memory.read_erase, h]
  · split
    · rename_i h; rw [h, Memory.read_place_same _ _ _ (Memory.not_mem_erase m a)]
    · rename_i h; rw [Memory.read_place_other _ _ _ _ h, Memory.read_erase, if_neg h]

@[simp] theorem Memory.read_write_same (m : Memory) (a : Nat) (v : Byte) :
    (m.write a v).read a = v := by simp [Memory.read_write]

theorem Memory.read_write_other (m : Memory) (a b : Nat) (v : Byte) (h : b ≠ a) :
    (m.write a v).read b = m.read b := by simp [Memory.read_write, h]

/-- The canonical form, as a proposition. -/
theorem Memory.wf_iff (m : Memory) :
    m.wf = true ↔ m.Pairwise (fun c d => c.1 < d.1) ∧ ∀ c ∈ m, c.1 < 12 ∧ c.2 ≠ 0#8 := by
  simp [Memory.wf, Config.frameBytes]

@[simp] theorem Memory.wf_nil : Memory.wf [] = true := by decide

theorem Memory.mem_place (m : Memory) (a : Nat) (v : Byte) (c : Host.Cell) :
    c ∈ m.place a v ↔ c = (a, v) ∨ c ∈ m := by
  induction m with
  | nil => simp [Memory.place]
  | cons d m ih =>
    simp only [Memory.place]
    split
    · simp
    · simp [ih]; tauto

theorem Memory.place_rising (m : Memory) (a : Nat) (v : Byte) (h : ∀ c ∈ m, c.1 ≠ a)
    (hm : m.Pairwise (fun c d => c.1 < d.1)) : (m.place a v).Pairwise (fun c d => c.1 < d.1) := by
  induction m with
  | nil => simp [Memory.place]
  | cons c m ih =>
    rw [List.pairwise_cons] at hm
    simp only [Memory.place]
    split
    · rename_i hlt
      rw [List.pairwise_cons, List.pairwise_cons]
      refine ⟨fun d hd => ?_, hm⟩
      rcases List.mem_cons.1 hd with rfl | hd
      · exact hlt
      · exact lt_trans hlt (hm.1 d hd)
    · rename_i hge
      have hc := h c (by simp)
      rw [List.pairwise_cons]
      refine ⟨fun d hd => ?_, ih (fun d hd => h d (by simp [hd])) hm.2⟩
      rcases (Memory.mem_place m a v d).1 hd with rfl | hd
      · exact lt_of_le_of_ne (Nat.le_of_not_lt hge) hc
      · exact hm.1 d hd

/-- A write at an address of the buffer keeps the canonical form. -/
theorem Memory.wf_write (m : Memory) (a : Nat) (v : Byte) (ha : a < 12) (h : m.wf = true) :
    (m.write a v).wf = true := by
  rw [Memory.wf_iff] at h ⊢
  have he : (m.erase a).Pairwise (fun c d => c.1 < d.1) := h.1.filter _
  have hm : ∀ c ∈ m.erase a, c ∈ m := fun c hc => (List.mem_filter.1 hc).1
  unfold Memory.write
  split
  · exact ⟨he, fun c hc => h.2 c (hm c hc)⟩
  · rename_i hv
    refine ⟨Memory.place_rising _ _ _ (Memory.not_mem_erase m a) he, fun c hc => ?_⟩
    rcases (Memory.mem_place _ _ _ _).1 hc with rfl | hc
    · exact ⟨ha, hv⟩
    · exact h.2 c (hm c hc)

@[simp] theorem Memory.bytes_length (m : Memory) (a n : Nat) : (m.bytes a n).length = n := by
  simp [Memory.bytes]

theorem Memory.getElem_bytes (m : Memory) (a n i : Nat) (h : i < (m.bytes a n).length) :
    (m.bytes a n)[i] = m.read (a + i) := by simp [Memory.bytes]

end Sys2Proof.Machine
end

