-- ==== Sys2Proof/Laws/PerInstr.lean ====
section
/-! SUPPORT. Statements made per instruction. LegalWord: the word that `encode` gives a command is legally
encoded, "(word AND mask) = match" of the command's row of spec/opcode_table.json: its opcode is the row's
and no reserved bit is set. -/

namespace Sys2Proof.Laws.LegalWord

open Sys2Proof

def Statement (i : Instr) : Prop := encode i &&& i.tableMask = i.tableMatch

/-- A field of `f` low bits sets no bit of a mask that starts at bit `f`. -/
theorem low_field {f : Nat} (op : Byte) (x : BitVec f) (mask : CmdWord) (hf : f ≤ 64)
    (hm : ∀ i : Fin 72, mask.getLsbD i = decide (f ≤ i.val)) :
    cmdWord op (x.setWidth 64) &&& mask = cmdWord op 0#64 := by
  unfold cmdWord
  refine BitVec.eq_of_getLsbD_eq fun i hi => ?_
  have hx : f ≤ i → x.getLsbD i = false := BitVec.getLsbD_of_ge x i
  simp [hm ⟨i, hi⟩]
  grind

theorem byte_field (op : Byte) (b : Byte) :
    cmdWord op (b.setWidth 64) &&& 0xFFFFFFFFFFFFFFFF00#72 = cmdWord op 0#64 :=
  low_field op b _ (by decide) (by decide)

/-- The whole argument is the field. -/
theorem word_field (op : Byte) (v : Word) :
    cmdWord op v &&& 0xFF0000000000000000#72 = cmdWord op 0#64 := by
  have := low_field op v 0xFF0000000000000000#72 (by decide) (by decide)
  rwa [BitVec.setWidth_eq] at this

theorem reset : Statement .reset := by unfold Statement; decide
theorem crcInit : Statement .crcInit := by unfold Statement; decide
theorem crcByte (b : Byte) : Statement (.crcByte b) := byte_field 0x11#8 b
theorem crcVerify (e : Word16) : Statement (.crcVerify e) :=
  low_field 0x12#8 e 0xFFFFFFFFFFFFFF0000#72 (by decide) (by decide)
theorem frmReset : Statement .frmReset := by unfold Statement; decide
theorem frmPush (b : Byte) : Statement (.frmPush b) := byte_field 0x21#8 b
theorem frmDecode : Statement .frmDecode := by unfold Statement; decide
theorem setdesc (start len : Byte) (order : ByteOrder) (signed : Bool) :
    Statement (.setdesc start len order signed) :=
  low_field 0x30#8 (descBits start len order signed) 0xFFFFFFFFFFFFFC0000#72 (by decide) (by decide)
theorem extract : Statement .extract := by unfold Statement; decide
theorem encBegin : Statement .encBegin := by unfold Statement; decide
theorem insert (v : Word) : Statement (.insert v) := word_field 0x33#8 v
theorem pload (v : Word) : Statement (.pload v) := word_field 0x34#8 v
theorem rd (r : Byte) : Statement (.rd r) := byte_field 0x40#8 r

end Sys2Proof.Laws.LegalWord
end

