-- ==== Sys2Proof/Tests/Slice0.lean ====
section
/-! SUPPORT. The model's own tests, and for each obligation with hypotheses a witness that meets them.
Expected values are the spec's: the encodings of spec/opcode_table.json, and the vectors V-… of
95_test_vectors.md, named at each test. -/

open Sys2Proof Sys2Proof.Machine

namespace Sys2Proof.Tests

/-! ## Helpers -/

/-- The registers `r` with one word presented. -/
def presented (r : Regs) (w : CmdWord) : State := ⟨r, [.command w], []⟩

/-- The state after one step; a step that stopped would leave the word presented. -/
def result (s : State) : State :=
  match step s with
  | .next t => t
  | .fault _ => s
  | .refused _ => s

/-- One step ended with these registers and this response, the word taken. -/
abbrev gives (r : Regs) (w : CmdWord) (r' : Regs) (q : Response) : Prop :=
  result (presented r w) = ⟨r', [], [q]⟩

/-- The frame of V-S8, `81 0C 01 02 03 04 05 06 07 08 F3 E9`. -/
def frame : List Byte :=
  [0x81#8, 0x0C#8, 1#8, 2#8, 3#8, 4#8, 5#8, 6#8, 7#8, 8#8, 0xF3#8, 0xE9#8]

/-- It pushed: `FBUF` holds it and `FLEN` is 12. -/
def pushed : Regs :=
  { Regs.reset with
    fbuf := [(0, 0x81#8), (1, 0x0C#8), (2, 1#8), (3, 2#8), (4, 3#8), (5, 4#8), (6, 5#8), (7, 6#8),
      (8, 7#8), (9, 8#8), (10, 0xF3#8), (11, 0xE9#8)]
    flen := 12#4 }

/-- It pushed with byte 10, bit 0 flipped (P3). -/
def damaged : Regs := { pushed with fbuf := pushed.fbuf.write 10 0xF2#8 }

/-- It decoded (P2). -/
def held : Regs :=
  { pushed with
    hdr := 0x0C81#16
    chk := 0xE9F3#16
    pbuf := 0x0807060504030201#64
    cover := 0xFFFFFFFFFFFFFFFF#64
    fvalid := true }

/-- A payload with a descriptor. -/
def loaded (p : Word) (d : Desc) : Regs := { Regs.reset with pbuf := p, desc := d }

/-! ## Well-formed terms -/

theorem test_wellformed_refuses_register_0x0C : Instr.wf (.rd 0x0C#8) = false := by decide
theorem test_wellformed_refuses_register_0xFF : Instr.wf (.rd 0xFF#8) = false := by decide
theorem test_wellformed_takes_register_0x0B : Instr.wf (.rd 0x0B#8) = true := by decide

/-! ## Decoding: one word of each row of spec/opcode_table.json, written out -/

theorem test_decode_reset : decode 0x010000000000000000#72 = .ok .reset := rfl
theorem test_decode_crcInit : decode 0x100000000000000000#72 = .ok .crcInit := rfl
theorem test_decode_crcByte : decode 0x110000000000000031#72 = .ok (.crcByte 0x31#8) := rfl
theorem test_decode_crcVerify : decode 0x12000000000000BB3D#72 = .ok (.crcVerify 0xBB3D#16) := rfl
theorem test_decode_frmReset : decode 0x200000000000000000#72 = .ok .frmReset := rfl
theorem test_decode_frmPush : decode 0x2100000000000000E9#72 = .ok (.frmPush 0xE9#8) := rfl
theorem test_decode_frmDecode : decode 0x220000000000000000#72 = .ok .frmDecode := rfl
/-- START 4, LEN 12, ORDER 1, SIGNED 1. -/
theorem test_decode_setdesc :
    decode 0x300000000000030C04#72 = .ok (.setdesc 4#8 12#8 .big true) := rfl
/-- START 16, LEN 12, ORDER 0, SIGNED 1 (P4). -/
theorem test_decode_setdesc_little :
    decode 0x300000000000020C10#72 = .ok (.setdesc 16#8 12#8 .little true) := rfl
theorem test_decode_extract : decode 0x310000000000000000#72 = .ok .extract := rfl
theorem test_decode_encBegin : decode 0x320000000000000000#72 = .ok .encBegin := rfl
theorem test_decode_insert :
    decode 0x33FFFFFFFFFFFFFCFE#72 = .ok (.insert 0xFFFFFFFFFFFFFCFE#64) := rfl
theorem test_decode_pload :
    decode 0x340807060504030201#72 = .ok (.pload 0x0807060504030201#64) := rfl
theorem test_decode_rd : decode 0x40000000000000000B#72 = .ok (.rd 0x0B#8) := rfl

/-- V-E1 to V-E3: opcodes of no row. -/
theorem test_decode_illegal :
    decode 0x000000000000000000#72 = .error .illegalOpcode ∧
      decode 0x130000000000000000#72 = .error .illegalOpcode ∧
      decode 0x410000000000000000#72 = .error .illegalOpcode := ⟨rfl, rfl, rfl⟩

/-- P6: reserved bits, and a register number of no register. -/
theorem test_decode_refused :
    decode 0x228000000000000000#72 = .error .reservedBits ∧
      decode 0x300000000000040000#72 = .error .reservedBits ∧
      decode 0x400000000000000100#72 = .error .reservedBits ∧
      decode 0x40000000000000000C#72 = .error .badRegister := ⟨rfl, rfl, rfl, rfl⟩

/-- The host's reading of a row's word. -/
theorem test_decodeTableWord :
    decodeTableWord 72 0x120000000000001234 = some (.crcVerify 0x1234#16) ∧
      decodeTableWord 72 0 = none := by decide

/-- 30_encoding.md R91: the words of the two lines. -/
theorem test_assemble_insert :
    assembleLine "INSERT -770" = some (some 0x33FFFFFFFFFFFFFCFE#72) := by decide
theorem test_assemble_setdesc :
    assembleLine "SETDESC start=16 len=12 order=le signed=1 ; b" =
      some (some 0x300000000000020C10#72) := by decide

/-! ## One step each -/

/-- V-R15: from a state with something in every kind of register. -/
theorem test_reset :
    gives { held with crc := 1#16, encerr := true, desc := 5#18 } 0x010000000000000000#72 Regs.reset
      ⟨.ok, 0#64⟩ := by decide
/-- V-R16. -/
theorem test_reset_reserved : gives held 0x010000000000000001#72 held ⟨.eArg, 0#64⟩ := by decide

/-- V-C20. -/
theorem test_crcInit :
    gives { held with crc := 0xBEEF#16 } 0x100000000000000000#72 held ⟨.ok, 0#64⟩ := by decide

/-- V-C22. -/
theorem test_crcByte :
    gives { held with crc := 0xD4C1#16 } 0x110000000000000032#72 { held with crc := 0x4594#16 }
      ⟨.ok, 0#64⟩ := by decide
/-- V-C26. -/
theorem test_crcByte_reserved : gives held 0x110000000000000100#72 held ⟨.eArg, 0#64⟩ := by decide

/-- V-C23. -/
theorem test_crcVerify_equal :
    gives { held with crc := 0xBB3D#16 } 0x12000000000000BB3D#72 { held with crc := 0xBB3D#16 }
      ⟨.ok, 1#64⟩ := by decide
/-- V-C24. -/
theorem test_crcVerify_unequal :
    gives { held with crc := 0xBB3D#16 } 0x12000000000000BB3C#72 { held with crc := 0xBB3D#16 }
      ⟨.ok, 0#64⟩ := by decide

/-- V-F5: the bytes stay in `FBUF`. -/
theorem test_frmReset :
    gives held 0x200000000000000000#72 { held with flen := 0#4, fvalid := false } ⟨.ok, 0#64⟩ := by
  decide

/-- V-F2. -/
theorem test_frmPush :
    gives Regs.reset 0x210000000000000081#72 { Regs.reset with fbuf := [(0, 0x81#8)], flen := 1#4 }
      ⟨.ok, 0#64⟩ := by decide
/-- V-F3: the thirteenth byte is dropped. -/
theorem test_frmPush_full :
    gives pushed 0x2100000000000000AA#72 { pushed with flen := 13#4 } ⟨.ok, 0#64⟩ := by decide

set_option maxRecDepth 4000 in
/-- P2, and V-C28: the register `CRC` is not used. -/
theorem test_frmDecode :
    gives { pushed with crc := 0x1234#16, encerr := true } 0x220000000000000000#72
      { held with crc := 0x1234#16 } ⟨.ok, 0#64⟩ := by decide
set_option maxRecDepth 4000 in
/-- V-F7, with the damaged frame of P3. -/
theorem test_frmDecode_bad_checksum :
    gives { damaged with pbuf := 7#64, cover := 7#64, encerr := true, fvalid := true, hdr := 9#16 }
      0x220000000000000000#72 { damaged with pbuf := 7#64, cover := 7#64, encerr := true, hdr := 9#16 }
      ⟨.eCrc, 0#64⟩ := by decide

/-- 10_state.md R28, 42_codec.md R160: a descriptor that is not valid is stored. -/
theorem test_setdesc :
    gives held 0x30000000000003FFFF#72 { held with desc := 0x3FFFF#18 } ⟨.ok, 0#64⟩ := by decide

/-- V-X5. -/
theorem test_extract :
    gives (loaded 0xCFE#64 0x20C00#18) 0x310000000000000000#72 (loaded 0xCFE#64 0x20C00#18)
      ⟨.ok, 0xFFFFFFFFFFFFFCFE#64⟩ := by decide
/-- V-X13. -/
theorem test_extract_invalid :
    gives Regs.reset 0x310000000000000000#72 Regs.reset ⟨.eDesc, 0#64⟩ := by decide

/-- 42_codec.md R162. -/
theorem test_encBegin :
    gives { held with encerr := true } 0x320000000000000000#72
      { held with pbuf := 0#64, cover := 0#64 } ⟨.ok, 0#64⟩ := by decide

/-- V-I13. -/
theorem test_insert :
    gives (loaded 0#64 0x00C04#18) 0x330000000000000ABC#72
      { loaded 0xABC0#64 0x00C04#18 with cover := 0xFFF0#64 } ⟨.ok, 0#64⟩ := by decide
/-- V-I4. -/
theorem test_insert_does_not_fit :
    gives (loaded 0#64 0x20800#18) 0x33FFFFFFFFFFFFFF7F#72
      { loaded 0#64 0x20800#18 with encerr := true } ⟨.eFit, 0#64⟩ := by decide

/-- P6. -/
theorem test_pload :
    gives { held with encerr := true } 0x340000000000002710#72 { held with pbuf := 0x2710#64 }
      ⟨.ok, 0#64⟩ := by decide

/-- V-R11. -/
theorem test_rd_status :
    gives { held with encerr := true } 0x400000000000000001#72 { held with encerr := true }
      ⟨.ok, 3#64⟩ := by decide
/-- P2: `MID` of header word 0x0C81. -/
theorem test_rd_mid : gives held 0x400000000000000005#72 held ⟨.ok, 0x64#64⟩ := by decide

/-- V-E1: an illegal word is answered and changes nothing. -/
theorem test_illegal_word : gives held 0x000000000000000000#72 held ⟨.eOpcode, 0#64⟩ := by decide

/-- 70_reset_and_hazards.md R260, R261: hardware reset answers nothing. -/
theorem test_hard_reset : result ⟨held, [.hardReset], []⟩ = State.reset := by decide

/-- A row's word, stored where the first step after reset takes it, runs. -/
theorem test_withFetchWord :
    result (State.reset.withFetchWord 72 0x110000000000000031) =
      ⟨{ Regs.reset with crc := 0xD4C1#16 }, [], [⟨.ok, 0#64⟩]⟩ := by decide

/-! ### Big-endian signals, under each numbering -/

/-- V-X35: the same signal, START 4 under MSB0 and START 3 under LSB0. -/
theorem test_extract_big :
    (extractEffect .msb0 (loaded 0xCFE#64 0x30C04#18)).response = ⟨.ok, 0xFFFFFFFFFFFFFE0C#64⟩ ∧
      (extractEffect .lsb0 (loaded 0xCFE#64 0x30C03#18)).response =
        ⟨.ok, 0xFFFFFFFFFFFFFE0C#64⟩ := by decide
/-- V-X54, V-X55: START 56, LEN 8 is valid under MSB0 only; START 7, LEN 64 under LSB0 only. -/
theorem test_valid_big :
    validDesc .msb0 0x14007#18 = false ∧ validDesc .lsb0 0x14007#18 = true ∧
      validDesc .msb0 0x10838#18 = true ∧ validDesc .lsb0 0x10838#18 = false := by decide
/-- V-I31. -/
theorem test_insert_big :
    insertEffect .msb0 0xABC#64 (loaded 0#64 0x10C04#18) =
        ⟨{ loaded 0xBC0A#64 0x10C04#18 with cover := 0xFF0F#64 }, ⟨.ok, 0#64⟩⟩ ∧
      insertEffect .lsb0 0xABC#64 (loaded 0#64 0x10C03#18) =
        ⟨{ loaded 0xBC0A#64 0x10C03#18 with cover := 0xFF0F#64 }, ⟨.ok, 0#64⟩⟩ := by decide

/-! ### The functions of the document -/

set_option maxRecDepth 4000 in
/-- V-C6, V-C10. -/
theorem test_checksum :
    checksum [0xFF#8, 0xFF#8] = 0xB001#16 ∧ checksum (frame.take 10) = 0xE9F3#16 := by decide
set_option maxRecDepth 4000 in
/-- V-S8. -/
theorem test_decodeFrame :
    decodeFrame frame = .ok ⟨⟨1#5, 100#10, 0#1⟩, [1#8, 2#8, 3#8, 4#8, 5#8, 6#8, 7#8, 8#8], 0xE9F3#16⟩ :=
  rfl

/-! ## Witnesses: each obligation's hypotheses are met together, each clause at the ends of its range -/

/-- No step stops, so `result` is the step's next state. -/
theorem step_result (s : State) : step s = .next (result s) := by
  have : ∃ t, step s = .next t := by
    rcases step_cases s with ⟨_, h⟩ | ⟨_, _, h⟩ | ⟨_, _, _, _, _, h⟩ | ⟨_, _, _, _, _, h⟩
    · exact ⟨_, h⟩
    · exact ⟨_, h⟩
    · exact ⟨_, h.trans (exec_after _ _)⟩
    · exact ⟨_, h⟩
  obtain ⟨t, h⟩ := this
  rw [result, h]

theorem runsNext_presented (r : Regs) (w : CmdWord) (i : Instr) :
    runsNext (presented r w) i ↔ decode w = .ok i := by
  constructor
  · rintro ⟨_, _, h, hd⟩
    cases h
    exact hd
  · exact fun h => ⟨w, [], rfl, h⟩

theorem not_resetsNext_presented (r : Regs) (w : CmdWord) : ¬ resetsNext (presented r w) := by
  rintro ⟨_, h⟩
  cases h

/-! ### The commands: legal and illegal words of each opcode -/

theorem witness_ResetCommandZeroesAllState :
    (opOf 0x010000000000000000#72 = 0x01#8 ∧ argOf 0x010000000000000000#72 = 0#64) ∧
      opOf 0x018000000000000000#72 = 0x01#8 ∧ argOf 0x018000000000000000#72 ≠ 0#64 := by decide

theorem witness_CrcInitClearsOnlyCrc :
    (opOf 0x100000000000000000#72 = 0x10#8 ∧ argOf 0x100000000000000000#72 = 0#64) ∧
      opOf 0x100000000000000001#72 = 0x10#8 ∧ argOf 0x100000000000000001#72 ≠ 0#64 := by decide

theorem witness_CrcByteStepsOnlyCrc :
    (opOf 0x1100000000000000FF#72 = 0x11#8 ∧
      argOf 0x1100000000000000FF#72 &&& 0xFFFFFFFFFFFFFF00#64 = 0#64) ∧
      opOf 0x110000000000000100#72 = 0x11#8 ∧
        argOf 0x110000000000000100#72 &&& 0xFFFFFFFFFFFFFF00#64 ≠ 0#64 := by decide

theorem witness_CrcVerifyComparesAndChangesNothing :
    (opOf 0x12000000000000FFFF#72 = 0x12#8 ∧
      argOf 0x12000000000000FFFF#72 &&& 0xFFFFFFFFFFFF0000#64 = 0#64) ∧
      opOf 0x120000000000010000#72 = 0x12#8 ∧
        argOf 0x120000000000010000#72 &&& 0xFFFFFFFFFFFF0000#64 ≠ 0#64 := by decide

theorem witness_FrmResetStartsAFrame :
    (opOf 0x200000000000000000#72 = 0x20#8 ∧ argOf 0x200000000000000000#72 = 0#64) ∧
      opOf 0x200000000000000001#72 = 0x20#8 ∧ argOf 0x200000000000000001#72 ≠ 0#64 := by decide

theorem witness_FrmPushStoresAtFlenAndSaturates :
    (opOf 0x2100000000000000FF#72 = 0x21#8 ∧
      argOf 0x2100000000000000FF#72 &&& 0xFFFFFFFFFFFFFF00#64 = 0#64) ∧
      opOf 0x210000000000000100#72 = 0x21#8 ∧
        argOf 0x210000000000000100#72 &&& 0xFFFFFFFFFFFFFF00#64 ≠ 0#64 := by decide

set_option maxRecDepth 4000 in
/-- The three outcomes: `FLEN` 0 and 13, a bad checksum, a good one. -/
theorem witness_FrmDecodeChecksLengthThenChecksum :
    Regs.reset.flen ≠ 12#4 ∧ ({ pushed with flen := 13#4 } : Regs).flen ≠ 12#4 ∧
      (damaged.flen = 12#4 ∧ checksum (damaged.fbuf.bytes 0 10) ≠
        u16le (damaged.fbuf.read 10) (damaged.fbuf.read 11)) ∧
      (pushed.flen = 12#4 ∧ checksum (pushed.fbuf.bytes 0 10) =
        u16le (pushed.fbuf.read 10) (pushed.fbuf.read 11)) ∧
      (opOf 0x220000000000000000#72 = 0x22#8 ∧ argOf 0x220000000000000000#72 = 0#64) ∧
      opOf 0x228000000000000000#72 = 0x22#8 ∧ argOf 0x228000000000000000#72 ≠ 0#64 := by decide

theorem witness_SetdescStoresUnchecked :
    (opOf 0x30000000000003FFFF#72 = 0x30#8 ∧
      argOf 0x30000000000003FFFF#72 &&& 0xFFFFFFFFFFFC0000#64 = 0#64) ∧
      opOf 0x300000000000040000#72 = 0x30#8 ∧
        argOf 0x300000000000040000#72 &&& 0xFFFFFFFFFFFC0000#64 ≠ 0#64 := by decide

/-- `ENCERR`; a reset descriptor; START 0, LEN 64. -/
theorem witness_ExtractReadsTheSignal :
    ({ held with encerr := true } : Regs).encerr = true ∧
      (held.encerr = false ∧ validDesc Config.beStartNumbering held.desc = false) ∧
      ((loaded 1#64 0x24000#18).encerr = false ∧
        validDesc Config.beStartNumbering (loaded 1#64 0x24000#18).desc = true) ∧
      (opOf 0x310000000000000000#72 = 0x31#8 ∧ argOf 0x310000000000000000#72 = 0#64) ∧
      opOf 0x310000000000000001#72 = 0x31#8 ∧ argOf 0x310000000000000001#72 ≠ 0#64 := by decide

theorem witness_EncBeginZeroesThePayload :
    (opOf 0x320000000000000000#72 = 0x32#8 ∧ argOf 0x320000000000000000#72 = 0#64) ∧
      opOf 0x320000000000000001#72 = 0x32#8 ∧ argOf 0x320000000000000001#72 ≠ 0#64 := by decide

/-- The five outcomes; a byte takes 255 and not 256 (V-I5, V-I6). -/
theorem witness_InsertChecksThenWrites :
    ({ held with encerr := true } : Regs).encerr = true ∧
      (held.encerr = false ∧ validDesc Config.beStartNumbering held.desc = false) ∧
      ((loaded 0#64 0x00800#18).encerr = false ∧
        validDesc Config.beStartNumbering (loaded 0#64 0x00800#18).desc = true ∧
        fits 256#64 (loaded 0#64 0x00800#18).desc = false ∧
        fits 255#64 (loaded 0#64 0x00800#18).desc = true ∧
        (loaded 0#64 0x00800#18).cover &&&
          rangeMask Config.beStartNumbering (loaded 0#64 0x00800#18).desc = 0#64) ∧
      (({ held with desc := 0x00800#18 } : Regs).encerr = false ∧
        validDesc Config.beStartNumbering ({ held with desc := 0x00800#18 } : Regs).desc = true ∧
        fits 255#64 ({ held with desc := 0x00800#18 } : Regs).desc = true ∧
        ({ held with desc := 0x00800#18 } : Regs).cover &&&
          rangeMask Config.beStartNumbering ({ held with desc := 0x00800#18 } : Regs).desc ≠ 0#64) ∧
      opOf 0x33FFFFFFFFFFFFFFFF#72 = 0x33#8 := by decide

theorem witness_PloadReplacesThePayload : opOf 0x34FFFFFFFFFFFFFFFF#72 = 0x34#8 := by decide

/-- Both values of each gate, and the first and last register number of each range. -/
theorem witness_RdReadsEachRegister :
    held.fvalid = true ∧
      (Regs.reset.fvalid = false ∧ 0x03 ≤ (0x03#8).toNat ∧ (0x03#8).toNat ≤ 0x08 ∧
        0x03 ≤ (0x08#8).toNat ∧ (0x08#8).toNat ≤ 0x08) ∧
      held.encerr = false ∧ ({ held with encerr := true } : Regs).encerr = true ∧
      0x0B < (0x0C#8).toNat ∧ 0x0B < (0xFF#8).toNat ∧
      (opOf 0x4000000000000000FF#72 = 0x40#8 ∧
        argOf 0x4000000000000000FF#72 &&& 0xFFFFFFFFFFFFFF00#64 = 0#64) ∧
      opOf 0x400000000000000100#72 = 0x40#8 ∧
        argOf 0x400000000000000100#72 &&& 0xFFFFFFFFFFFFFF00#64 ≠ 0#64 := by decide

/-! ### Encoding -/

theorem witness_DecodeOfEncode :
    Instr.wf (.rd 0x0B#8) = true ∧ Instr.wf (.setdesc 255#8 255#8 .big true) = true := by decide

theorem witness_EncodeOfDecode :
    decode 0x40000000000000000B#72 = .ok (.rd 0x0B#8) ∧
      decode 0x30000000000003FFFF#72 = .ok (.setdesc 255#8 255#8 .big true) := ⟨rfl, rfl⟩

/-- The ends of each range of opcodes. -/
theorem witness_IllegalOpcodesChangeNothing :
    (opOf 0x000000000000000000#72).toNat = 0x00 ∧ (opOf 0x020000000000000000#72).toNat = 0x02 ∧
      (opOf 0x0F0000000000000000#72).toNat = 0x0F ∧ (opOf 0x130000000000000000#72).toNat = 0x13 ∧
      (opOf 0x1F0000000000000000#72).toNat = 0x1F ∧ (opOf 0x230000000000000000#72).toNat = 0x23 ∧
      (opOf 0x2F0000000000000000#72).toNat = 0x2F ∧ (opOf 0x350000000000000000#72).toNat = 0x35 ∧
      (opOf 0x3F0000000000000000#72).toNat = 0x3F ∧ (opOf 0x410000000000000000#72).toNat = 0x41 ∧
      (opOf 0xFFFFFFFFFFFFFFFFFF#72).toNat = 0xFF := by decide

/-- The lowest or highest reserved bit of each format, and the ends of the register numbers. -/
theorem witness_ReservedBitsAreRefused :
    (opOf 0x228000000000000000#72 ∈ [0x01#8, 0x10#8, 0x20#8, 0x22#8, 0x31#8, 0x32#8] ∧
        argOf 0x228000000000000000#72 ≠ 0#64) ∧
      (opOf 0x110000000000000100#72 ∈ [0x11#8, 0x21#8, 0x40#8] ∧
        (argOf 0x110000000000000100#72).extractLsb' 8 56 ≠ 0#56) ∧
      (opOf 0x120000000000010000#72 = 0x12#8 ∧
        (argOf 0x120000000000010000#72).extractLsb' 16 48 ≠ 0#48) ∧
      (opOf 0x300000000000040000#72 = 0x30#8 ∧
        (argOf 0x300000000000040000#72).extractLsb' 18 46 ≠ 0#46) ∧
      (opOf 0x40000000000000000C#72 = 0x40#8 ∧
        0x0B < ((argOf 0x40000000000000000C#72).extractLsb' 0 8).toNat ∧
        0x0B < ((argOf 0x4000000000000000FF#72).extractLsb' 0 8).toNat) ∧
      opOf 0x33FFFFFFFFFFFFFFFF#72 ∈ [0x33#8, 0x34#8] ∧
      issue 0x33FFFFFFFFFFFFFFFF#72 State.reset =
        .next (result (presentNext 0x33FFFFFFFFFFFFFFFF#72 State.reset)) := by
  refine ⟨by decide, by decide, by decide, by decide, by decide, by decide, step_result _⟩

/-! ### Every step -/

theorem witness_StepRunsTheDecodedCommand :
    (presented held 0x400000000000000003#72).inputs = .command 0x400000000000000003#72 :: [] ∧
      decode 0x400000000000000003#72 = .ok (.rd 0x03#8) := ⟨rfl, rfl⟩

/-- A refused word, and an accepted one whose opcode has no result. -/
theorem witness_EveryCommandGivesOneResponse :
    issue 0xFF0000000000000000#72 ⟨held, [], []⟩ =
        .next (State.after ⟨held, [], []⟩ held ⟨.eOpcode, 0#64⟩) ∧
      Status.eOpcode ≠ Status.ok ∧
      (opOf 0x11000000000000000F#72 ≠ 0x12#8 ∧ opOf 0x11000000000000000F#72 ≠ 0x31#8 ∧
        opOf 0x11000000000000000F#72 ≠ 0x40#8) := ⟨rfl, by decide, by decide⟩

/-- Two states with the same registers and different ports. -/
theorem witness_ResponseDependsOnRegistersOnly :
    (presented held 0#72).regs = (⟨held, [.hardReset], [⟨.eArg, 0#64⟩]⟩ : State).regs ∧
      presented held 0#72 ≠ ⟨held, [.hardReset], [⟨.eArg, 0#64⟩]⟩ := by decide

/-- The registers and the response that one presented word gives. -/
def answer (r : Regs) (w : CmdWord) : Regs × List Response :=
  ((result (presented r w)).regs, (result (presented r w)).responses)

set_option maxRecDepth 8000 in
/-- One word for each status. -/
theorem witness_StatusesAndWhatRefusalsChange :
    (∃ r q, issue 0x100000000000000000#72 ⟨held, [], []⟩ = .next (State.after ⟨held, [], []⟩ r q) ∧
      q.status = .ok) ∧
      (∃ r q, issue 0x220000000000000000#72 ⟨Regs.reset, [], []⟩ =
        .next (State.after ⟨Regs.reset, [], []⟩ r q) ∧ q.status = .eLength) ∧
      (∃ r q, issue 0x220000000000000000#72 ⟨damaged, [], []⟩ =
        .next (State.after ⟨damaged, [], []⟩ r q) ∧ q.status = .eCrc) ∧
      (∃ r q, issue 0x400000000000000008#72 ⟨pushed, [], []⟩ =
        .next (State.after ⟨pushed, [], []⟩ r q) ∧ q.status = .eNoFrame) ∧
      (∃ r q, issue 0x330000000000000000#72 ⟨held, [], []⟩ =
        .next (State.after ⟨held, [], []⟩ r q) ∧ q.status = .eDesc) ∧
      (∃ r q, issue 0x330000000000000002#72 ⟨loaded 0#64 0x00100#18, [], []⟩ =
        .next (State.after ⟨loaded 0#64 0x00100#18, [], []⟩ r q) ∧ q.status = .eFit) ∧
      (∃ r q, issue 0x330000000000000001#72 ⟨{ held with desc := 0x0043C#18 }, [], []⟩ =
        .next (State.after ⟨{ held with desc := 0x0043C#18 }, [], []⟩ r q) ∧ q.status = .eOverlap) ∧
      (∃ r q, issue 0x400000000000000009#72 ⟨{ held with encerr := true }, [], []⟩ =
        .next (State.after ⟨{ held with encerr := true }, [], []⟩ r q) ∧ q.status = .eEncode) ∧
      (∃ r q, issue 0xFF0000000000000000#72 ⟨held, [], []⟩ =
        .next (State.after ⟨held, [], []⟩ r q) ∧ q.status = .eOpcode) ∧
      (∃ r q, issue 0x40000000000000000C#72 ⟨held, [], []⟩ =
        .next (State.after ⟨held, [], []⟩ r q) ∧ q.status = .eArg) :=
  ⟨⟨_, _, rfl, rfl⟩, ⟨_, _, rfl, rfl⟩, ⟨_, _, rfl, rfl⟩, ⟨_, _, rfl, rfl⟩, ⟨_, _, rfl, rfl⟩,
    ⟨_, _, rfl, rfl⟩, ⟨_, _, rfl, rfl⟩, ⟨_, _, rfl, rfl⟩, ⟨_, _, rfl, rfl⟩, ⟨_, _, rfl, rfl⟩⟩

set_option maxRecDepth 8000 in
/-- A changed register of each kind, by a step that is no hardware reset. -/
theorem witness_RegistersChangeOnlyByTheirWriters :
    (∀ r w, step (presented r w) = .next (result (presented r w)) ∧ ¬ resetsNext (presented r w)) ∧
      (answer held 0x110000000000000001#72).1.crc ≠ held.crc ∧
      (answer Regs.reset 0x210000000000000001#72).1.fbuf.read 0 ≠ Regs.reset.fbuf.read 0 ∧
      (answer held 0x200000000000000000#72).1.flen ≠ held.flen ∧
      (answer held 0x200000000000000000#72).1.fvalid ≠ held.fvalid ∧
      (answer pushed 0x220000000000000000#72).1.hdr ≠ pushed.hdr ∧
      (answer held 0x320000000000000000#72).1.pbuf ≠ held.pbuf ∧
      (answer held 0x320000000000000000#72).1.cover ≠ held.cover ∧
      (answer held 0x330000000000000000#72).1.encerr ≠ held.encerr ∧
      (answer held 0x300000000000000800#72).1.desc ≠ held.desc ∧
      answered (presented damaged 0x220000000000000000#72)
        (result (presented damaged 0x220000000000000000#72)) .eCrc ∧
      answered (presented held 0x330000000000000000#72)
        (result (presented held 0x330000000000000000#72)) .eDesc :=
  ⟨fun _ _ => ⟨step_result _, not_resetsNext_presented _ _⟩, by decide, by decide, by decide,
    by decide, by decide, by decide, by decide, by decide, by decide, ⟨_, rfl⟩, ⟨_, rfl⟩⟩

set_option maxRecDepth 8000 in
/-- A `FRM_DECODE` that ends somewhere. -/
theorem witness_ReadsAreFreeOfEffectsAndWhichCommandsRepeat :
    exec .frmDecode ⟨damaged, [], []⟩ =
      .next (State.after ⟨damaged, [], []⟩ damaged ⟨.eCrc, 0#64⟩) := rfl

/-- `INSERT`, `EXTRACT` and `RD PBUF` while the encode stands rejected. -/
theorem witness_RejectedEncodeIsFrozen :
    (presented { held with encerr := true } 0#72).regs.encerr = true ∧
      ∀ w i, (w, i) ∈ [(0x330000000000000000#72, Instr.insert 0#64),
          (0x310000000000000000#72, Instr.extract), (0x400000000000000009#72, Instr.rd 0x09#8)] →
        runsNext (presented { held with encerr := true } w) i ∧
        ¬ resetsNext (presented { held with encerr := true } w) ∧
        ¬ runsNext (presented { held with encerr := true } w) .encBegin ∧
        (∀ v, ¬ runsNext (presented { held with encerr := true } w) (.pload v)) ∧
        ¬ runsNext (presented { held with encerr := true } w) .reset ∧
        ¬ runsNext (presented { held with encerr := true } w) .frmDecode := by
  refine ⟨rfl, fun w i h => ?_⟩
  have hd : decode w = .ok i := by
    simp only [List.mem_cons, Prod.mk.injEq, List.not_mem_nil, or_false] at h
    rcases h with ⟨rfl, rfl⟩ | ⟨rfl, rfl⟩ | ⟨rfl, rfl⟩ <;> rfl
  simp only [List.mem_cons, Prod.mk.injEq, List.not_mem_nil, or_false] at h
  refine ⟨(runsNext_presented _ _ _).2 hd, not_resetsNext_presented _ _, ?_, ?_, ?_, ?_⟩ <;>
    simp only [runsNext_presented, hd] <;> rcases h with ⟨_, rfl⟩ | ⟨_, rfl⟩ | ⟨_, rfl⟩ <;> simp

theorem witness_BothResetsLeaveEveryItemZero :
    resetsNext ⟨held, [.hardReset], []⟩ ∧ runsNext (presented held 0x010000000000000000#72) .reset ∧
      step ⟨held, [.hardReset], []⟩ = .next (result ⟨held, [.hardReset], []⟩) :=
  ⟨⟨[], rfl⟩, (runsNext_presented _ _ _).2 rfl, step_result _⟩

set_option maxRecDepth 4000 in
/-- A state that holds a decoded frame, and a thirteenth byte to come. -/
theorem witness_EveryStepKeepsTheInvariants :
    State.Inv (presented held 0x2100000000000000AA#72) ∧
      step (presented held 0x2100000000000000AA#72) =
        .next (result (presented held 0x2100000000000000AA#72)) :=
  ⟨⟨by decide, by decide, by decide, fun _ => by decide⟩, step_result _⟩

/-! ### The CRC engine and the frame parser -/

theorem witness_ParallelFormEqualsSerialForm : 0 < 16 ∧ 15 < 16 := by decide

theorem witness_SingleBitErrorChangesTheChecksum : 0 < 8 ∧ 7 < 8 := by decide

theorem witness_FlenCountsThePushes :
    (0 < min ([0xAA#8] : List Byte).length 12 ∧ 11 < min (frame ++ [0xAA#8]).length 12) ∧
      opOf 0x2100000000000001FF#72 = 0x21#8 ∧
        argOf 0x2100000000000001FF#72 &&& 0xFFFFFFFFFFFFFF00#64 ≠ 0#64 := by decide

set_option maxRecDepth 4000 in
/-- A frame that decodes and one that does not, with the first and the last payload byte. -/
theorem witness_DecodeCommandsComputeDecode :
    (∃ f, decodeFrame frame = .ok f) ∧ decodeFrame [] = .error .frameLength ∧
      (0 < 8 ∧ frame[2 + 0]? = some 1#8) ∧ 7 < 8 ∧ frame[2 + 7]? = some 8#8 :=
  ⟨⟨_, test_decodeFrame⟩, rfl, by decide, by decide, by decide⟩

theorem witness_BuiltFrameAlwaysDecodes : ([1#8, 2#8, 3#8, 4#8, 5#8, 6#8, 7#8, 8#8] : List Byte).length = 8 := by
  decide

set_option maxRecDepth 4000 in
/-- Eleven and thirteen bytes; the frame of V-S8 with its first and last byte, first and last bit. -/
theorem witness_DamagedFramesAreRefused :
    (frame.take 11).length ≠ 12 ∧ (frame ++ [0#8]).length ≠ 12 ∧
      (∃ f, decodeFrame frame = .ok f) ∧ frame[0]? = some 0x81#8 ∧ frame[11]? = some 0xE9#8 ∧
      0 < 8 ∧ 7 < 8 :=
  ⟨by decide, by decide, ⟨_, test_decodeFrame⟩, by decide, by decide, by decide, by decide⟩

/-! ### The signal codec -/

theorem witness_FlatIndexOfMsb0Positions :
    (0 ≤ 63 ∧ 63 ≤ 63) ∧ 0 % 8 ≠ 7 ∧ 6 % 8 ≠ 7 ∧ 7 % 8 = 7 ∧ 55 % 8 = 7 := by decide

/-- START 0, LEN 64; START 63, LEN 1; START 60, LEN 4 (V-X17). -/
theorem witness_LittleEndianWalkIsAShift :
    ∀ n, [0x04000#18, 0x0013F#18, 0x0043C#18].all
      (fun d => decide (Desc.order d = .little) && validDesc n d) = true := by
  intro n; cases n <;> decide

/-- The first and last byte; the signals of V-X42 and V-X38, by the START of each numbering. -/
theorem witness_BigEndianWalkIsAShiftOfTheReversedBytes :
    (0 < 8 ∧ 7 < 8) ∧
    [0x34000#18, 0x10838#18].all (fun d => decide (Desc.order d = .big) && validDesc .msb0 d) = true ∧
      [0x34007#18, 0x1083F#18].all
        (fun d => decide (Desc.order d = .big) && validDesc .lsb0 d) = true := by decide

/-- One bit and all 64, in both byte orders. -/
theorem witness_RangeMaskHasTheSignalsBits :
    [0x0013F#18, 0x04000#18, 0x10138#18, 0x14000#18].all (validDesc .msb0 ·) = true ∧
      [0x0013F#18, 0x04000#18, 0x10138#18, 0x14007#18].all (validDesc .lsb0 ·) = true ∧
      Desc.order 0x04000#18 = .little ∧ Desc.order 0x14000#18 = .big := by decide

theorem witness_TheTwoNumberingsNameTheSameSignals : (0#8).toNat ≤ 63 ∧ (63#8).toNat ≤ 63 := by decide

/-- V-X6, V-X5, V-X7: a signed signal with its top bit clear and set, an unsigned one. -/
theorem witness_ExtractedValueIsTheSignalsInteger :
    ∀ n, (validDesc n 0x20C04#18 = true ∧ Desc.signed 0x20C04#18 = true ∧
        (gatherBits 0xCFE#64 (loc n 0x20C04#18) 12).getLsbD 11 = false) ∧
      (validDesc n 0x20C00#18 = true ∧ Desc.signed 0x20C00#18 = true ∧
        (gatherBits 0xCFE#64 (loc n 0x20C00#18) 12).getLsbD 11 = true) ∧
      validDesc n 0x00C04#18 = true ∧ Desc.signed 0x00C04#18 = false := by
  intro n; cases n <;> decide

theorem witness_FitsOnIntegersEqualsFitsOnPatterns :
    (1 ≤ Desc.len 0x20100#18 ∧ Desc.len 0x20100#18 ≤ 64 ∧ Desc.signed 0x20100#18 = true) ∧
      1 ≤ Desc.len 0x04000#18 ∧ Desc.len 0x04000#18 ≤ 64 ∧ Desc.len 0x04000#18 = 64 ∧
      Desc.signed 0x04000#18 = false := by decide

/-- V-I1 and V-I2: −128 and 127 fit a signed byte. -/
theorem witness_ExtractAndInsertRoundTrip :
    ∀ n, validDesc n 0x20800#18 = true ∧ fits 0xFFFFFFFFFFFFFF80#64 0x20800#18 = true ∧
      fits 127#64 0x20800#18 = true := by
  intro n; cases n <;> decide

/-- Two adjacent signals of P4; two payloads that agree on the first one. -/
theorem witness_SignalsInDisjointRangesAreIndependent :
    ∀ n, validDesc n 0x01000#18 = true ∧ validDesc n 0x20C10#18 = true ∧
      rangeMask n 0x01000#18 &&& rangeMask n 0x20C10#18 = 0#64 ∧
      (0x12345#64 &&& rangeMask n 0x01000#18 = 0x72345#64 &&& rangeMask n 0x01000#18) := by
  intro n; cases n <;> decide

/-- The first two signals of P4. -/
def twoSignals : List RawSignal :=
  [⟨0#8, 16#8, .little, false, 10000#64⟩, ⟨16#8, 12#8, .little, true, 0xFFFFFFFFFFFFFCFE#64⟩]

/-- P4 up to its third signal: every response is OK. -/
theorem witness_SuccessfulEncodeReadsBack :
    ∃ t qs, runInstrs (rawEncodeCommands twoSignals) State.reset = .next t ∧
      t.responses = State.reset.responses ++ qs ∧ qs.length = 5 ∧ ∀ q ∈ qs, q.status = .ok :=
  ⟨_, [⟨.ok, 0#64⟩, ⟨.ok, 0#64⟩, ⟨.ok, 0#64⟩, ⟨.ok, 0#64⟩, ⟨.ok, 0#64⟩], rfl, rfl, rfl, by decide⟩

theorem witness_LoadedPayloadCannotBePatched :
    ({ held with desc := 0x0043C#18 } : Regs).cover = 0xFFFFFFFFFFFFFFFF#64 ∧
      ({ held with desc := 0x0043C#18 } : Regs).encerr = false ∧
      validDesc Config.beStartNumbering ({ held with desc := 0x0043C#18 } : Regs).desc = true ∧
      fits 1#64 ({ held with desc := 0x0043C#18 } : Regs).desc = true := by decide

/-! ### The host-side stage, with binary64 and ties to even as `NUM` -/

/-- The message of V-H4; `b` has bounds, and its value −770.0 is on the lower one. -/
def message : MessageDescriptor F64 where
  id := 100#32
  name := "m"
  byteLength := 8
  signals :=
    [⟨"a", 0#8, 16#8, .little, false, f64OfInt 1, f64OfInt 0, none, none, ""⟩,
      ⟨"b", 16#8, 12#8, .little, true, f64OfInt 1, f64OfInt 0, some (f64OfInt (-770)),
        some (f64OfInt 0), ""⟩]

/-- V-H4's payload with a byte outside every signal set, as in V-H5. -/
def payload : List Byte := [0x10#8, 0x27#8, 0xFE#8, 0x0C#8, 0#8, 0#8, 0#8, 0xFF#8]

/-- A signal that runs past the payload: START 63, LEN 2. -/
def badSignal : SignalDescriptor F64 :=
  ⟨"c", 63#8, 2#8, .little, false, f64OfInt 1, f64OfInt 0, none, none, ""⟩

/-- A signed signal of no bits (log entry 23). -/
def emptySignal : SignalDescriptor F64 :=
  ⟨"e", 0#8, 0#8, .little, true, f64OfInt 1, f64OfInt 0, none, none, ""⟩

/-- The overlap of P4: START 0, LEN 16 and START 15, LEN 2. -/
def overlapping : MessageDescriptor F64 :=
  { message with
    signals :=
      [⟨"a", 0#8, 16#8, .little, false, f64OfInt 1, f64OfInt 0, none, none, ""⟩,
        ⟨"d", 15#8, 2#8, .little, false, f64OfInt 1, f64OfInt 0, none, none, ""⟩] }

/-- V-H1: `{start 0, len 8, le, unsigned, scale 0.5, offset −40}`, with its bounds. -/
def half (maximum : Option F64) : SignalDescriptor F64 :=
  ⟨"h", 0#8, 8#8, .little, false, 0x3FE0000000000000#64, 0xC044000000000000#64, some (f64OfInt 0), maximum,
    ""⟩

/-- V-H1, V-H3: 60.0, out of bounds under maximum 50 and inside under maximum 60. -/
theorem test_physical_and_bounds :
    physical (binary64 .tiesToEven) (half none) 0xC8#64 = 0x404E000000000000#64 ∧
      outOfRange (binary64 .tiesToEven) 0x404E000000000000#64 (half (some (f64OfInt 50))) = true ∧
      outOfRange (binary64 .tiesToEven) 0x404E000000000000#64 (half (some (f64OfInt 60))) = false := by
  decide +kernel

/-- V-H6: 2.5 is 2 or 3 by the tie rule, 3.5 is 4 under both. -/
theorem test_tie_rules :
    f64RoundInt .tiesToEven 0x4004000000000000#64 = 2 ∧ f64RoundInt .tiesAway 0x4004000000000000#64 = 3 ∧
      f64RoundInt .tiesToEven 0x400C000000000000#64 = 4 ∧
      f64RoundInt .tiesAway 0x400C000000000000#64 = 4 := by decide +kernel

/-- V-S5, V-H2: 0.1, 1000.0 and −182.5 by their patterns. -/
theorem test_binary64_examples :
    f64Tenth = 0x3FB999999999999A#64 ∧ f64OfInt 1000 = 0x408F400000000000#64 ∧
      f64Div (f64OfInt 1000) f64Tenth = f64OfInt 10000 ∧
      f64Add (f64Mul (f64OfInt (-770)) 0x3FD0000000000000#64) (f64OfInt 10) = 0xC066D00000000000#64 := by
  decide +kernel

/-- V-H9: a scale of 0, and a NaN, have no raw value. -/
theorem test_no_raw_value :
    encodeRaw (binary64 .tiesToEven) { half none with scale := f64OfInt 0 } (f64OfInt 1) = none ∧
      encodeRaw (binary64 .tiesToEven) (half none) f64Nan = none := by decide +kernel

/-- V-S8 by `DECODE`, with its three reads. -/
theorem test_decodeByCommands :
    (decodeByCommands frame State.reset).map (fun x => match x.2 with
      | .ok f => some f
      | .error _ => none) =
    some (some ⟨⟨1#5, 100#10, 0#1⟩, [1#8, 2#8, 3#8, 4#8, 5#8, 6#8, 7#8, 8#8], 0xE9F3#16⟩) := by
  decide +kernel

/-- Distinct names and valid descriptors; then a descriptor that is not valid after valid ones. -/
theorem witness_DecodeSignalsGivesEachPhysicalValue :
    ((message.signals.map (·.name)).Nodup ∧
      ∀ sd ∈ message.signals, sd.valid Config.beStartNumbering = true) ∧
    ({ message with signals := message.signals ++ [badSignal] } : MessageDescriptor F64).signals =
      message.signals ++ badSignal :: [] ∧ badSignal.valid Config.beStartNumbering = false := by
  refine ⟨⟨by decide, by decide⟩, rfl, by decide⟩

/-- V-H4's encode; then one input for each way an encode fails, and the case of log
entry 23. -/
theorem witness_EncodeSignalsIsNeverPartial :
    (encodeSignals (binary64 .tiesToEven) [("b", f64OfInt (-770)), ("a", f64OfInt 10000)] message
      State.reset).2.toOption = some [0x10#8, 0x27#8, 0xFE#8, 0x0C#8, 0#8, 0#8, 0#8, 0#8] ∧
    (∃ sd ∈ message.signals, mapGet [("a", f64OfInt 1)] sd.name = none) ∧
    (∃ t, encodeSignals (binary64 .tiesToEven) [("a", f64OfInt 1)] message State.reset =
      (t, .error (.missingSignal "b"))) ∧
    (∃ t, encodeSignals (binary64 .tiesToEven) [("a", f64OfInt 1), ("b", f64OfInt 1)] message State.reset =
      (t, .error (.range "b" (f64OfInt 1)))) ∧
    (∃ t, encodeSignals (binary64 .tiesToEven) [("a", f64OfInt 65536), ("b", f64OfInt 0)] message
      State.reset = (t, .error (.encode "a"))) ∧
    (∃ t, encodeSignals (binary64 .tiesToEven) [("c", f64OfInt 1)] { message with signals := [badSignal] }
      State.reset = (t, .error (.insertRefused "c" .eDesc))) ∧
    (∃ t, encodeSignals (binary64 .tiesToEven) [("a", f64OfInt 4660), ("d", f64OfInt 1)] overlapping
      State.reset = (t, .error (.insertRefused "d" .eOverlap))) ∧
    (∃ t, encodeSignals (binary64 .tiesToEven) [("e", f64OfInt (-1))] { message with signals := [emptySignal] }
      State.reset = (t, .error (.insertRefused "e" .eDesc))) := by
  have named : ∀ {x : State × Except (HostError F64) (List Byte)} {e : HostError F64},
      (match x.2 with | .ok _ => none | .error e => some e) = some e → ∃ t, x = (t, .error e) := by
    rintro ⟨t, r⟩ e h
    cases r with
    | ok b => cases h
    | error e' => cases h; exact ⟨t, rfl⟩
  exact ⟨by decide +kernel, ⟨_, List.mem_cons_of_mem _ (List.mem_cons_self ..), by decide⟩,
    named (by decide +kernel), named (by decide +kernel), named (by decide +kernel),
    named (by decide +kernel), named (by decide +kernel), named (by decide +kernel)⟩

/-- V-H4 with V-H5's kind of payload. -/
theorem witness_HostRoundTripOnCoveredBits :
    (message.signals.map (·.name)).Nodup ∧
      (∀ sd ∈ message.signals, sd.valid Config.beStartNumbering = true) ∧
      rangesDisjoint Config.beStartNumbering message.signals ∧
      (∀ sd ∈ message.signals, inBounds (binary64 .tiesToEven)
        (signalValue (binary64 .tiesToEven) Config.beStartNumbering payload sd) sd) ∧
      (∀ sd ∈ message.signals, roundsTo (binary64 .tiesToEven) sd
        (signalValue (binary64 .tiesToEven) Config.beStartNumbering payload sd)
        (signalRaw Config.beStartNumbering payload sd)) := by
  refine ⟨by decide, by decide, by unfold rangesDisjoint; decide, ?_, ?_⟩
  · intro sd hsd
    simp only [message, List.mem_cons, List.not_mem_nil, or_false] at hsd
    rw [inBounds_iff]
    rcases hsd with rfl | rfl <;> decide +kernel
  · intro sd hsd
    simp only [message, List.mem_cons, List.not_mem_nil, or_false] at hsd
    rcases hsd with rfl | rfl <;> exact ⟨by decide +kernel, by decide +kernel⟩

/-- A short frame; the frame of V-S8 under a catalog whose one id has no `MID` (1124 is 100 + 1024), under one
that has its message, and under one whose message has a descriptor that is not valid. -/
theorem witness_FailedFramesAreDroppedUnknownIdsAreNot :
    decodeFrame [] = .error .frameLength ∧
      ∃ f, decodeFrame frame = .ok f ∧
        (∀ md ∈ [{ message with id := 1124#32 }], md.id.toNat ≠ f.header.messageId.toNat) ∧
        (message.id.toNat = f.header.messageId.toNat ∧
          (∀ other ∈ [message], other.id.toNat = f.header.messageId.toNat → other = message) ∧
          (message.signals.map (·.name)).Nodup ∧
          ∀ sd ∈ message.signals, sd.valid Config.beStartNumbering = true) ∧
        ({ message with signals := message.signals ++ [badSignal] } : MessageDescriptor F64).signals =
          message.signals ++ badSignal :: [] ∧
        badSignal.valid Config.beStartNumbering = false := by
  refine ⟨rfl, _, test_decodeFrame, ?_, ⟨rfl, ?_, by decide, by decide⟩, rfl, by decide⟩
  · intro md h
    rw [List.mem_singleton.1 h]
    decide
  · exact fun other h _ => List.mem_singleton.1 h

end Sys2Proof.Tests
end

section
/-! PROOFS. What one presented word does, as a function of the registers alone, and the statements of
00_scope.md that follow from it. -/

namespace Sys2Proof.Machine

/-- What a presented word does to the registers, and its response, whether or not it is a legally encoded
command (30_encoding.md R85 to R87). -/
def wordEffect (w : CmdWord) (r : Regs) : Effect :=
  match decode w with
  | .ok i => effectOf i r
  | .error e => raise (DecodeError.status e) r

theorem wordEffect_of_decode {w : CmdWord} {i : Instr} (h : decode w = .ok i) (r : Regs) :
    wordEffect w r = effectOf i r := by
  simp only [wordEffect, h]

theorem wordEffect_of_error {w : CmdWord} {e : DecodeError} (h : decode w = .error e) (r : Regs) :
    wordEffect w r = raise (DecodeError.status e) r := by
  simp only [wordEffect, h]

/-- Every presented word ends with its effect; of the state it reads the registers only. -/
theorem issue_after (w : CmdWord) (s : State) :
    issue w s = .next (s.after (wordEffect w s.regs).regs (wordEffect w s.regs).response) := by
  cases h : decode w with
  | ok i => rw [issue_of_decode h, exec_after, wordEffect_of_decode h]
  | error e => rw [issue_of_error h, wordEffect_of_error h, raise_regs, raise_response, State.refused]

/-- Settles O22: the registers after the word and its response are `wordEffect` of the registers before it, and
those are equal. -/
theorem responseDependsOnRegistersOnly : Obligations.ResponseDependsOnRegistersOnly := by
  intro w s s' hregs
  refine ⟨_, _, issue_after w s, ?_⟩
  rw [hregs]
  exact issue_after w s'

end Sys2Proof.Machine
end

section
/-! PROOFS. What a step does to the registers and what it answers: it resets them, runs one command, or keeps
them; and the registers after each command. -/

namespace Sys2Proof.Machine

/-! ## The step -/

/-- A step that takes an assertion of `rst_n` leaves the reset registers. -/
theorem step_regs_of_resetsNext {s t : State} (h : step s = .next t) (hr : resetsNext s) :
    t.regs = Regs.reset := by
  obtain ⟨rest, hin⟩ := hr
  simp only [step, fetch, hin, Host.Outcome.next.injEq] at h
  rw [← h]

/-- A step that takes a command's word ends with that command's effect. -/
theorem step_effect_of_runsNext {s t : State} {i : Instr} (h : step s = .next t) (hi : runsNext s i) :
    t.regs = (effectOf i s.regs).regs ∧ t.responses = s.responses ++ [(effectOf i s.regs).response] := by
  obtain ⟨w, rest, hin, hd⟩ := hi
  simp only [step, fetch, hin, hd] at h
  rw [exec_next h]
  exact ⟨rfl, rfl⟩

/-- The three things a step can do to the registers: reset them, run a command, keep them. -/
theorem step_resets_runs_or_keeps {s t : State} (h : step s = .next t) :
    resetsNext s ∨ (∃ i, runsNext s i) ∨ t.regs = s.regs := by
  rcases step_cases s with
    ⟨-, hs⟩ | ⟨rest, hin, -⟩ | ⟨w, rest, i, hin, hd, -⟩ | ⟨w, rest, e, -, -, hs⟩
  · rw [hs, Host.Outcome.next.injEq] at h
    exact .inr (.inr (h ▸ rfl))
  · exact .inl ⟨rest, hin⟩
  · exact .inr (.inl ⟨i, w, rest, hin, hd⟩)
  · rw [hs, Host.Outcome.next.injEq] at h
    exact .inr (.inr (h ▸ rfl))

/-- Once one response has been added, that is the one answered. -/
theorem answered_iff {s t : State} {q : Response} (h : t.responses = s.responses ++ [q]) (st : Status) :
    answered s t st ↔ q.status = st := by
  unfold answered
  rw [h]
  constructor
  · rintro ⟨d, hd⟩
    simp only [List.append_cancel_left_eq, List.cons.injEq, and_true] at hd
    rw [hd]
  · rintro rfl
    exact ⟨q.data, rfl⟩

/-- In a step that runs `i`, what was answered is the status of `i`'s effect. -/
theorem answered_iff_of_runsNext {s t : State} {i : Instr} (h : step s = .next t) (hi : runsNext s i)
    (st : Status) : answered s t st ↔ (effectOf i s.regs).response.status = st :=
  answered_iff (step_effect_of_runsNext h hi).2 st

/-- What holds of the reset registers and is kept by every command's effect is kept by every step. -/
theorem step_keeps {P : Regs → Prop} (hreset : P Regs.reset)
    (hkeep : ∀ i r, P r → P (effectOf i r).regs) {s t : State} (hs : P s.regs) (h : step s = .next t) :
    P t.regs := by
  rcases step_resets_runs_or_keeps h with hr | ⟨i, hi⟩ | hk
  · rw [step_regs_of_resetsNext h hr]
    exact hreset
  · rw [(step_effect_of_runsNext h hi).1]
    exact hkeep i _ hs
  · rwa [hk]

/-- A property of the registers that a step brings about without a hardware reset is brought about by the
command it runs. -/
theorem exists_runsNext_of_changed (P : Regs → Prop) {s t : State} (h : step s = .next t)
    (hr : ¬ resetsNext s) (hs : ¬ P s.regs) (ht : P t.regs) :
    ∃ i, runsNext s i ∧ P (effectOf i s.regs).regs := by
  rcases step_resets_runs_or_keeps h with hr' | ⟨i, hi⟩ | hk
  · exact absurd hr' hr
  · exact ⟨i, hi, (step_effect_of_runsNext h hi).1 ▸ ht⟩
  · exact absurd (hk ▸ ht) hs

/-! ## The registers after each command -/

section
variable (r : Regs)

@[simp] theorem effectOf_reset_regs : (effectOf .reset r).regs = Regs.reset := rfl
@[simp] theorem effectOf_crcInit_regs : (effectOf .crcInit r).regs = { r with crc := 0#16 } := rfl
@[simp] theorem effectOf_crcByte_regs (b : Byte) :
    (effectOf (.crcByte b) r).regs = { r with crc := crcUpdate r.crc b } := rfl
@[simp] theorem effectOf_crcVerify_regs (e : Word16) : (effectOf (.crcVerify e) r).regs = r := rfl
@[simp] theorem effectOf_frmReset_regs :
    (effectOf .frmReset r).regs = { r with flen := 0#4, fvalid := false } := rfl
@[simp] theorem effectOf_frmPush_regs (b : Byte) : (effectOf (.frmPush b) r).regs =
    { r with
      fbuf := if r.flen.toNat < 12 then r.fbuf.write r.flen.toNat b else r.fbuf
      flen := nextFlen r.flen } := rfl
@[simp] theorem effectOf_setdesc_regs (start len : Byte) (order : ByteOrder) (signed : Bool) :
    (effectOf (.setdesc start len order signed) r).regs =
      { r with desc := descBits start len order signed } := rfl
@[simp] theorem effectOf_encBegin_regs :
    (effectOf .encBegin r).regs = { r with pbuf := 0#64, cover := 0#64, encerr := false } := rfl
@[simp] theorem effectOf_pload_regs (v : Word) : (effectOf (.pload v) r).regs =
    { r with pbuf := v, cover := BitVec.allOnes 64, encerr := false } := rfl
@[simp] theorem effectOf_rd_regs (n : Byte) : (effectOf (.rd n) r).regs = r := rdEffect_regs n r

@[simp] theorem effectOf_extract_regs : (effectOf .extract r).regs = r := by
  rcases extractEffect_cases Config.beStartNumbering r with ⟨_, h⟩ | ⟨_, _, h⟩ | ⟨_, _, h⟩ <;>
    rw [effectOf, h] <;> rfl

/-- `FRM_DECODE` is refused and only clears FVALID, or it is answered with OK. -/
theorem effectOf_frmDecode_cases :
    ((effectOf .frmDecode r).regs = dropFrame r ∧ ((effectOf .frmDecode r).response.status = .eLength ∨
      (effectOf .frmDecode r).response.status = .eCrc)) ∨
    (effectOf .frmDecode r).response.status = .ok := by
  rcases frmDecodeEffect_cases r with ⟨_, h⟩ | ⟨_, _, h⟩ | ⟨_, _, h⟩ <;> simp [effectOf, h]

/-- `FRM_DECODE` writes none of CRC, FBUF, FLEN and DESC. -/
@[simp] theorem effectOf_frmDecode_frame :
    (effectOf .frmDecode r).regs.crc = r.crc ∧ (effectOf .frmDecode r).regs.fbuf = r.fbuf ∧
      (effectOf .frmDecode r).regs.flen = r.flen ∧ (effectOf .frmDecode r).regs.desc = r.desc := by
  rcases frmDecodeEffect_cases r with ⟨_, h⟩ | ⟨_, _, h⟩ | ⟨_, _, h⟩ <;> simp [effectOf, h]

/-- `INSERT` is refused with no change, or rejects the encode and only sets ENCERR, or is answered with OK
and keeps ENCERR. -/
theorem effectOf_insert_cases (v : Word) :
    (r.encerr = true ∧ effectOf (.insert v) r = raise .eEncode r) ∨
    ((effectOf (.insert v) r).regs = rejectEncode r ∧ ((effectOf (.insert v) r).response.status = .eDesc ∨
      (effectOf (.insert v) r).response.status = .eFit ∨
      (effectOf (.insert v) r).response.status = .eOverlap)) ∨
    ((effectOf (.insert v) r).response.status = .ok ∧ (effectOf (.insert v) r).regs.encerr = r.encerr) := by
  rcases insertEffect_cases Config.beStartNumbering v r with
    ⟨he, h⟩ | ⟨_, _, h⟩ | ⟨_, _, _, h⟩ | ⟨_, _, _, _, h⟩ | ⟨_, _, _, _, h⟩
  · exact .inl ⟨he, h⟩
  all_goals simp [effectOf, h]

/-- `INSERT` writes none but PBUF, COVER and ENCERR. -/
@[simp] theorem effectOf_insert_frame (v : Word) :
    (effectOf (.insert v) r).regs.crc = r.crc ∧ (effectOf (.insert v) r).regs.fbuf = r.fbuf ∧
      (effectOf (.insert v) r).regs.flen = r.flen ∧ (effectOf (.insert v) r).regs.fvalid = r.fvalid ∧
      (effectOf (.insert v) r).regs.hdr = r.hdr ∧ (effectOf (.insert v) r).regs.chk = r.chk ∧
      (effectOf (.insert v) r).regs.desc = r.desc := by
  rcases insertEffect_cases Config.beStartNumbering v r with
    ⟨_, h⟩ | ⟨_, _, h⟩ | ⟨_, _, _, h⟩ | ⟨_, _, _, _, h⟩ | ⟨_, _, _, _, h⟩ <;> simp [effectOf, h]

end

end Sys2Proof.Machine
end

section
/-! PROOFS. The invariants of 10_state.md R32: they hold at reset, every command keeps them, so every step
keeps them. -/

namespace Sys2Proof.Machine

/-- A word has no bit outside a mask exactly when each of its bits is one of the mask's. -/
theorem and_not_eq_zero_iff (p c : Word) :
    p &&& ~~~c = 0#64 ↔ ∀ j < 64, c.getLsbD j = false → p.getLsbD j = false := by
  constructor
  · intro h j hj hc
    have hbit := congrArg (·.getLsbD j) h
    simpa only [BitVec.getLsbD_and, BitVec.getLsbD_not, hj, hc, decide_true, Bool.not_false, Bool.and_true,
      BitVec.getLsbD_zero] using hbit
  · intro h
    refine BitVec.eq_of_getLsbD_eq fun j hj => ?_
    cases hc : c.getLsbD j with
    | true => simp [hc]
    | false => simp [h j hj hc]

/-- `INSERT` writes no payload bit but those it adds to COVER. -/
theorem insertRaw_uncovered (n : BeStartNumbering) (d : Desc) (v p c : Word) (hd : validDesc n d = true)
    (h : p &&& ~~~c = 0#64) : insertRaw n p d v &&& ~~~(c ||| rangeMask n d) = 0#64 := by
  rw [and_not_eq_zero_iff] at h ⊢
  intro j hj hc
  rw [BitVec.getLsbD_or, Bool.or_eq_false_iff] at hc
  rw [getLsbD_insertRaw_other n p d v j hd hc.2]
  exact h j hj hc.1

/-- The reset registers meet the invariants. -/
theorem Regs.inv_reset : Regs.reset.Inv where
  fbufWf := Memory.wf_nil
  flenLe := by decide
  uncoveredZero := by decide
  frameHeld := fun h => Bool.noConfusion h

/-- A frame is held only with FLEN at 12 or 13. -/
theorem Regs.Inv.fvalid_eq_false {r : Regs} (h : r.Inv) (hlt : r.flen.toNat < 12) : r.fvalid = false := by
  refine Bool.eq_false_iff.2 fun hv => ?_
  rcases (h.frameHeld hv).1 with hl | hl <;> simp [hl] at hlt

/-- While FVALID is 0 only the first three invariants say anything. -/
theorem Regs.Inv.of_fvalid_eq_false {r : Regs} (hm : r.fbuf.wf = true) (hl : r.flen.toNat ≤ 13)
    (hu : r.pbuf &&& ~~~r.cover = 0#64) (hv : r.fvalid = false) : r.Inv :=
  ⟨hm, hl, hu, fun h => absurd (hv.symm.trans h) Bool.false_ne_true⟩

theorem Regs.Inv.dropFrame {r : Regs} (h : r.Inv) : (dropFrame r).Inv :=
  .of_fvalid_eq_false h.fbufWf h.flenLe h.uncoveredZero rfl

theorem Regs.Inv.rejectEncode {r : Regs} (h : r.Inv) : (rejectEncode r).Inv := { h with }

/-- The invariants bind PBUF and COVER by item 2 alone. -/
theorem Regs.Inv.with_payload {r : Regs} (h : r.Inv) {p c : Word} (hpc : p &&& ~~~c = 0#64) (e : Bool) :
    ({ r with pbuf := p, cover := c, encerr := e } : Regs).Inv := { h with uncoveredZero := hpc }

/-- `FRM_PUSH` stores a byte only while no frame is held, and at FLEN 12 or 13 leaves 13. -/
theorem effectOf_frmPush_inv (b : Byte) {r : Regs} (h : r.Inv) : (effectOf (.frmPush b) r).regs.Inv := by
  rw [effectOf_frmPush_regs]
  have hnext : (nextFlen r.flen).toNat = min (r.flen.toNat + 1) 13 := nextFlen_toNat r.flen
  have hle : (nextFlen r.flen).toNat ≤ 13 := by omega
  by_cases hlt : r.flen.toNat < 12
  · refine .of_fvalid_eq_false ?_ hle h.uncoveredZero (h.fvalid_eq_false hlt)
    rw [if_pos hlt]
    exact Memory.wf_write _ _ _ hlt h.fbufWf
  · have hfull : nextFlen r.flen = 13#4 := BitVec.eq_of_toNat_eq (by rw [hnext]; simp; omega)
    rw [if_neg hlt]
    exact ⟨h.fbufWf, hle, h.uncoveredZero, fun hv => ⟨.inr hfull, (h.frameHeld hv).2⟩⟩

/-- `FRM_DECODE` holds a frame only when FLEN is 12 and the checksum is the frame's. -/
theorem frmDecodeEffect_inv {r : Regs} (h : r.Inv) : (frmDecodeEffect r).regs.Inv := by
  rcases frmDecodeEffect_cases r with ⟨_, he⟩ | ⟨_, _, he⟩ | ⟨h12, hsum, he⟩
  · rw [he]; exact h.dropFrame
  · rw [he]; exact h.dropFrame
  · rw [he]
    exact ⟨h.fbufWf, h.flenLe, by simp, fun _ => ⟨.inl (BitVec.eq_of_toNat_eq h12), rfl, rfl, hsum⟩⟩

theorem insertEffect_inv (n : BeStartNumbering) (v : Word) {r : Regs} (h : r.Inv) :
    (insertEffect n v r).regs.Inv := by
  rcases insertEffect_cases n v r with
    ⟨_, he⟩ | ⟨_, _, he⟩ | ⟨_, _, _, he⟩ | ⟨_, _, _, _, he⟩ | ⟨_, hd, _, _, he⟩
  · rw [he]; exact h
  · rw [he]; exact h.rejectEncode
  · rw [he]; exact h.rejectEncode
  · rw [he]; exact h.rejectEncode
  · rw [he]; exact h.with_payload (insertRaw_uncovered n r.desc v _ _ hd h.uncoveredZero) _

/-- Every command keeps the invariants. -/
theorem effectOf_inv (i : Instr) {r : Regs} (h : r.Inv) : (effectOf i r).regs.Inv := by
  cases i with
  | reset => exact Regs.inv_reset
  | crcInit | crcByte | setdesc => exact { h with }
  | crcVerify => exact h
  | extract => exact (effectOf_extract_regs r).symm ▸ h
  | rd n => exact (effectOf_rd_regs r n).symm ▸ h
  | frmReset => exact .of_fvalid_eq_false h.fbufWf (Nat.zero_le 13) h.uncoveredZero rfl
  | frmPush b => exact effectOf_frmPush_inv b h
  | frmDecode => exact frmDecodeEffect_inv h
  | insert v => exact insertEffect_inv _ v h
  | encBegin => exact h.with_payload (by decide) _
  | pload v => exact h.with_payload (by simp) _

/-- Settles O29: `State.reset` holds the reset registers. -/
theorem resetStateMeetsTheInvariants : Obligations.ResetStateMeetsTheInvariants := Regs.inv_reset

/-- Settles O30, by `step_keeps`: the invariants hold of the reset registers, and every command's effect keeps
them. -/
theorem everyStepKeepsTheInvariants : Obligations.EveryStepKeepsTheInvariants := fun _ _ hs h =>
  step_keeps Regs.inv_reset (fun i _ hr => effectOf_inv i hr) hs h

end Sys2Proof.Machine
end

section
/-! PROOFS. Which commands change a register (10_state.md R24), and what follows for the two resets (R31) and
for a rejected encode (R32 item 4). -/

namespace Sys2Proof.Machine

/-! ## The writers of each register (R24) -/

/-- An `FRM_DECODE` that does more than clear FVALID was answered with OK. -/
theorem frmDecode_answered_ok {s t : State} (h : step s = .next t) (hi : runsNext s .frmDecode)
    (hne : (effectOf .frmDecode s.regs).regs ≠ dropFrame s.regs) : answered s t .ok := by
  rw [answered_iff_of_runsNext h hi]
  exact (effectOf_frmDecode_cases s.regs).resolve_left fun hd => hne hd.1

section
variable {s t : State} (h : step s = .next t) (hr : ¬ resetsNext s)
include h hr

theorem crc_changed_by (hc : t.regs.crc ≠ s.regs.crc) :
    runsNext s .crcInit ∨ (∃ b, runsNext s (.crcByte b)) ∨ runsNext s .reset := by
  obtain ⟨i, hi, hw⟩ := exists_runsNext_of_changed (·.crc ≠ s.regs.crc) h hr (· rfl) hc
  cases i with
  | crcInit => exact .inl hi
  | crcByte b => exact .inr (.inl ⟨b, hi⟩)
  | reset => exact .inr (.inr hi)
  | _ => simp at hw

theorem fbuf_changed_by (a : Nat) (hc : t.regs.fbuf.read a ≠ s.regs.fbuf.read a) :
    ((∃ b, runsNext s (.frmPush b)) ∧ s.regs.flen.toNat < 12 ∧ a = s.regs.flen.toNat) ∨
      runsNext s .reset := by
  obtain ⟨i, hi, hw⟩ :=
    exists_runsNext_of_changed (·.fbuf.read a ≠ s.regs.fbuf.read a) h hr (· rfl) hc
  cases i with
  | frmPush b =>
    rw [effectOf_frmPush_regs] at hw
    by_cases hlt : s.regs.flen.toNat < 12
    · refine .inl ⟨⟨b, hi⟩, hlt, by_contra fun ha => hw ?_⟩
      simp only [if_pos hlt, Memory.read_write_other _ _ _ _ ha]
    · simp [hlt] at hw
  | reset => exact .inr hi
  | _ => simp at hw

theorem flen_changed_by (hc : t.regs.flen ≠ s.regs.flen) :
    runsNext s .frmReset ∨ (∃ b, runsNext s (.frmPush b)) ∨ runsNext s .reset := by
  obtain ⟨i, hi, hw⟩ := exists_runsNext_of_changed (·.flen ≠ s.regs.flen) h hr (· rfl) hc
  cases i with
  | frmReset => exact .inl hi
  | frmPush b => exact .inr (.inl ⟨b, hi⟩)
  | reset => exact .inr (.inr hi)
  | _ => simp at hw

theorem fvalid_changed_by (hc : t.regs.fvalid ≠ s.regs.fvalid) :
    runsNext s .frmDecode ∨ runsNext s .frmReset ∨ runsNext s .reset := by
  obtain ⟨i, hi, hw⟩ := exists_runsNext_of_changed (·.fvalid ≠ s.regs.fvalid) h hr (· rfl) hc
  cases i with
  | frmDecode => exact .inl hi
  | frmReset => exact .inr (.inl hi)
  | reset => exact .inr (.inr hi)
  | _ => simp at hw

theorem hdr_chk_changed_by (hc : t.regs.hdr ≠ s.regs.hdr ∨ t.regs.chk ≠ s.regs.chk) :
    (runsNext s .frmDecode ∧ answered s t .ok) ∨ runsNext s .reset := by
  obtain ⟨i, hi, hw⟩ := exists_runsNext_of_changed
    (fun r => r.hdr ≠ s.regs.hdr ∨ r.chk ≠ s.regs.chk) h hr (by simp) hc
  cases i with
  | frmDecode =>
    exact .inl ⟨hi, frmDecode_answered_ok h hi fun hd => by simp [hd] at hw⟩
  | reset => exact .inr hi
  | _ => simp at hw

theorem pbuf_cover_changed_by (hc : t.regs.pbuf ≠ s.regs.pbuf ∨ t.regs.cover ≠ s.regs.cover) :
    (runsNext s .frmDecode ∧ answered s t .ok) ∨ runsNext s .encBegin ∨
      ((∃ v, runsNext s (.insert v)) ∧ answered s t .ok) ∨ (∃ v, runsNext s (.pload v)) ∨
      runsNext s .reset := by
  obtain ⟨i, hi, hw⟩ := exists_runsNext_of_changed
    (fun r => r.pbuf ≠ s.regs.pbuf ∨ r.cover ≠ s.regs.cover) h hr (by simp) hc
  cases i with
  | frmDecode =>
    exact .inl ⟨hi, frmDecode_answered_ok h hi fun hd => by simp [hd] at hw⟩
  | encBegin => exact .inr (.inl hi)
  | insert v =>
    rcases effectOf_insert_cases s.regs v with ⟨_, he⟩ | ⟨hj, _⟩ | ⟨hok, _⟩
    · simp [he] at hw
    · simp [hj] at hw
    · exact .inr (.inr (.inl ⟨⟨v, hi⟩, (answered_iff_of_runsNext h hi _).2 hok⟩))
  | pload v => exact .inr (.inr (.inr (.inl ⟨v, hi⟩)))
  | reset => exact .inr (.inr (.inr (.inr hi)))
  | _ => simp at hw

theorem encerr_changed_by (hc : t.regs.encerr ≠ s.regs.encerr) :
    ((∃ v, runsNext s (.insert v)) ∧
      (answered s t .eDesc ∨ answered s t .eFit ∨ answered s t .eOverlap)) ∨
      runsNext s .encBegin ∨ (∃ v, runsNext s (.pload v)) ∨
      (runsNext s .frmDecode ∧ answered s t .ok) ∨ runsNext s .reset := by
  obtain ⟨i, hi, hw⟩ := exists_runsNext_of_changed (·.encerr ≠ s.regs.encerr) h hr (· rfl) hc
  cases i with
  | insert v =>
    rcases effectOf_insert_cases s.regs v with ⟨_, he⟩ | ⟨_, hst⟩ | ⟨_, hk⟩
    · simp [he] at hw
    · simp only [← answered_iff_of_runsNext h hi] at hst
      exact .inl ⟨⟨v, hi⟩, hst⟩
    · exact absurd hk hw
  | encBegin => exact .inr (.inl hi)
  | pload v => exact .inr (.inr (.inl ⟨v, hi⟩))
  | frmDecode =>
    exact .inr (.inr (.inr (.inl ⟨hi, frmDecode_answered_ok h hi fun hd => by simp [hd] at hw⟩)))
  | reset => exact .inr (.inr (.inr (.inr hi)))
  | _ => simp at hw

theorem desc_changed_by (hc : t.regs.desc ≠ s.regs.desc) :
    (∃ start len order signed, runsNext s (.setdesc start len order signed)) ∨ runsNext s .reset := by
  obtain ⟨i, hi, hw⟩ := exists_runsNext_of_changed (·.desc ≠ s.regs.desc) h hr (· rfl) hc
  cases i with
  | setdesc start len order signed => exact .inl ⟨start, len, order, signed, hi⟩
  | reset => exact .inr hi
  | _ => simp at hw

end

/-! ## What a refusal changes (R24, last column) -/

/-- A command answered with any status but OK changes the flags FVALID and ENCERR at most. -/
theorem effectOf_refused_frame (i : Instr) (r : Regs) (hst : (effectOf i r).response.status ≠ .ok) :
    (effectOf i r).regs =
      { r with fvalid := (effectOf i r).regs.fvalid, encerr := (effectOf i r).regs.encerr } := by
  cases i with
  | frmDecode =>
    rcases effectOf_frmDecode_cases r with ⟨hd, _⟩ | hok
    · rw [hd]; rfl
    · exact absurd hok hst
  | insert v =>
    rcases effectOf_insert_cases r v with ⟨_, he⟩ | ⟨hj, _⟩ | ⟨hok, _⟩
    · rw [he]; rfl
    · rw [hj]; rfl
    · exact absurd hok hst
  | extract => simp
  | rd n => simp
  | crcVerify e => simp
  | _ => exact absurd rfl hst

section
variable {s t : State} (h : step s = .next t)
include h

theorem refused_frmDecode_clears_fvalid (hi : runsNext s .frmDecode)
    (ha : answered s t .eLength ∨ answered s t .eCrc) : t.regs.fvalid = false := by
  rw [(step_effect_of_runsNext h hi).1]
  simp only [answered_iff_of_runsNext h hi] at ha
  rcases effectOf_frmDecode_cases s.regs with ⟨hd, _⟩ | hok
  · rw [hd]; rfl
  · simp [hok] at ha

theorem rejected_insert_sets_encerr (v : Word) (hi : runsNext s (.insert v))
    (ha : answered s t .eDesc ∨ answered s t .eFit ∨ answered s t .eOverlap) : t.regs.encerr = true := by
  rw [(step_effect_of_runsNext h hi).1]
  simp only [answered_iff_of_runsNext h hi] at ha
  rcases effectOf_insert_cases s.regs v with ⟨he, hq⟩ | ⟨hj, _⟩ | ⟨hok, _⟩
  · rw [hq]; exact he
  · rw [hj]; rfl
  · simp [hok] at ha

theorem refused_changes_flags_only (hr : ¬ resetsNext s) (st : Status) (hst : st ≠ .ok)
    (ha : answered s t st) :
    t.regs = { s.regs with fvalid := t.regs.fvalid, encerr := t.regs.encerr } := by
  rcases step_resets_runs_or_keeps h with hr' | ⟨i, hi⟩ | hk
  · exact absurd hr' hr
  · rw [answered_iff_of_runsNext h hi] at ha
    rw [(step_effect_of_runsNext h hi).1]
    exact effectOf_refused_frame i _ (ha ▸ hst)
  · rw [hk]

end

/-- Settles O24: each register by its writers' lemma, then the three clauses about refusals. -/
theorem registersChangeOnlyByTheirWriters : Obligations.RegistersChangeOnlyByTheirWriters :=
  fun _ _ h hr =>
    ⟨crc_changed_by h hr, fbuf_changed_by h hr, flen_changed_by h hr, fvalid_changed_by h hr,
      hdr_chk_changed_by h hr, pbuf_cover_changed_by h hr, encerr_changed_by h hr, desc_changed_by h hr,
      refused_frmDecode_clears_fvalid h, rejected_insert_sets_encerr h, refused_changes_flags_only h hr⟩

/-! ## A rejected encode -/

/-- With ENCERR 1 the commands that would write or show the payload are refused. -/
theorem effectOf_of_encerr {r : Regs} (he : r.encerr = true) {i : Instr}
    (hi : (∃ v, i = .insert v) ∨ i = .extract ∨ i = .rd 0x09#8) : effectOf i r = raise .eEncode r := by
  rcases hi with ⟨v, rfl⟩ | rfl | rfl
  · simp [effectOf, insertEffect, he]
  · simp [effectOf, extractEffect, he]
  · simp [effectOf, rdEffect, he]

theorem answered_eEncode_of_encerr {s t : State} (he : s.regs.encerr = true) (h : step s = .next t)
    (hp : (∃ v, runsNext s (.insert v)) ∨ runsNext s .extract ∨ runsNext s (.rd 0x09#8)) :
    answered s t .eEncode := by
  obtain ⟨i, hi, hw⟩ : ∃ i, runsNext s i ∧ ((∃ v, i = .insert v) ∨ i = .extract ∨ i = .rd 0x09#8) := by
    rcases hp with ⟨v, hi⟩ | hi | hi
    · exact ⟨_, hi, .inl ⟨v, rfl⟩⟩
    · exact ⟨_, hi, .inr (.inl rfl)⟩
    · exact ⟨_, hi, .inr (.inr rfl)⟩
  rw [answered_iff_of_runsNext h hi, effectOf_of_encerr he hw, raise_response]

/-- A step gives at most one answer. -/
theorem answered_unique {s t : State} {st st' : Status} (h : answered s t st) (h' : answered s t st') :
    st = st' := by
  obtain ⟨d, hd⟩ := h
  exact (answered_iff hd st').1 h'

/-- Settles O26: each writer of PBUF, COVER and ENCERR is shut out by a hypothesis, or is `INSERT`, which is
answered with E_ENCODE and so with none of the statuses under which it writes. -/
theorem rejectedEncodeIsFrozen : Obligations.RejectedEncodeIsFrozen := by
  intro s t he h hr hbegin hpload hreset hdecode
  have hinsert : ∀ st, st ≠ .eEncode → ¬ ((∃ v, runsNext s (.insert v)) ∧ answered s t st) :=
    fun st hst ⟨hi, ha⟩ => hst (answered_unique ha (answered_eEncode_of_encerr he h (.inl hi)))
  have hpayload : ¬(t.regs.pbuf ≠ s.regs.pbuf ∨ t.regs.cover ≠ s.regs.cover) := fun hc => by
    rcases pbuf_cover_changed_by h hr hc with hw | hw | hw | ⟨v, hw⟩ | hw
    · exact hdecode hw
    · exact hbegin hw
    · exact hinsert .ok (by decide) hw
    · exact hpload v hw
    · exact hreset hw
  have hencerr : t.regs.encerr = s.regs.encerr := by_contra fun hc => by
    rcases encerr_changed_by h hr hc with ⟨hi, ha | ha | ha⟩ | hw | ⟨v, hw⟩ | hw | hw
    · exact hinsert .eDesc (by decide) ⟨hi, ha⟩
    · exact hinsert .eFit (by decide) ⟨hi, ha⟩
    · exact hinsert .eOverlap (by decide) ⟨hi, ha⟩
    · exact hbegin hw
    · exact hpload v hw
    · exact hdecode hw
    · exact hreset hw
  simp only [ne_eq, not_or, not_not] at hpayload
  exact ⟨hpayload.1, hpayload.2, hencerr.trans he, answered_eEncode_of_encerr he h⟩

/-! ## Reset -/

/-- Both resets leave the reset registers. -/
theorem step_regs_of_reset {s t : State} (hr : resetsNext s ∨ runsNext s .reset) (h : step s = .next t) :
    t.regs = Regs.reset := by
  rcases hr with hr | hi
  · exact step_regs_of_resetsNext h hr
  · rw [(step_effect_of_runsNext h hi).1, effectOf_reset_regs]

/-- Settles O27: either way the registers are the reset registers. -/
theorem bothResetsLeaveEveryItemZero : Obligations.BothResetsLeaveEveryItemZero := by
  intro s t hr h
  rw [step_regs_of_reset hr h]
  exact ⟨rfl, fun a _ => Memory.read_nil a, rfl, rfl, rfl, rfl, rfl, rfl, rfl, rfl⟩

end Sys2Proof.Machine
end

section
/-! PROOFS. The header views are the fields of the header word and rebuild it (10_state.md R26). -/

namespace Sys2Proof.Machine

/-- Bit `i` of the field of `n` bits at offset `k`, placed at bit 0 of a word. -/
theorem getLsbD_headerField (h : Word16) (k n i : Nat) :
    ((h.extractLsb' k n).setWidth 16).getLsbD i = (decide (i < n) && h.getLsbD (k + i)) := by
  by_cases hi : i < 16
  · simp [hi]
  · have : h.getLsbD (k + i) = false := BitVec.getLsbD_of_ge _ _ (by omega)
    simp [hi, this]

/-- A header field is the word shifted down and masked. -/
theorem headerField_eq (h : Word16) (k n : Nat) :
    (h.extractLsb' k n).setWidth 16 = (h >>> k) &&& BitVec.ofNat 16 (2 ^ n - 1) := by
  refine BitVec.eq_of_getLsbD_eq fun i hi => ?_
  rw [getLsbD_headerField, BitVec.getLsbD_and, BitVec.getLsbD_ushiftRight, BitVec.getLsbD_ofNat,
    Nat.testBit_two_pow_sub_one, decide_eq_true hi, Bool.true_and, Bool.and_comm]

/-- The field that reaches up to bit 15 needs no mask. -/
theorem headerRsv_eq (h : Word16) : (headerRsv h).setWidth 16 = h >>> 15 := by
  refine BitVec.eq_of_getLsbD_eq fun i _ => ?_
  rw [headerRsv, getLsbD_headerField, BitVec.getLsbD_ushiftRight]
  by_cases hi : i < 1
  · simp [hi]
  · simp [hi, BitVec.getLsbD_of_ge h (15 + i) (by omega)]

/-- Every bit of the header word lies in exactly one of the three fields. -/
theorem headerFields_rebuild (h : Word16) :
    (headerDev h).setWidth 16 ||| ((headerMid h).setWidth 16 <<< 5) |||
      ((headerRsv h).setWidth 16 <<< 15) = h := by
  refine BitVec.eq_of_getLsbD_eq fun i hi => ?_
  simp only [headerDev, headerMid, headerRsv, BitVec.getLsbD_or, BitVec.getLsbD_shiftLeft,
    getLsbD_headerField, hi]
  rcases (by omega : i < 5 ∨ (5 ≤ i ∧ i < 15) ∨ i = 15) with hi | ⟨h5, h15⟩ | rfl
  · simp [hi, (by omega : i < 15)]
  · simp [h15, decide_eq_false (by omega : ¬ i < 5), (by omega : i - 5 < 10), (by omega : 5 + (i - 5) = i)]
  · simp

/-- Settles O44: each view is its field shifted down and masked, and the three fields cover the word. -/
theorem headerViewsRebuildTheHeader : Obligations.HeaderViewsRebuildTheHeader := fun h =>
  ⟨headerFields_rebuild h, headerField_eq h 0 5, headerField_eq h 5 10, headerRsv_eq h⟩

end Sys2Proof.Machine
end

section
/-! PROOFS. The MSB0 positions of the payload's bits (20_memory.md R53), and which commands can be repeated
(20_memory.md R60). -/

namespace Sys2Proof.Machine

/-! ## The flat index (R53) -/

/-- `flat` keeps the byte and mirrors the position in it. -/
theorem flat_eq (p : Nat) : flat p = 8 * (p / 8) + (7 - p % 8) := by unfold flat; omega

/-- Settles O45: by `flat_eq`, a position and the next one lie in the same byte unless the first is its last. -/
theorem flatIndexOfMsb0Positions : Obligations.FlatIndexOfMsb0Positions := by
  refine ⟨fun p hp => ⟨flat_eq p, ?_, flat_flat p⟩, fun p hp => ?_, fun p hp => ?_⟩
  · exact Nat.le_of_lt_succ (flat_lt p (Nat.lt_succ_of_le hp))
  · rw [flat_eq, flat_eq]
    omega
  · rw [flat_eq]
    omega

/-! ## Repeating a command, on the registers -/

theorem idempotent_iff (i : Instr) :
    idempotent i ↔ ∀ r, (effectOf i (effectOf i r).regs).regs = (effectOf i r).regs := by
  constructor
  · intro h r
    obtain ⟨u, hu, hr⟩ := h ⟨r, [], []⟩ _ (exec_after i _)
    rwa [exec_next hu] at hr
  · intro h s t ht
    refine ⟨_, exec_after i t, ?_⟩
    rw [exec_next ht]
    exact h s.regs

theorem pureRead_of_keeps {i : Instr} (h : ∀ r, (effectOf i r).regs = r) : pureRead i := fun s =>
  ⟨(effectOf i s.regs).response, by rw [exec_after, h], by rw [exec_after, after_regs, h]⟩

theorem not_idempotent_of_changes {i : Instr} (r : Regs)
    (h : (effectOf i (effectOf i r).regs).regs ≠ (effectOf i r).regs) : ¬ idempotent i := fun hi =>
  h ((idempotent_iff i).1 hi r)

/-! ## `FRM_DECODE` -/

/-- A refusal clears FVALID only, and success writes registers that `FRM_DECODE` does not read: the second one
takes the branch of the first. -/
theorem frmDecodeEffect_repeat (r : Regs) : frmDecodeEffect (frmDecodeEffect r).regs = frmDecodeEffect r := by
  rcases frmDecodeEffect_cases r with ⟨hl, h⟩ | ⟨hl, hc, h⟩ | ⟨hl, hc, h⟩
  · rw [h]
    simp [frmDecodeEffect, frameComplete, hl, dropFrame]
  · rw [h]
    simp [frmDecodeEffect, frameComplete, hl, hc, dropFrame]
  · rw [h]
    simp [frmDecodeEffect, frameComplete, hl, hc]

theorem frmDecode_repeats {s : State} {r : Regs} {q : Response}
    (h : exec .frmDecode s = .next (s.after r q)) :
    exec .frmDecode (s.after r q) = .next ((s.after r q).after r q) := by
  obtain ⟨hr, hq⟩ := after_inj (exec_next h)
  have hsame : effectOf .frmDecode r = effectOf .frmDecode s.regs := hr ▸ frmDecodeEffect_repeat s.regs
  rw [exec_after, after_regs, hsame, ← hr, ← hq]

/-! ## `CRC_BYTE` -/

/-- Any number of bit steps is linear over XOR. -/
theorem bitsteps_xor (n : Nat) (r q : Word16) : bitsteps n (r ^^^ q) = bitsteps n r ^^^ bitsteps n q := by
  induction n generalizing r q with
  | zero => rfl
  | succ n ih => rw [bitsteps_succ, bitstep_xor, ih, ← bitsteps_succ, ← bitsteps_succ]

theorem crcUpdate_eq_xor (r : Word16) (b : Byte) :
    crcUpdate r b = bitsteps 8 r ^^^ bitsteps 8 (b.setWidth 16) := bitsteps_xor 8 r _

/-- A byte step repeated goes on: were it not so from 0 and from 1, then by linearity eight bit steps would
leave 1 where sixteen do. -/
theorem crcUpdate_not_idempotent (b : Byte) : ∃ c, crcUpdate (crcUpdate c b) b ≠ crcUpdate c b := by
  by_contra! h
  have h0 := h 0#16
  have h1 := h 1#16
  simp only [crcUpdate_eq_xor, bitsteps_xor, BitVec.xor_left_inj] at h0 h1
  have hz : bitsteps 8 0#16 = 0#16 := by decide
  rw [hz, hz, BitVec.zero_xor] at h0
  have h8 : bitsteps 8 1#16 = 0xC0C1#16 := by decide
  rw [h0, BitVec.xor_zero, h8] at h1
  exact absurd h1 (by decide)

theorem not_idempotent_crcByte (b : Byte) : ¬ idempotent (.crcByte b) := by
  obtain ⟨c, hc⟩ := crcUpdate_not_idempotent b
  refine not_idempotent_of_changes { Regs.reset with crc := c } fun h => hc ?_
  simpa using congrArg Regs.crc h

/-! ## `FRM_PUSH` -/

theorem not_idempotent_frmPush (b : Byte) : ¬ idempotent (.frmPush b) :=
  not_idempotent_of_changes Regs.reset fun h =>
    have hflen : nextFlen (nextFlen 0#4) = nextFlen 0#4 := congrArg Regs.flen h
    absurd hflen (by decide)

/-! ## `INSERT` -/

/-- A valid descriptor names at least one payload bit. -/
theorem rangeMask_ne_zero (n : BeStartNumbering) (d : Desc) (h : validDesc n d = true) :
    rangeMask n d ≠ 0#64 := fun h0 => by
  have hbit := (getLsbD_rangeMask n d (loc n d 0) h).2 ⟨0, (validDesc_len n d h).1, rfl⟩
  rw [h0, BitVec.getLsbD_zero] at hbit
  exact Bool.false_ne_true hbit

/-- The bits that an accepted `INSERT` takes are in its own way when it is repeated. -/
theorem insertEffect_repeat (n : BeStartNumbering) (v : Word) (r : Regs) (he : r.encerr = false)
    (hd : validDesc n r.desc = true) (hf : fits v r.desc = true)
    (hm : r.cover &&& rangeMask n r.desc = 0#64) :
    (insertEffect n v r).regs.encerr = false ∧
      (insertEffect n v (insertEffect n v r).regs).regs.encerr = true := by
  have hover : (r.cover ||| rangeMask n r.desc) &&& rangeMask n r.desc ≠ 0#64 := by
    have : (r.cover ||| rangeMask n r.desc) &&& rangeMask n r.desc = rangeMask n r.desc := by
      ext i
      simp
      grind
    rw [this]
    exact rangeMask_ne_zero n r.desc hd
  simp [insertEffect, overlaps, he, hd, hf, hm, hover]

/-- The whole payload as one little-endian unsigned signal, which any value fits. -/
def wholePayload : Desc := descBits 0#8 64#8 .little false

theorem validDesc_wholePayload (n : BeStartNumbering) : validDesc n wholePayload = true := by
  cases n <;> decide

theorem fits_wholePayload (v : Word) : fits v wholePayload = true := by
  simp [fits, wholePayload, v.isLt]

theorem not_idempotent_insert (v : Word) : ¬ idempotent (.insert v) := by
  obtain ⟨hfirst, hsecond⟩ := insertEffect_repeat Config.beStartNumbering v
    { Regs.reset with desc := wholePayload } rfl (validDesc_wholePayload _) (fits_wholePayload v)
    BitVec.zero_and
  refine not_idempotent_of_changes { Regs.reset with desc := wholePayload } fun h => ?_
  exact absurd (hsecond.symm.trans ((congrArg Regs.encerr h).trans hfirst)) (by decide)

/-! ## The statement -/

/-- Settles O25: what a command does to the registers decides each clause; `CRC_BYTE` goes on from a register
that eight bit steps change, `FRM_PUSH` counts, and `INSERT` meets its own bits. -/
theorem readsAreFreeOfEffectsAndWhichCommandsRepeat :
    Obligations.ReadsAreFreeOfEffectsAndWhichCommandsRepeat := by
  refine ⟨⟨fun n => pureRead_of_keeps (effectOf_rd_regs · n), pureRead_of_keeps effectOf_extract_regs,
      fun e => pureRead_of_keeps (effectOf_crcVerify_regs · e)⟩, ?_,
    ⟨not_idempotent_crcByte, not_idempotent_frmPush, not_idempotent_insert⟩,
    fun _ _ _ h => frmDecode_repeats h⟩
  simp only [idempotent_iff]
  exact ⟨fun _ => rfl, fun _ => rfl, fun _ => rfl, fun _ _ _ _ _ => rfl, fun _ _ => rfl, fun _ => rfl⟩

end Sys2Proof.Machine
end

section
/-! PROOFS. Runs of legally encoded commands: the state that a list of commands leaves, and the responses it
gives (30_encoding.md R85, R100; 70_reset_and_hazards.md R267). -/

namespace Sys2Proof.Machine

/-! ## Words that decode to their command -/

/-- A field put at bit 0 of the argument is read back. -/
theorem extractLsb'_setWidth_field {f : Nat} (x : BitVec f) (hf : f ≤ 64) :
    (x.setWidth 64).extractLsb' 0 f = x := by
  refine BitVec.eq_of_getLsbD_eq fun i hi => ?_
  simp [hi, (by omega : i < 64)]

/-- It meets none of the bits above it. -/
theorem setWidth_and_reserved {f : Nat} (x : BitVec f) (reserved : Word)
    (h : ∀ i < f, reserved.getLsbD i = false) : x.setWidth 64 &&& reserved = 0#64 := by
  refine BitVec.eq_of_getLsbD_eq fun i _ => ?_
  rw [BitVec.getLsbD_and, BitVec.getLsbD_zero]
  by_cases hi : i < f
  · rw [h i hi, Bool.and_false]
  · simp [BitVec.getLsbD_of_ge x i (by omega)]

theorem decode_encode_frmPush (b : Byte) : decode (encode (.frmPush b)) = .ok (.frmPush b) := by
  have hfield : (b.setWidth 64).extractLsb' 0 8 = b := extractLsb'_setWidth_field b (by decide)
  have hreserved : b.setWidth 64 &&& reservedB = 0#64 := setWidth_and_reserved b _ (by decide)
  simp [decode, Instr.opcode, Instr.arg, checkReserved, hfield, hreserved]

/-! ## The state after a list of commands -/

/-- The state after one legally encoded command. -/
def State.ran (s : State) (i : Instr) : State :=
  s.after (effectOf i s.regs).regs (effectOf i s.regs).response

/-- The state after a list of them. -/
def State.ranAll (s : State) (is : List Instr) : State := is.foldl State.ran s

/-- The responses to them, oldest first. -/
def State.answers (s : State) : List Instr → List Response
  | [] => []
  | i :: is => (effectOf i s.regs).response :: (s.ran i).answers is

@[simp] theorem ran_regs (s : State) (i : Instr) : (s.ran i).regs = (effectOf i s.regs).regs := rfl

theorem exec_ran (i : Instr) (s : State) : exec i s = .next (s.ran i) := exec_after i s

theorem getLast_ran (s : State) (i : Instr) :
    (s.ran i).responses.getLast? = some (effectOf i s.regs).response := getLast_after s _ _

@[simp] theorem ranAll_nil (s : State) : s.ranAll [] = s := rfl

@[simp] theorem ranAll_cons (s : State) (i : Instr) (is : List Instr) :
    s.ranAll (i :: is) = (s.ran i).ranAll is := rfl

theorem ranAll_append (s : State) (is js : List Instr) : s.ranAll (is ++ js) = (s.ranAll is).ranAll js :=
  List.foldl_append

theorem answers_append (s : State) (is js : List Instr) :
    s.answers (is ++ js) = s.answers is ++ (s.ranAll is).answers js := by
  induction is generalizing s with
  | nil => rfl
  | cons i is ih => simp [State.answers, ih]

section
variable {is : List Instr} (h : ∀ i ∈ is, decode (encode i) = .ok i)
include h

theorem runInstrs_eq (s : State) : runInstrs is s = .next (s.ranAll is) := by
  induction is generalizing s with
  | nil => rfl
  | cons i is ih =>
    have hi := issue_of_decode (h i List.mem_cons_self) s
    have hrest := ih (fun j hj => h j (List.mem_cons_of_mem i hj)) (s.ran i)
    rw [exec_ran] at hi
    simpa only [runInstrs, List.map_cons, runWords, hi, ranAll_cons] using hrest

theorem askAll_eq (s : State) : askAll is s = some (s.ranAll is, s.answers is) := by
  induction is generalizing s with
  | nil => rfl
  | cons i is ih =>
    have hrest := ih (fun j hj => h j (List.mem_cons_of_mem i hj)) (s.ran i)
    rw [State.ran] at hrest
    rw [askAll_cons (h i List.mem_cons_self), hrest]
    rfl

end

/-- The last response is that of the last command, in the state the others leave. -/
theorem askLast_concat {is : List Instr} {i : Instr} (h : ∀ j ∈ is ++ [i], decode (encode j) = .ok j)
    (s : State) :
    askLast (is ++ [i]) s =
      some ((s.ranAll is).ran i, (effectOf i (s.ranAll is).regs).response) := by
  rw [askLast, askAll_eq h, answers_append, ranAll_append]
  simp [State.answers]

end Sys2Proof.Machine
end

section
/-! PROOFS. What `FRM_RESET` and the pushes load into the frame buffer (41_frame.md R131 to R133), and what the
buffer then shows of a whole frame (20_memory.md R55, R61). -/

namespace Sys2Proof.Machine

/-! ## The payload word and its bytes (R55) -/

/-- Byte i of a packed word is byte i of the list. -/
theorem extract_pack64le (bs : List Byte) (i : Nat) (hi : i < 8) (hl : i < bs.length) :
    (pack64le bs).extractLsb' (8 * i) 8 = bs[i] := by
  induction bs generalizing i with
  | nil => simp at hl
  | cons b bs ih =>
    refine BitVec.eq_of_getLsbD_eq fun j hj => ?_
    rw [pack64le, BitVec.getLsbD_extractLsb', decide_eq_true hj, Bool.true_and, BitVec.getLsbD_or,
      BitVec.getLsbD_setWidth, BitVec.getLsbD_shiftLeft]
    cases i with
    | zero => simp [hj, (by omega : j < 64)]
    | succ i =>
      have hbyte := congrArg (·.getLsbD j) (ih i (by omega) (by simpa using hl))
      simp only [BitVec.getLsbD_extractLsb', decide_eq_true hj, Bool.true_and] at hbyte
      rw [List.getElem_cons_succ, ← hbyte, BitVec.getLsbD_of_ge b _ (by omega),
        (by omega : 8 * (i + 1) + j - 8 = 8 * i + j)]
      simp [(by omega : 8 * (i + 1) + j < 64), (by omega : 8 ≤ 8 * (i + 1) + j)]

theorem unpack64le_pack64le (bs : List Byte) (h : bs.length = 8) : unpack64le (pack64le bs) = bs := by
  refine List.ext_getElem (by simp [unpack64le, h]) fun i h1 h2 => ?_
  simp [unpack64le, extract_pack64le bs i (by omega) h2]

/-! ## What the pushes load -/

/-- FLEN has counted the bytes of `raw`, and FBUF holds the first twelve of them. -/
def FrameLoaded (raw : List Byte) (r : Regs) : Prop :=
  r.flen.toNat = min raw.length 13 ∧ ∀ i, i < 12 → (h : i < raw.length) → r.fbuf.read i = raw[i]

theorem frameLoaded_frmReset (r : Regs) : FrameLoaded [] (effectOf .frmReset r).regs :=
  ⟨rfl, fun i _ h => absurd h (Nat.not_lt_zero i)⟩

theorem FrameLoaded.frmPush {raw : List Byte} {r : Regs} (h : FrameLoaded raw r) (b : Byte) :
    FrameLoaded (raw ++ [b]) (effectOf (.frmPush b) r).regs := by
  obtain ⟨hlen, hread⟩ := h
  rw [effectOf_frmPush_regs]
  refine ⟨?_, fun i hi hl => ?_⟩
  · rw [nextFlen_toNat, hlen, List.length_append, List.length_singleton]
    omega
  · rw [List.length_append, List.length_singleton] at hl
    by_cases hlt : i < raw.length
    · rw [List.getElem_append_left hlt, ← hread i hi hlt]
      split
      · exact Memory.read_write_other _ _ _ _ (by omega)
      · rfl
    · obtain rfl : i = raw.length := by omega
      have hflen : r.flen.toNat = raw.length := by omega
      simp [hflen, hi]

/-- From every state, `FRM_RESET` and the pushes load the frame, and write FBUF, FLEN and FVALID only. -/
theorem ranAll_pushCommands (raw : List Byte) (s : State) :
    FrameLoaded raw (s.ranAll (pushCommands raw)).regs ∧
      ∃ m l, (s.ranAll (pushCommands raw)).regs = { s.regs with fbuf := m, flen := l, fvalid := false } := by
  induction raw using List.reverseRecOn with
  | nil => exact ⟨frameLoaded_frmReset s.regs, _, _, rfl⟩
  | append_singleton raw b ih =>
    obtain ⟨hload, m, l, hregs⟩ := ih
    have hrun : s.ranAll (pushCommands (raw ++ [b])) = (s.ranAll (pushCommands raw)).ran (.frmPush b) := by
      rw [pushCommands, List.map_append, ← List.cons_append, ranAll_append]
      rfl
    rw [hrun, ran_regs]
    refine ⟨hload.frmPush b, ?_⟩
    rw [hregs, effectOf_frmPush_regs]
    exact ⟨_, _, rfl⟩

/-! ## What the buffer shows of a whole frame (R61) -/

section
variable {raw : List Byte} {r : Regs} (h : FrameLoaded raw r) (h12 : raw.length = 12)
include h h12

theorem FrameLoaded.read_eq (i : Nat) (hi : i < 12) : r.fbuf.read i = raw.getD i 0#8 := by
  rw [h.2 i hi (h12 ▸ hi), List.getD_eq_getElem]

theorem FrameLoaded.bytes_eq (a n : Nat) (hn : a + n ≤ 12) : r.fbuf.bytes a n = (raw.drop a).take n := by
  refine List.ext_getElem (by simp; omega) fun i h1 _ => ?_
  rw [Memory.bytes_length] at h1
  rw [Memory.getElem_bytes, h.2 (a + i) (by omega) (by omega), List.getElem_take, List.getElem_drop]

theorem FrameLoaded.frameHeader_eq : frameHeader r.fbuf = u16le (raw.getD 0 0#8) (raw.getD 1 0#8) := by
  rw [frameHeader, h.read_eq h12 0 (by decide), h.read_eq h12 1 (by decide)]

theorem FrameLoaded.frameChecksum_eq :
    frameChecksum r.fbuf = u16le (raw.getD 10 0#8) (raw.getD 11 0#8) := by
  rw [frameChecksum, h.read_eq h12 _ (by decide), h.read_eq h12 _ (by decide)]

theorem FrameLoaded.frameCovered_eq : frameCovered r.fbuf = raw.take 10 :=
  h.bytes_eq h12 0 10 (by decide)

theorem FrameLoaded.framePayload_eq : framePayload r.fbuf = pack64le ((raw.drop 2).take 8) := by
  rw [framePayload, h.bytes_eq h12 2 8 (by decide)]

/-- Payload byte i of the frame is bits 8i+7 : 8i of the payload word. -/
theorem FrameLoaded.extract_framePayload (i : Nat) (hi : i < 8) :
    some ((framePayload r.fbuf).extractLsb' (8 * i) 8) = raw[2 + i]? := by
  rw [h.framePayload_eq h12, extract_pack64le _ i hi (by simp; omega), List.getElem_take,
    List.getElem_drop, List.getElem?_eq_getElem]

end

end Sys2Proof.Machine
end

section
/-! PROOFS. `DECODE raw` by its commands computes the function `decode(raw)` (41_frame.md R130, R134, R137;
30_encoding.md R100): `FRM_DECODE` of a loaded frame takes the function's branch, and the reads show its
frame. -/

namespace Sys2Proof.Machine

/-! ## `FRM_DECODE` of a loaded frame is the function (R130, R134, R137) -/

/-- The registers after a successful `FRM_DECODE`. -/
def decodedRegs (r : Regs) : Regs :=
  { r with
    hdr := frameHeader r.fbuf
    chk := frameChecksum r.fbuf
    pbuf := framePayload r.fbuf
    cover := BitVec.allOnes 64
    encerr := false
    fvalid := true }

/-- The frame that the buffer shows. -/
def bufferFrame (m : Memory) : DecodedFrame :=
  ⟨splitHeader (frameHeader m), unpack64le (framePayload m), frameChecksum m⟩

/-- The command and the function take the same branch: too long or short, bad checksum, frame. -/
theorem FrameLoaded.decode_cases {raw : List Byte} {r : Regs} (h : FrameLoaded raw r) :
    (∃ e, decodeFrame raw = .error e ∧ effectOf .frmDecode r = raise e.status (dropFrame r)) ∨
    (raw.length = 12 ∧ decodeFrame raw = .ok (bufferFrame r.fbuf) ∧
      effectOf .frmDecode r = accept (decodedRegs r) 0#64) := by
  have hlen := h.1
  by_cases h12 : raw.length = 12
  · have hpay : unpack64le (framePayload r.fbuf) = (raw.drop 2).take 8 := by
      rw [h.framePayload_eq h12, unpack64le_pack64le _ (by simp; omega)]
    rcases frmDecodeEffect_cases r with ⟨hl, _⟩ | ⟨_, hc, he⟩ | ⟨_, hc, he⟩
    · omega
    · rw [h.frameCovered_eq h12, h.frameChecksum_eq h12] at hc
      exact .inl ⟨.crcMismatch, (if_neg (not_not.2 h12)).trans (if_pos hc), he⟩
    · rw [h.frameCovered_eq h12, h.frameChecksum_eq h12] at hc
      refine .inr ⟨h12, ?_, he⟩
      rw [bufferFrame, hpay, h.frameHeader_eq h12, h.frameChecksum_eq h12]
      exact (if_neg (not_not.2 h12)).trans (if_neg (not_not.2 hc))
  · rcases frmDecodeEffect_cases r with ⟨_, he⟩ | ⟨hl, _⟩ | ⟨hl, _⟩
    · exact .inl ⟨.frameLength, if_pos h12, he⟩
    · omega
    · omega

/-! ## The reads after it -/

/-- While a frame is held, the three reads give its parts. -/
theorem answers_decodedReads (s : State) (hv : s.regs.fvalid = true) :
    s.answers decodedReads = [⟨.ok, s.regs.hdr.setWidth 64⟩, ⟨.ok, framePayload s.regs.fbuf⟩,
      ⟨.ok, s.regs.chk.setWidth 64⟩] := by
  simp [decodedReads, State.answers, effectOf, rdEffect, regHdr, regFpay, regChk, readFrame, hv]

/-- The reads of the registers after a success give the buffer's frame. -/
theorem frameOfReads_decodedRegs (r : Regs) :
    frameOfReads ⟨.ok, (decodedRegs r).hdr.setWidth 64⟩ ⟨.ok, framePayload (decodedRegs r).fbuf⟩
      ⟨.ok, (decodedRegs r).chk.setWidth 64⟩ = bufferFrame r.fbuf := by
  simp [frameOfReads, bufferFrame, decodedRegs]

theorem exec_rd_fpay {s : State} (hv : s.regs.fvalid = true) :
    exec (.rd 0x08#8) s = .next (s.after s.regs ⟨.ok, framePayload s.regs.fbuf⟩) := by
  rw [exec_after, effectOf_rd_regs]
  simp [effectOf, rdEffect, readFrame, hv]

/-! ## The statement -/

theorem decode_encode_decodedReads : ∀ i ∈ decodedReads, decode (encode i) = .ok i := by
  simp only [decodedReads, List.forall_mem_cons]
  exact ⟨rfl, rfl, rfl, List.forall_mem_nil _⟩

theorem decode_encode_decodeCommands (raw : List Byte) :
    ∀ i ∈ decodeCommands raw, decode (encode i) = .ok i := by
  simp only [decodeCommands, pushCommands, List.cons_append, List.forall_mem_cons, List.forall_mem_append,
    List.forall_mem_map]
  exact ⟨rfl, fun b _ => decode_encode_frmPush b, rfl, List.forall_mem_nil _⟩

/-- A refused `FRM_DECODE` ends the pseudo-command with its status. -/
theorem decodeByCommands_of_error {raw : List Byte} {e : FrameError} (hf : decodeFrame raw = .error e)
    (s : State) : ∃ u, decodeByCommands raw s = some (u, .error e.status) := by
  have hlast := askLast_concat (decode_encode_decodeCommands raw) s
  have hstatus : e.status ≠ .ok := by cases e <;> decide
  rcases (ranAll_pushCommands raw s).1.decode_cases with ⟨e', hf', he⟩ | ⟨-, hf', -⟩
  · obtain rfl : e = e' := Except.error.inj (hf.symm.trans hf')
    rw [he] at hlast
    refine ⟨(s.ranAll (pushCommands raw)).ran .frmDecode, ?_⟩
    simp only [decodeByCommands, decodeCommands, hlast, raise_response, if_pos hstatus]
  · rw [hf] at hf'
    contradiction

/-- After a success the reads give the function's frame. -/
theorem decodeByCommands_of_ok {raw : List Byte} {f : DecodedFrame} (hf : decodeFrame raw = .ok f)
    (s : State) : ∃ u, decodeByCommands raw s = some (u, .ok f) := by
  have hlast := askLast_concat (decode_encode_decodeCommands raw) s
  have hreads := askAll_eq decode_encode_decodedReads ((s.ranAll (pushCommands raw)).ran .frmDecode)
  rcases (ranAll_pushCommands raw s).1.decode_cases with ⟨e, hf', -⟩ | ⟨-, hf', he⟩
  · rw [hf] at hf'
    contradiction
  · obtain rfl := Except.ok.inj (hf.symm.trans hf')
    rw [answers_decodedReads _ (by rw [ran_regs, he]; rfl), ran_regs, he] at hreads
    rw [he] at hlast
    refine ⟨((s.ranAll (pushCommands raw)).ran .frmDecode).ranAll decodedReads, ?_⟩
    simp only [decodeByCommands, decodeCommands, hlast, accept_response, hreads, accept_regs,
      frameOfReads_decodedRegs, ne_eq, not_true_eq_false, if_false]

/-- Settles O41: the pushes load the frame from every state, and `FRM_DECODE` of a loaded frame takes the
function's branch. -/
theorem decodeCommandsComputeDecode : Obligations.DecodeCommandsComputeDecode := by
  refine ⟨fun raw s => ?_, fun raw s => ?_⟩
  · cases hf : decodeFrame raw with
    | error e => exact decodeByCommands_of_error hf s
    | ok f => exact decodeByCommands_of_ok hf s
  obtain ⟨hload, m, l, hregs⟩ := ranAll_pushCommands raw s
  refine ⟨(s.ranAll (pushCommands raw)).ran .frmDecode, ?_, ?_⟩
  · rw [runInstrs_eq (decode_encode_decodeCommands raw), decodeCommands, ranAll_append]
    rfl
  rw [getLast_ran, ran_regs]
  rcases hload.decode_cases with ⟨e, hf, he⟩ | ⟨h12, hf, he⟩
  · rw [hf, he, raise_regs, raise_response, hregs]
    exact ⟨rfl, rfl, rfl, rfl, rfl, rfl, rfl, rfl, rfl⟩
  · have hbyte := hload.extract_framePayload h12
    have hread := exec_rd_fpay (s := (s.ranAll (pushCommands raw)).ran .frmDecode)
      (by rw [ran_regs, he]; rfl)
    rw [ran_regs, he, accept_regs] at hread
    have hcrc : (s.ranAll (pushCommands raw)).regs.crc = s.regs.crc := by rw [hregs]
    have hdesc : (s.ranAll (pushCommands raw)).regs.desc = s.regs.desc := by rw [hregs]
    rw [hf, he, accept_regs, accept_response]
    exact ⟨hcrc, hdesc, rfl, rfl, rfl, rfl, rfl, rfl, rfl, rfl, hbyte, _, hread, hbyte⟩

end Sys2Proof.Machine
end

section
/-! PROOFS. The encoding (30_encoding.md R80 to R88): a command's opcode and the number of its operand bits say
what every word with that opcode decodes to, and from that equation decoding and encoding are inverse. -/

namespace Sys2Proof.Machine

/-! ## What a format is (R82) -/

/-- How many low bits of `ARG` are operand bits in the command's format: none in Z, 8 in B and R, 16 in H, 18 in
D, all in V. The others are its reserved bits. -/
def operandBits : Instr → Nat
  | .reset => 0
  | .crcInit => 0
  | .crcByte _ => 8
  | .crcVerify _ => 16
  | .frmReset => 0
  | .frmPush _ => 8
  | .frmDecode => 0
  | .setdesc _ _ _ _ => 18
  | .extract => 0
  | .encBegin => 0
  | .insert _ => 64
  | .pload _ => 64
  | .rd _ => 8

/-- The command with the same opcode whose operands are those of the argument `x`. -/
def withArg (x : Word) : Instr → Instr
  | .reset => .reset
  | .crcInit => .crcInit
  | .crcByte _ => .crcByte (x.extractLsb' 0 8)
  | .crcVerify _ => .crcVerify (x.extractLsb' 0 16)
  | .frmReset => .frmReset
  | .frmPush _ => .frmPush (x.extractLsb' 0 8)
  | .frmDecode => .frmDecode
  | .setdesc _ _ _ _ =>
    .setdesc (x.extractLsb' 0 8) (x.extractLsb' 8 8) (.ofBit (x.getLsbD 16)) (x.getLsbD 17)
  | .extract => .extract
  | .encBegin => .encBegin
  | .insert _ => .insert x
  | .pload _ => .pload x
  | .rd _ => .rd (x.extractLsb' 0 8)

@[simp] theorem opcode_withArg (x : Word) (i : Instr) : (withArg x i).opcode = i.opcode := by
  cases i <;> rfl

/-- No bit of the argument from `f` up is set. -/
def noBitsFrom (f : Nat) (x : Word) : Prop := x &&& ~~~lowMask f = 0#64

theorem noBitsFrom_iff {f : Nat} (hf : f ≤ 64) (x : Word) :
    noBitsFrom f x ↔ ∀ j < 64, f ≤ j → x.getLsbD j = false := by
  simp only [noBitsFrom, and_not_eq_zero_iff, getLsbD_lowMask f _ hf, decide_eq_false_iff_not, not_lt]

theorem noBitsFrom_zero_iff (x : Word) : noBitsFrom 0 x ↔ x = 0#64 := by
  have h : ~~~lowMask 0 = BitVec.allOnes 64 := by decide
  rw [noBitsFrom, h, BitVec.and_allOnes]

theorem noBitsFrom_all (x : Word) : noBitsFrom 64 x :=
  (noBitsFrom_iff le_rfl x).2 fun _ hlt hge => absurd hlt (not_lt.2 hge)

/-- A field put at bit 0 sets no bit above it. -/
theorem noBitsFrom_setWidth {f : Nat} (hf : f ≤ 64) (x : BitVec f) : noBitsFrom f (x.setWidth 64) :=
  setWidth_and_reserved x _ fun i hi => by simp [getLsbD_lowMask f i hf, hi]

/-- An argument with no bit above the field is the field, put at bit 0. -/
theorem setWidth_extractLsb'_of_noBitsFrom {f : Nat} (hf : f ≤ 64) {x : Word} (h : noBitsFrom f x) :
    (x.extractLsb' 0 f).setWidth 64 = x := by
  refine BitVec.eq_of_getLsbD_eq fun j hj => ?_
  by_cases hlt : j < f
  · simp [hj, hlt]
  · simp [hlt, (noBitsFrom_iff hf x).1 h j hj (not_lt.1 hlt)]

/-- A set bit in any field that starts at `f` is a bit from `f` up. -/
theorem not_noBitsFrom_of_field {f n : Nat} (hf : f ≤ 64) {x : Word} (h : x.extractLsb' f n ≠ 0#n) :
    ¬ noBitsFrom f x := fun hx => h <| BitVec.eq_of_getLsbD_eq fun j hj => by
  rw [BitVec.getLsbD_extractLsb', decide_eq_true hj, Bool.true_and, BitVec.getLsbD_zero]
  by_cases hlt : f + j < 64
  · exact (noBitsFrom_iff hf x).1 hx _ hlt (Nat.le_add_right f j)
  · exact BitVec.getLsbD_of_ge x _ (not_lt.1 hlt)

/-! ## A command and its argument (R83, R91) -/

/-- A command's argument has no reserved bit. -/
theorem noBitsFrom_arg (i : Instr) : noBitsFrom (operandBits i) i.arg := by
  cases i with
  | crcByte b | frmPush b | rd b => exact noBitsFrom_setWidth (by decide) b
  | crcVerify e => exact noBitsFrom_setWidth (by decide) e
  | setdesc start len order signed => exact noBitsFrom_setWidth (by decide) (descBits start len order signed)
  | insert v | pload v => exact noBitsFrom_all v
  | _ => exact (noBitsFrom_zero_iff _).2 rfl

/-- An argument with no reserved bit is that of the command with its operands. -/
theorem arg_withArg {x : Word} {i : Instr} (h : noBitsFrom (operandBits i) x) : (withArg x i).arg = x := by
  cases i with
  | crcByte | frmPush | rd | crcVerify => exact setWidth_extractLsb'_of_noBitsFrom (by decide) h
  | setdesc =>
    rw [withArg, Instr.arg, descBits_fields]
    exact setWidth_extractLsb'_of_noBitsFrom (by decide) h
  | insert | pload => rfl
  | _ => exact ((noBitsFrom_zero_iff x).1 h).symm

/-- The four descriptor fields are read back from the argument that packs them. -/
theorem withArg_arg_setdesc (start len : Byte) (order : ByteOrder) (signed : Bool) :
    withArg (Instr.arg (.setdesc start len order signed)) (.setdesc start len order signed) =
      .setdesc start len order signed := by
  have hstart : (descBits start len order signed).extractLsb' 0 8 = start :=
    BitVec.eq_of_toNat_eq (descBits_start start len order signed)
  have hlen : (descBits start len order signed).extractLsb' 8 8 = len :=
    BitVec.eq_of_toNat_eq (descBits_len start len order signed)
  have horder : ByteOrder.ofBit ((descBits start len order signed).getLsbD 16) = order :=
    descBits_order start len order signed
  have hsigned : (descBits start len order signed).getLsbD 17 = signed :=
    descBits_signed start len order signed
  rw [withArg, Instr.arg, BitVec.extractLsb'_setWidth_of_le (by decide),
    BitVec.extractLsb'_setWidth_of_le (by decide), hstart, hlen]
  simpa using ⟨horder, hsigned⟩

/-- Reading the operands of a command's own argument gives the command. -/
theorem withArg_arg (i : Instr) : withArg i.arg i = i := by
  cases i with
  | crcByte b => exact congrArg Instr.crcByte (extractLsb'_setWidth_field b (by decide))
  | crcVerify e => exact congrArg Instr.crcVerify (extractLsb'_setWidth_field e (by decide))
  | frmPush b => exact congrArg Instr.frmPush (extractLsb'_setWidth_field b (by decide))
  | rd r => exact congrArg Instr.rd (extractLsb'_setWidth_field r (by decide))
  | setdesc start len order signed => exact withArg_arg_setdesc start len order signed
  | _ => rfl

/-! ## What a word decodes to (R85 to R87) -/

theorem checkRegister_checkReserved_of_wf {i : Instr} (h : i.wf = true) (reserved x : Word) :
    checkRegister (checkReserved reserved x i) = checkReserved reserved x i := by
  unfold checkReserved
  split
  · rfl
  · exact if_pos h

theorem checkReserved_of_noBitsFrom {f : Nat} {x : Word} (h : noBitsFrom f x) (i : Instr) :
    checkReserved (~~~lowMask f) x i = .ok i := if_neg (not_not.2 h)

theorem checkReserved_of_not_noBitsFrom {f : Nat} {x : Word} (h : ¬ noBitsFrom f x) (i : Instr) :
    checkReserved (~~~lowMask f) x i = .error .reservedBits := if_pos h

/-- The reserved bits of each format are those above its operand bits. -/
theorem reserved_eq : reservedZ = ~~~lowMask 0 ∧ reservedB = ~~~lowMask 8 ∧ reservedH = ~~~lowMask 16 ∧
    reservedD = ~~~lowMask 18 := by decide

/-- A word with a command's opcode is checked as its format says, and is that command with the word's
operands. -/
theorem decode_of_opcode {w : CmdWord} {i : Instr} (h : opOf w = i.opcode) :
    decode w =
      checkRegister (checkReserved (~~~lowMask (operandBits i)) (argOf w) (withArg (argOf w) i)) := by
  obtain ⟨hz, hb, hh, hd⟩ := reserved_eq
  rw [decode, h, hz, hb, hh, hd]
  cases i with
  | rd => rfl
  | insert | pload => rw [operandBits, checkReserved_of_noBitsFrom (noBitsFrom_all _)]; rfl
  | _ => exact Eq.symm (checkRegister_checkReserved_of_wf rfl _ _)

/-- A word with no command's opcode is illegal. -/
theorem opcode_or_illegal (w : CmdWord) :
    (∃ i : Instr, opOf w = i.opcode) ∨ decode w = .error .illegalOpcode := by
  unfold decode
  split
  next h => exact .inl ⟨.reset, BitVec.eq_of_toNat_eq h⟩
  next h => exact .inl ⟨.crcInit, BitVec.eq_of_toNat_eq h⟩
  next h => exact .inl ⟨.crcByte 0#8, BitVec.eq_of_toNat_eq h⟩
  next h => exact .inl ⟨.crcVerify 0#16, BitVec.eq_of_toNat_eq h⟩
  next h => exact .inl ⟨.frmReset, BitVec.eq_of_toNat_eq h⟩
  next h => exact .inl ⟨.frmPush 0#8, BitVec.eq_of_toNat_eq h⟩
  next h => exact .inl ⟨.frmDecode, BitVec.eq_of_toNat_eq h⟩
  next h => exact .inl ⟨.setdesc 0#8 0#8 .little false, BitVec.eq_of_toNat_eq h⟩
  next h => exact .inl ⟨.extract, BitVec.eq_of_toNat_eq h⟩
  next h => exact .inl ⟨.encBegin, BitVec.eq_of_toNat_eq h⟩
  next h => exact .inl ⟨.insert 0#64, BitVec.eq_of_toNat_eq h⟩
  next h => exact .inl ⟨.pload 0#64, BitVec.eq_of_toNat_eq h⟩
  next h => exact .inl ⟨.rd 0#8, BitVec.eq_of_toNat_eq h⟩
  next => exact .inr rfl

section
variable {w : CmdWord} {i : Instr} (hop : opOf w = i.opcode)
include hop

/-- A reserved bit is refused before the operands are looked at (R87). -/
theorem decode_reservedBits (h : ¬ noBitsFrom (operandBits i) (argOf w)) :
    decode w = .error .reservedBits := by
  rw [decode_of_opcode hop, checkReserved_of_not_noBitsFrom h, checkRegister]

/-- With no reserved bit the operands decide, and only a register number can be bad. -/
theorem decode_operands (h : noBitsFrom (operandBits i) (argOf w)) :
    decode w = if (withArg (argOf w) i).wf then .ok (withArg (argOf w) i) else .error .badRegister := by
  rw [decode_of_opcode hop, checkReserved_of_noBitsFrom h, checkRegister]

end

/-- What it takes for a word to decode to a command. -/
theorem decode_ok {w : CmdWord} {j : Instr} (h : decode w = .ok j) :
    ∃ i : Instr, opOf w = i.opcode ∧ noBitsFrom (operandBits i) (argOf w) ∧ j = withArg (argOf w) i ∧
      j.wf = true := by
  rcases opcode_or_illegal w with ⟨i, hop⟩ | hill
  · by_cases hbits : noBitsFrom (operandBits i) (argOf w)
    · rw [decode_operands hop hbits] at h
      split at h
      next hwf => exact ⟨i, hop, hbits, (Except.ok.inj h).symm, Except.ok.inj h ▸ hwf⟩
      next => contradiction
    · rw [decode_reservedBits hop hbits] at h
      contradiction
  · rw [hill] at h
    contradiction

/-! ## Decoding and encoding are inverse (R85, R88) -/

/-- Settles O14: the word has the command's opcode, its argument no reserved bit, and the operands of that
argument are the command's. -/
theorem decodeOfEncode : Obligations.DecodeOfEncode := by
  intro i hwf
  have hbits : noBitsFrom (operandBits i) (argOf (encode i)) := (argOf_encode i).symm ▸ noBitsFrom_arg i
  rw [decode_operands (opOf_encode i) hbits, argOf_encode, withArg_arg, if_pos hwf]

/-- Settles O15: a word that decodes has no bit but its opcode and the operands, and those are the command's. -/
theorem encodeOfDecode : Obligations.EncodeOfDecode := by
  intro w j h
  obtain ⟨i, hop, hbits, rfl, hwf⟩ := decode_ok h
  refine ⟨?_, hwf⟩
  rw [encode, opcode_withArg, arg_withArg hbits, ← hop, cmdWord_opOf_argOf]

/-- Settles O16: the seven words are the encodings of their commands; the two others fail in the opcode map and
in the check of format Z. -/
theorem writtenWordsDecode : Obligations.WrittenWordsDecode :=
  ⟨decodeOfEncode .reset rfl, decodeOfEncode (.crcByte 0xA5#8) rfl, decodeOfEncode (.crcVerify 0xBB3D#16) rfl,
    decodeOfEncode (.frmPush 0x81#8) rfl, decodeOfEncode (.setdesc 0x04#8 0x0C#8 .big true) rfl,
    decodeOfEncode (.insert 0xFFFFFFFFFFFFFCFE#64) rfl, decodeOfEncode (.rd 0x0B#8) rfl, rfl,
    decode_reservedBits (i := .frmDecode) rfl fun h =>
      absurd ((noBitsFrom_zero_iff _).1 h) (by decide)⟩

end Sys2Proof.Machine
end

section
/-! PROOFS. What a presented word is answered with: the refusals of 30_encoding.md R86 and R87, the one response
of R81, and the step that takes the word (R85). -/

namespace Sys2Proof.Machine

/-! ## The step (R85) -/

/-- Settles O19: the state is the one in which the rest of the inputs wait and the host presents `w` next. -/
theorem stepRunsTheDecodedCommand : Obligations.StepRunsTheDecodedCommand := by
  intro s w rest i hin hd
  have hs : s = presentNext w { s with inputs := rest } := by rw [presentNext, ← hin]
  calc step s = issue w { s with inputs := rest } := congrArg step hs
    _ = exec i { s with inputs := rest } := issue_of_decode hd _

/-! ## Refused words (R86, R87) -/

/-- The thirteen opcodes (R84). -/
theorem opcode_toNat_mem (i : Instr) :
    i.opcode.toNat ∈
      [0x01, 0x10, 0x11, 0x12, 0x20, 0x21, 0x22, 0x30, 0x31, 0x32, 0x33, 0x34, 0x40] := by
  cases i <;> simp [Instr.opcode]

/-- Settles O17: none of the thirteen opcodes lies in the ranges. -/
theorem illegalOpcodesChangeNothing : Obligations.IllegalOpcodesChangeNothing := by
  intro w s hrange
  rcases opcode_or_illegal w with ⟨i, hop⟩ | hill
  · have hmem := opcode_toNat_mem i
    rw [← hop] at hmem
    simp only [List.mem_cons, List.not_mem_nil, or_false] at hmem
    omega
  · exact issue_of_error hill s

/-- A word with a command's opcode and a set bit above its format's operands is refused. -/
theorem issue_reserved {w : CmdWord} {f : Nat} (hop : ∃ i : Instr, opOf w = i.opcode ∧ operandBits i = f)
    (h : ¬ noBitsFrom f (argOf w)) (s : State) : issue w s = .next (s.refused .eArg) := by
  obtain ⟨i, hop, rfl⟩ := hop
  exact issue_of_error (decode_reservedBits hop h) s

/-- `RD` of a register number that is not in the table of 10_state.md R25 is refused. -/
theorem issue_badRegister {w : CmdWord} (hop : opOf w = 0x40#8)
    (h : 0x0B < ((argOf w).extractLsb' 0 8).toNat) (s : State) : issue w s = .next (s.refused .eArg) := by
  by_cases hbits : noBitsFrom 8 (argOf w)
  · have hd := decode_operands (i := .rd 0#8) hop hbits
    rw [if_neg (by simpa [withArg, Instr.wf] using h)] at hd
    exact issue_of_error hd s
  · exact issue_reserved ⟨.rd 0#8, hop, rfl⟩ hbits s

/-- A presented word answers with the status of its effect and no other. -/
theorem answered_iff_of_issue {w : CmdWord} {s t : State} (h : issue w s = .next t) (st : Status) :
    answered s t st ↔ (wordEffect w s.regs).response.status = st := by
  rw [issue_after, Host.Outcome.next.injEq] at h
  rw [← h]
  exact answered_iff (after_responses s _ _) st

theorem effectOf_insert_ne_eArg (v : Word) (r : Regs) :
    (effectOf (.insert v) r).response.status ≠ .eArg := by
  rcases effectOf_insert_cases r v with ⟨_, h⟩ | ⟨_, h | h | h⟩ | ⟨h, _⟩ <;> rw [h] <;> exact nofun

/-- `INSERT` and `PLOAD` have no reserved bit to refuse. -/
theorem wordEffect_ne_eArg {w : CmdWord} (hop : opOf w = 0x33#8 ∨ opOf w = 0x34#8) (r : Regs) :
    (wordEffect w r).response.status ≠ .eArg := by
  rcases hop with hop | hop
  · rw [wordEffect_of_decode (decode_operands (i := .insert 0#64) hop (noBitsFrom_all _))]
    exact effectOf_insert_ne_eArg _ r
  · rw [wordEffect_of_decode (decode_operands (i := .pload 0#64) hop (noBitsFrom_all _))]
    exact nofun

/-- The six opcodes of format Z. -/
theorem formatZ_of_mem {op : Byte} (h : op ∈ [0x01#8, 0x10#8, 0x20#8, 0x22#8, 0x31#8, 0x32#8]) :
    ∃ i : Instr, op = i.opcode ∧ operandBits i = 0 := by
  simp only [List.mem_cons, List.not_mem_nil, or_false] at h
  rcases h with rfl | rfl | rfl | rfl | rfl | rfl
  · exact ⟨.reset, rfl, rfl⟩
  · exact ⟨.crcInit, rfl, rfl⟩
  · exact ⟨.frmReset, rfl, rfl⟩
  · exact ⟨.frmDecode, rfl, rfl⟩
  · exact ⟨.extract, rfl, rfl⟩
  · exact ⟨.encBegin, rfl, rfl⟩

/-- The three opcodes of formats B and R. -/
theorem formatB_of_mem {op : Byte} (h : op ∈ [0x11#8, 0x21#8, 0x40#8]) :
    ∃ i : Instr, op = i.opcode ∧ operandBits i = 8 := by
  simp only [List.mem_cons, List.not_mem_nil, or_false] at h
  rcases h with rfl | rfl | rfl
  · exact ⟨.crcByte 0#8, rfl, rfl⟩
  · exact ⟨.frmPush 0#8, rfl, rfl⟩
  · exact ⟨.rd 0#8, rfl, rfl⟩

/-- Settles O18: format by format the reserved field starts where the operand bits end; then RD's register
numbers, and the two commands of format V. -/
theorem reservedBitsAreRefused : Obligations.ReservedBitsAreRefused := by
  refine ⟨fun w s hop h => issue_reserved (formatZ_of_mem hop) (mt (noBitsFrom_zero_iff _).1 h) s,
    fun w s hop h => issue_reserved (formatB_of_mem hop) (not_noBitsFrom_of_field (by decide) h) s,
    fun w s hop h => issue_reserved ⟨.crcVerify 0#16, hop, rfl⟩ (not_noBitsFrom_of_field (by decide) h) s,
    fun w s hop h => issue_reserved ⟨.setdesc 0#8 0#8 .little false, hop, rfl⟩
      (not_noBitsFrom_of_field (by decide) h) s,
    fun w s hop h => issue_badRegister hop h s, fun w s t hop h ha => ?_⟩
  exact wordEffect_ne_eArg (by simpa using hop) s.regs ((answered_iff_of_issue h _).1 ha)

/-! ## The one response (R81) -/

theorem effectOf_frmDecode_data (r : Regs) : (effectOf .frmDecode r).response.data = 0#64 := by
  rcases frmDecodeEffect_cases r with ⟨_, h⟩ | ⟨_, _, h⟩ | ⟨_, _, h⟩ <;> rw [effectOf, h] <;> rfl

theorem effectOf_insert_data (v : Word) (r : Regs) : (effectOf (.insert v) r).response.data = 0#64 := by
  rcases insertEffect_cases Config.beStartNumbering v r with
    ⟨_, h⟩ | ⟨_, _, h⟩ | ⟨_, _, _, h⟩ | ⟨_, _, _, _, h⟩ | ⟨_, _, _, _, h⟩ <;> rw [effectOf, h] <;> rfl

/-- Only `CRC_VERIFY`, `EXTRACT` and `RD` have a result. -/
theorem effectOf_data_eq_zero {i : Instr} (hverify : i.opcode ≠ 0x12#8) (hextract : i.opcode ≠ 0x31#8)
    (hrd : i.opcode ≠ 0x40#8) (r : Regs) : (effectOf i r).response.data = 0#64 := by
  cases i with
  | crcVerify => exact absurd rfl hverify
  | extract => exact absurd rfl hextract
  | rd => exact absurd rfl hrd
  | frmDecode => exact effectOf_frmDecode_data r
  | insert v => exact effectOf_insert_data v r
  | _ => rfl

/-- A command that is not answered with OK has data 0. -/
theorem effectOf_dataRule (i : Instr) (r : Regs) : (effectOf i r).response.dataRule := by
  cases i with
  | frmDecode => exact fun _ => effectOf_frmDecode_data r
  | insert v => exact fun _ => effectOf_insert_data v r
  | extract =>
    rcases extractEffect_cases Config.beStartNumbering r with ⟨_, h⟩ | ⟨_, _, h⟩ | ⟨_, _, h⟩ <;>
      simp [effectOf, h]
  | rd n =>
    rcases rdEffect_cases n r with ⟨_, h⟩ | ⟨_, _, _, h⟩ | ⟨_, _, h⟩ | ⟨_, h⟩ <;> simp [effectOf, h]
  | _ => exact dataRule_ok _

/-- A word that decodes has its command's opcode. -/
theorem opOf_of_decode {w : CmdWord} {i : Instr} (h : decode w = .ok i) : opOf w = i.opcode := by
  rw [← (encodeOfDecode w i h).1, opOf_encode]

theorem wordEffect_dataRule (w : CmdWord) (r : Regs) : (wordEffect w r).response.dataRule := by
  cases h : decode w with
  | ok i => exact wordEffect_of_decode h r ▸ effectOf_dataRule i r
  | error e => exact wordEffect_of_error h r ▸ dataRule_zero _

theorem wordEffect_data_eq_zero {w : CmdWord} (hverify : opOf w ≠ 0x12#8) (hextract : opOf w ≠ 0x31#8)
    (hrd : opOf w ≠ 0x40#8) (r : Regs) : (wordEffect w r).response.data = 0#64 := by
  cases h : decode w with
  | ok i =>
    rw [opOf_of_decode h] at hverify hextract hrd
    rw [wordEffect_of_decode h, effectOf_data_eq_zero hverify hextract hrd]
  | error e => rw [wordEffect_of_error h, raise_response]

/-- Settles O21: the response is that of the word's effect, and its word is laid out as a command word is. -/
theorem everyCommandGivesOneResponse : Obligations.EveryCommandGivesOneResponse := fun w s =>
  ⟨_, _, issue_after w s, opOf_cmdWord _ _, argOf_cmdWord _ _, wordEffect_dataRule w s.regs,
    fun hverify hextract hrd => wordEffect_data_eq_zero hverify hextract hrd s.regs⟩

end Sys2Proof.Machine
end

section
/-! PROOFS. The pseudo-commands `CHECKSUM` and `VERIFY` (30_encoding.md R100) compute the functions of
40_crc.md R116 and R117. -/

namespace Sys2Proof.Machine

/-- The `CRC_BYTE`s step the CRC register through the bytes and write no other. -/
theorem ranAll_crcByte_regs (bytes : List Byte) (s : State) :
    (s.ranAll (bytes.map .crcByte)).regs = { s.regs with crc := crcFrom s.regs.crc bytes } := by
  induction bytes generalizing s with
  | nil => rfl
  | cons b bytes ih =>
    rw [List.map_cons, ranAll_cons, ih, ran_regs, effectOf_crcByte_regs, crcFrom_cons]

/-- From every state, `CRC_INIT` and the `CRC_BYTE`s leave the checksum of the bytes in CRC. -/
theorem ranAll_crcCommands_regs (bytes : List Byte) (s : State) :
    (s.ranAll (.crcInit :: bytes.map .crcByte)).regs = { s.regs with crc := checksum bytes } := by
  rw [ranAll_cons, ranAll_crcByte_regs, ran_regs, effectOf_crcInit_regs, checksum_eq]

/-- A command that only reads, after `CRC_INIT` and the `CRC_BYTE`s, answers from the registers whose CRC is the
checksum. -/
theorem runInstrs_crcCommands (bytes : List Byte) (s : State) {i : Instr} (hwf : i.wf = true)
    (hread : ∀ r, (effectOf i r).regs = r) :
    ∃ t, runInstrs (.crcInit :: bytes.map .crcByte ++ [i]) s = .next t ∧
      t.responses.getLast? = some (effectOf i { s.regs with crc := checksum bytes }).response ∧
      t.regs = { s.regs with crc := checksum bytes } := by
  have hlegal : ∀ j ∈ Instr.crcInit :: bytes.map .crcByte ++ [i], decode (encode j) = .ok j := by
    simp only [List.cons_append, List.forall_mem_cons, List.forall_mem_append, List.forall_mem_map]
    exact ⟨rfl, fun b _ => decodeOfEncode _ rfl, decodeOfEncode i hwf, List.forall_mem_nil _⟩
  refine ⟨_, runInstrs_eq hlegal s, ?_, ?_⟩
  · rw [ranAll_append, ranAll_cons, ranAll_nil, getLast_ran, ranAll_crcCommands_regs]
  · rw [ranAll_append, ranAll_cons, ranAll_nil, ran_regs, hread, ranAll_crcCommands_regs]

/-- Settles O39: the last command, `RD CRC` or `CRC_VERIFY`, reads the checksum that the others leave. -/
theorem checksumAndVerifyByCommands : Obligations.ChecksumAndVerifyByCommands :=
  ⟨fun bytes s => runInstrs_crcCommands bytes s rfl (effectOf_rd_regs · regCrc),
    fun bytes e s => runInstrs_crcCommands bytes s rfl (effectOf_crcVerify_regs · e)⟩

end Sys2Proof.Machine
end

section
/-! PROOFS. The commands of the CRC engine, `CRC_INIT`, `CRC_BYTE` and `CRC_VERIFY` (40_crc.md R118 to R120), as
commands and as presented words. -/

namespace Sys2Proof.Machine

/-- A word with the opcode of `i` runs `i` with the word's operands, once its format's reserved bits are 0; of
use for every command but `RD`, whose register number is checked too. -/
theorem wordRuns_withArg (i : Instr) (hwf : ∀ x, (withArg x i).wf = true) :
    wordRuns i.opcode (~~~lowMask (operandBits i)) (withArg · i) := by
  intro w s hop
  by_cases hbits : noBitsFrom (operandBits i) (argOf w)
  · have hd := (decode_operands hop hbits).trans (if_pos (hwf _))
    exact (issue_of_decode hd s).trans (if_neg (not_not.2 hbits)).symm
  · exact (issue_of_error (decode_reservedBits hop hbits) s).trans (if_pos hbits).symm

/-- Settles O2: the effect of `CRC_INIT`, and the words of format Z with its opcode. -/
theorem crcInitClearsOnlyCrc : Obligations.CrcInitClearsOnlyCrc :=
  ⟨exec_after .crcInit, wordRuns_withArg .crcInit fun _ => rfl⟩

/-- Settles O3: the effect of `CRC_BYTE`, and the words of format B with its opcode. -/
theorem crcByteStepsOnlyCrc : Obligations.CrcByteStepsOnlyCrc :=
  ⟨fun b => exec_after (.crcByte b), wordRuns_withArg (.crcByte 0#8) fun _ => rfl⟩

/-- Settles O4: the effect of `CRC_VERIFY`, and the words of format H with its opcode. -/
theorem crcVerifyComparesAndChangesNothing : Obligations.CrcVerifyComparesAndChangesNothing :=
  ⟨fun e => exec_after (.crcVerify e), wordRuns_withArg (.crcVerify 0#16) fun _ => rfl⟩

end Sys2Proof.Machine
end

section
/-! PROOFS. The CRC step in serial form, and bit by bit: the sixteen equations of the parallel form
(40_crc.md R111, R112, R115). The polynomial has the taps 0, 13 and 15. A bit between taps only moves down, so
the bits that the three taps feed determine all the others. -/

namespace Sys2Proof.Machine

/-- Settles O31: the polynomial is 0xA001, and the eight bit steps are written out. -/
theorem serialFormOfTheCrcStep : Obligations.SerialFormOfTheCrcStep :=
  ⟨fun _ => rfl, fun _ _ => by simp only [crcUpdate, bitsteps_succ, bitsteps_zero]⟩

theorem bitsteps_succ_last (n : Nat) (x : Word16) : bitsteps (n + 1) x = bitstep (bitsteps n x) := by
  induction n generalizing x with
  | zero => rfl
  | succ n ih => rw [bitsteps_succ, ih, ← bitsteps_succ]

/-- A bit step moves every bit down by one and adds bit 0 at the taps. -/
theorem getLsbD_bitstep (x : Word16) (i : Nat) :
    (bitstep x).getLsbD i = (x.getLsbD (i + 1) ^^ (x.getLsbD 0 && Config.crcPoly.getLsbD i)) := by
  unfold bitstep
  cases x.getLsbD 0 <;> simp [Nat.add_comm]

section
variable (x : Word16)

theorem getLsbD_bitsteps_of_tap (n : Nat) {i : Nat} (hi : Config.crcPoly.getLsbD i = true) :
    (bitsteps (n + 1) x).getLsbD i = ((bitsteps n x).getLsbD (i + 1) ^^ (bitsteps n x).getLsbD 0) := by
  rw [bitsteps_succ_last, getLsbD_bitstep, hi, Bool.and_true]

theorem getLsbD_bitsteps_of_no_tap (n : Nat) {i : Nat} (hi : Config.crcPoly.getLsbD i = false) :
    (bitsteps (n + 1) x).getLsbD i = (bitsteps n x).getLsbD (i + 1) := by
  rw [bitsteps_succ_last, getLsbD_bitstep, hi, Bool.and_false, Bool.xor_false]

theorem crcPoly_between_taps {i : Nat} (h1 : 1 ≤ i) (h12 : i ≤ 12) : Config.crcPoly.getLsbD i = false := by
  interval_cases i <;> rfl

/-- On the way from bit 13 to bit 1 nothing is added. -/
theorem getLsbD_bitsteps_between_taps (m n : Nat) {i : Nat} (h1 : 1 ≤ i) (h13 : i + n ≤ 13) :
    (bitsteps (m + n) x).getLsbD i = (bitsteps m x).getLsbD (i + n) := by
  induction n generalizing i with
  | zero => rfl
  | succ n ih =>
    rw [← Nat.add_assoc, getLsbD_bitsteps_of_no_tap x _ (crcPoly_between_taps h1 (by omega)),
      ih (by omega) (by omega), Nat.add_right_comm, Nat.add_assoc]

/-- The XOR of the bits 0 to `n`. -/
def lowParity : Nat → Bool
  | 0 => x.getLsbD 0
  | n + 1 => lowParity n ^^ x.getLsbD (n + 1)

/-- The bit that step `n + 1` adds at the taps. -/
theorem getLsbD_bitsteps_0 {n : Nat} (hn : n ≤ 13) : (bitsteps n x).getLsbD 0 = lowParity x n := by
  induction n with
  | zero => rfl
  | succ n ih =>
    have hmoved : (bitsteps n x).getLsbD 1 = x.getLsbD (n + 1) := by
      simpa [Nat.add_comm] using getLsbD_bitsteps_between_taps x 0 n le_rfl (by omega)
    rw [getLsbD_bitsteps_of_tap x n rfl, hmoved, ih (by omega), lowParity, Bool.xor_comm]

theorem getLsbD_bitsteps_15 {n : Nat} (hn : n ≤ 13) : (bitsteps (n + 1) x).getLsbD 15 = lowParity x n := by
  rw [getLsbD_bitsteps_of_tap x n rfl, getLsbD_bitsteps_0 x hn, BitVec.getLsbD_of_ge _ _ le_rfl,
    Bool.false_xor]

theorem getLsbD_bitsteps_14 (n : Nat) : (bitsteps (n + 1) x).getLsbD 14 = (bitsteps n x).getLsbD 15 :=
  getLsbD_bitsteps_of_no_tap x n rfl

/-- The bits 6 to 13 after eight steps are those that passed the tap 13 in step `k + 1`. -/
theorem getLsbD_bitsteps_8_tapped {k : Nat} (hk : k ≤ 7) :
    (bitsteps 8 x).getLsbD (6 + k) = ((bitsteps k x).getLsbD 14 ^^ lowParity x k) := by
  have hmoved := getLsbD_bitsteps_between_taps x (k + 1) (7 - k) (i := 6 + k) (by omega) (by omega)
  rw [(by omega : k + 1 + (7 - k) = 8), (by omega : 6 + k + (7 - k) = 13)] at hmoved
  rw [hmoved, getLsbD_bitsteps_of_tap x k rfl, getLsbD_bitsteps_0 x (by omega)]

/-- From bit 8 on both parts are parities, two bits apart. -/
theorem getLsbD_bitsteps_8_adjacent {i : Nat} (h8 : 8 ≤ i) (h13 : i ≤ 13) :
    (bitsteps 8 x).getLsbD i = (x.getLsbD (i - 7) ^^ x.getLsbD (i - 6)) := by
  obtain ⟨k, rfl⟩ := Nat.exists_eq_add_of_le h8
  rw [(by omega : 8 + k - 7 = k + 1), (by omega : 8 + k - 6 = k + 2), (by omega : 8 + k = 6 + (k + 2)),
    getLsbD_bitsteps_8_tapped x (by omega), getLsbD_bitsteps_14, getLsbD_bitsteps_15 x (by omega), lowParity,
    lowParity]
  cases lowParity x k <;> simp

end

theorem getLsbD_crcInput (r : Word16) (b : Byte) (k : Nat) :
    (r ^^^ b.setWidth 16).getLsbD k = (r.getLsbD k ^^ b.getLsbD k) := by
  rw [BitVec.getLsbD_xor, BitVec.getLsbD_setWidth]
  by_cases hk : k < 16
  · rw [decide_eq_true hk, Bool.true_and]
  · rw [decide_eq_false hk, Bool.false_and, BitVec.getLsbD_of_ge b k (by omega)]

/-- The equations of R115, in the order in which R115 gives them. -/
theorem getLsbD_crcUpdate (r : Word16) (b : Byte) {i : Nat} (hi : i < 16) :
    (crcUpdate r b).getLsbD i = parallelBit r b i := by
  have hx := getLsbD_crcInput r b
  have hhigh : ∀ k, 8 ≤ k → r.getLsbD k = (r ^^^ b.setWidth 16).getLsbD k := fun k hk => by
    rw [hx, BitVec.getLsbD_of_ge b k hk, Bool.xor_false]
  simp only [crcUpdate, parallelBit, ← hx]
  generalize r ^^^ b.setWidth 16 = x at hhigh
  simp (disch := decide) only [hhigh]
  interval_cases i
  · exact getLsbD_bitsteps_0 x (n := 8) (by decide)
  iterate 5 exact getLsbD_bitsteps_between_taps x 0 8 (by decide) (by decide)
  · exact (getLsbD_bitsteps_8_tapped x (k := 0) (by decide)).trans (Bool.xor_comm _ _)
  · rw [getLsbD_bitsteps_8_tapped x (k := 1) (by decide), getLsbD_bitsteps_14, Bool.xor_comm]
    rfl
  iterate 6 exact getLsbD_bitsteps_8_adjacent x (by decide) (by decide)
  · exact (getLsbD_bitsteps_14 x 7).trans (getLsbD_bitsteps_15 x (by decide))
  · exact getLsbD_bitsteps_15 x (n := 7) (by decide)

theorem getLsbD_crcUpdateParallel (r : Word16) (b : Byte) {i : Nat} (hi : i < 16) :
    (crcUpdateParallel r b).getLsbD i = parallelBit r b i := by
  refine BitVec.getLsbD_ofBoolListLE.trans ?_
  simp [List.getD_eq_getElem?_getD, hi]

/-- Settles O34: both words have the bits that the equations give. -/
theorem parallelFormEqualsSerialForm : Obligations.ParallelFormEqualsSerialForm := fun r b =>
  ⟨BitVec.eq_of_getLsbD_eq fun _ hi =>
      (getLsbD_crcUpdateParallel r b hi).trans (getLsbD_crcUpdate r b hi).symm,
    fun _ hi => getLsbD_crcUpdate r b hi⟩

end Sys2Proof.Machine
end

section
/-! PROOFS. The byte step: linear over XOR, and the table form (40_crc.md R113, R114, R121 item 1). -/

namespace Sys2Proof.Machine

/-- Settles O36: a byte step is eight bit steps of a word that is linear in the register and the byte. -/
theorem crcStepIsLinear : Obligations.CrcStepIsLinear := by
  refine ⟨fun r1 r2 b1 b2 => ?_, by decide⟩
  have hinput : (r1 ^^^ r2) ^^^ (b1 ^^^ b2).setWidth 16 =
      (r1 ^^^ b1.setWidth 16) ^^^ (r2 ^^^ b2.setWidth 16) := by
    rw [BitVec.setWidth_xor]
    ac_rfl
  rw [crcUpdate, hinput, bitsteps_xor, ← crcUpdate, ← crcUpdate]

/-- While the bits that leave are 0, the steps only shift. -/
theorem bitsteps_eq_shift (n : Nat) (x : Word16) (h : ∀ i < n, x.getLsbD i = false) :
    bitsteps n x = x >>> n := by
  induction n generalizing x with
  | zero => exact (BitVec.ushiftRight_zero x).symm
  | succ n ih =>
    have hstep : bitstep x = x >>> 1 := by rw [bitstep, h 0 n.succ_pos, if_neg Bool.false_ne_true]
    have hlow : ∀ i < n, (x >>> 1).getLsbD i = false := fun i hi => by
      rw [BitVec.getLsbD_ushiftRight, Nat.add_comm]
      exact h _ (by omega)
    rw [bitsteps_succ, hstep, ih _ hlow, ← BitVec.shiftRight_add, Nat.add_comm]

/-- Adding its low byte to a word clears the low byte. -/
theorem getLsbD_xor_lowByte (x : Word16) (i : Nat) :
    (x ^^^ (x.extractLsb' 0 8).setWidth 16).getLsbD i = (!decide (i < 8) && x.getLsbD i) := by
  by_cases hi : i < 8
  · simp [hi, (by omega : i < 16)]
  · simp [hi]

/-- Eight bit steps shift the high byte down; the low byte's steps are added. -/
theorem bitsteps_8_eq_shift_xor (x : Word16) :
    bitsteps 8 x = x >>> 8 ^^^ bitsteps 8 ((x.extractLsb' 0 8).setWidth 16) := by
  have hhigh : bitsteps 8 (x ^^^ (x.extractLsb' 0 8).setWidth 16) = x >>> 8 := by
    rw [bitsteps_eq_shift 8 _ fun i hi => by rw [getLsbD_xor_lowByte, decide_eq_true hi]; rfl]
    exact BitVec.eq_of_getLsbD_eq fun i _ => by simp [getLsbD_xor_lowByte, -BitVec.getLsbD_xor]
  rw [← hhigh, bitsteps_xor, BitVec.xor_assoc, BitVec.xor_self, BitVec.xor_zero]

theorem crcUpdate_eq_shift_xor (r : Word16) (b : Byte) :
    crcUpdate r b = r >>> 8 ^^^ crcUpdate 0#16 ((r ^^^ b.setWidth 16).extractLsb' 0 8) := by
  have hhigh : (r ^^^ b.setWidth 16) >>> 8 = r >>> 8 := BitVec.eq_of_getLsbD_eq fun i _ => by simp
  rw [crcUpdate, bitsteps_8_eq_shift_xor, hhigh, crcUpdate, BitVec.zero_xor]

/-- The 256 printed entries, each compared with the function: the kernel evaluates both lists. -/
theorem crcTable_eq : crcTable = (List.range 256).map fun i => crcUpdate 0#16 (BitVec.ofNat 8 i) := by
  decide +kernel

theorem tableEntry_eq (i : Byte) : tableEntry i = crcUpdate 0#16 i := by
  simp [tableEntry, crcTable_eq, List.getD_eq_getElem?_getD, i.isLt]

/-- Settles O32: the printed list is the list of the 256 values. -/
theorem printedTableIsTheCrcOfEachByte : Obligations.PrintedTableIsTheCrcOfEachByte :=
  ⟨by rw [crcTable_eq, List.length_map, List.length_range], tableEntry_eq⟩

/-- Settles O33: the high byte is shifted down, and the table gives the steps of the low byte. -/
theorem tableFormEqualsSerialForm : Obligations.TableFormEqualsSerialForm := fun r b => by
  rw [tableEntry_eq, crcUpdate_eq_shift_xor]

end Sys2Proof.Machine
end

section
/-! PROOFS. The checksum of a byte sequence: the bytes in order, the appended checksum, and a flipped bit
(40_crc.md R116, R121 items 2 and 3). -/

namespace Sys2Proof.Machine

/-! ## The bytes in order (R116) -/

theorem checksum_append (m n : List Byte) : checksum (m ++ n) = crcFrom (checksum m) n :=
  crcFrom_append _ m n

/-- Settles O35; the last clause evaluates the document's check value. -/
theorem checksumFoldsTheBytes : Obligations.ChecksumFoldsTheBytes :=
  ⟨rfl, fun m b => checksum_append m [b], by decide +kernel⟩

/-! ## The appended checksum (R121 item 2) -/

/-- The register's own low byte shifts it down. -/
theorem crcUpdate_lowByte (r : Word16) : crcUpdate r (r.extractLsb' 0 8) = r >>> 8 := by
  have hlow : (r ^^^ (r.extractLsb' 0 8).setWidth 16).extractLsb' 0 8 = 0#8 :=
    BitVec.eq_of_getLsbD_eq fun i hi => by simp [hi, getLsbD_xor_lowByte, -BitVec.getLsbD_xor]
  rw [crcUpdate_eq_shift_xor, hlow, crcStepIsLinear.2, BitVec.xor_zero]

/-- Settles O37: the low byte shifts the register down, and the high byte is what is left in it. -/
theorem appendedChecksumLeavesZero : Obligations.AppendedChecksumLeavesZero := by
  intro m
  generalize hc : checksum m = c
  have hlow : (c >>> 8).extractLsb' 0 8 = c.extractLsb' 8 8 :=
    BitVec.eq_of_getLsbD_eq fun i hi => by simp [hi]
  calc checksum (m ++ [c.extractLsb' 0 8, c.extractLsb' 8 8])
      = crcUpdate (crcUpdate c (c.extractLsb' 0 8)) (c.extractLsb' 8 8) := hc ▸ checksum_append m _
    _ = crcUpdate (c >>> 8) ((c >>> 8).extractLsb' 0 8) := by rw [crcUpdate_lowByte, hlow]
    _ = c >>> 8 >>> 8 := crcUpdate_lowByte _
    _ = 0x0000#16 := by rw [← BitVec.shiftRight_add, BitVec.ushiftRight_eq_zero (by decide)]

/-! ## A flipped bit (R121 item 3) -/

/-- Bit 15 after a bit step is bit 0 before it, and with bit 0 known the other bits are read back. -/
theorem bitstep_injective : Function.Injective bitstep := by
  intro x y h
  have hbit (i : Nat) := congrArg (·.getLsbD i) h
  simp only [getLsbD_bitstep] at hbit
  have h0 : x.getLsbD 0 = y.getLsbD 0 := by
    have htap : Config.crcPoly.getLsbD 15 = true := rfl
    simpa only [htap, Bool.and_true, BitVec.getLsbD_of_ge _ 16 le_rfl, Bool.false_xor] using hbit 15
  refine BitVec.eq_of_getLsbD_eq fun i _ => ?_
  cases i with
  | zero => exact h0
  | succ i => simpa only [h0, Bool.xor_right_inj, Bool.xor_left_inj] using hbit i

theorem bitsteps_injective (n : Nat) : Function.Injective (bitsteps n) := by
  induction n with
  | zero => exact Function.injective_id
  | succ n ih => exact ih.comp bitstep_injective

theorem crcUpdate_left_injective (b : Byte) : Function.Injective (crcUpdate · b) := fun _ _ h =>
  (BitVec.xor_left_inj _).1 (bitsteps_injective 8 h)

theorem crcUpdate_right_injective (r : Word16) : Function.Injective (crcUpdate r) := fun b c h => by
  have hwide : b.setWidth 16 = c.setWidth 16 := (BitVec.xor_right_inj r).1 (bitsteps_injective 8 h)
  simpa using congrArg (·.setWidth 8) hwide

/-- Registers that differ still differ after the same bytes. -/
theorem crcFrom_injective (m : List Byte) : Function.Injective (crcFrom · m) := by
  induction m with
  | nil => exact Function.injective_id
  | cons b m ih => exact ih.comp (crcUpdate_left_injective b)

/-- Settles O38: the flipped byte leaves another register, and the bytes after it do not make the two equal
again. -/
theorem singleBitErrorChangesTheChecksum : Obligations.SingleBitErrorChangesTheChecksum := by
  intro pre post b j hj h
  rw [checksum_append, checksum_append, crcFrom_cons, crcFrom_cons] at h
  have hbyte := crcUpdate_right_injective _ (crcFrom_injective post h)
  have hbit := congrArg (·.getLsbD j) hbyte
  simp [hj] at hbit

end Sys2Proof.Machine
end

section
/-! PROOFS. The commands of the frame parser, `FRM_RESET`, `FRM_PUSH` and `FRM_DECODE` (41_frame.md R131, R132,
R134), as commands and as presented words, and the count of the pushes (R133). -/

namespace Sys2Proof.Machine

/-! ## The three commands -/

/-- Settles O5: the effect of `FRM_RESET`, and the words of format Z with its opcode. -/
theorem frmResetStartsAFrame : Obligations.FrmResetStartsAFrame :=
  ⟨exec_after .frmReset, wordRuns_withArg .frmReset fun _ => rfl⟩

/-- A push writes at FLEN while the buffer has room there. -/
theorem read_effectOf_frmPush (b : Byte) (r : Regs) (a : Nat) :
    (effectOf (.frmPush b) r).regs.fbuf.read a =
      if r.flen.toNat < 12 ∧ a = r.flen.toNat then b else r.fbuf.read a := by
  rw [effectOf_frmPush_regs]
  by_cases hroom : r.flen.toNat < 12
  · simp only [hroom, if_true, true_and, Memory.read_write]
  · simp only [hroom, if_false, false_and]

/-- Settles O6: the effect of `FRM_PUSH` read byte by byte, and the words of format B with its opcode. -/
theorem frmPushStoresAtFlenAndSaturates : Obligations.FrmPushStoresAtFlenAndSaturates :=
  ⟨fun b s => ⟨_, exec_after (.frmPush b) s, read_effectOf_frmPush b s.regs, nextFlen_toNat s.regs.flen, rfl⟩,
    wordRuns_withArg (.frmPush 0#8) fun _ => rfl⟩

section
variable {r : Regs}

theorem effectOf_frmDecode_of_length (hlen : r.flen ≠ 12#4) :
    effectOf .frmDecode r = raise .eLength (dropFrame r) := by
  have hlen' : r.flen.toNat ≠ 12 := fun h => hlen (BitVec.eq_of_toNat_eq h)
  rcases frmDecodeEffect_cases r with ⟨_, h⟩ | ⟨h12, _⟩ | ⟨h12, _⟩
  · exact h
  · exact absurd h12 hlen'
  · exact absurd h12 hlen'

theorem effectOf_frmDecode_of_checksum (hlen : r.flen = 12#4)
    (hsum : checksum (frameCovered r.fbuf) ≠ frameChecksum r.fbuf) :
    effectOf .frmDecode r = raise .eCrc (dropFrame r) := by
  rcases frmDecodeEffect_cases r with ⟨hl, _⟩ | ⟨_, _, h⟩ | ⟨_, hc, _⟩
  · exact absurd (congrArg BitVec.toNat hlen) hl
  · exact h
  · exact absurd hc hsum

theorem effectOf_frmDecode_of_agrees (hlen : r.flen = 12#4)
    (hsum : checksum (frameCovered r.fbuf) = frameChecksum r.fbuf) :
    effectOf .frmDecode r = accept (decodedRegs r) 0#64 := by
  rcases frmDecodeEffect_cases r with ⟨hl, _⟩ | ⟨_, hc, _⟩ | ⟨_, _, h⟩
  · exact absurd (congrArg BitVec.toNat hlen) hl
  · exact absurd hsum hc
  · exact h

end

/-- A command's end, from its effect. -/
theorem exec_of_effectOf {i : Instr} {s : State} {e : Effect} (h : effectOf i s.regs = e) :
    exec i s = .next (s.after e.regs e.response) := h ▸ exec_after i s

/-- Settles O7: the three outcomes of `FRM_DECODE`, and the words of format Z with its opcode. -/
theorem frmDecodeChecksLengthThenChecksum : Obligations.FrmDecodeChecksLengthThenChecksum :=
  ⟨fun _ hlen => exec_of_effectOf (effectOf_frmDecode_of_length hlen),
    fun _ hlen hsum => exec_of_effectOf (effectOf_frmDecode_of_checksum hlen hsum),
    fun _ hlen hsum => exec_of_effectOf (effectOf_frmDecode_of_agrees hlen hsum),
    wordRuns_withArg .frmDecode fun _ => rfl⟩

/-! ## The count of the pushes (R133) -/

theorem decode_encode_pushCommands (raw : List Byte) :
    ∀ i ∈ pushCommands raw, decode (encode i) = .ok i := fun i hi =>
  decode_encode_decodeCommands raw i (List.mem_append_left _ hi)

theorem FrameLoaded.flen_eq {raw : List Byte} {r : Regs} (h : FrameLoaded raw r) :
    r.flen.toNat = if raw.length ≤ 12 then raw.length else 13 := by
  rw [h.1]
  split <;> omega

theorem FrameLoaded.flen_eq_twelve_iff {raw : List Byte} {r : Regs} (h : FrameLoaded raw r) :
    r.flen = 12#4 ↔ raw.length = 12 := by
  have hlen := h.1
  rw [← BitVec.toNat_inj, hlen, BitVec.toNat_ofNat]
  omega

/-- Settles O40: what the pushes load; and a push word with a reserved bit is refused before it is a push. -/
theorem flenCountsThePushes : Obligations.FlenCountsThePushes := by
  refine ⟨fun raw s => ?_, fun w s hop hbits => issue_reserved ⟨.frmPush 0#8, hop, rfl⟩ hbits s⟩
  have hload := (ranAll_pushCommands raw s).1
  refine ⟨_, runInstrs_eq (decode_encode_pushCommands raw) s, hload.flen_eq, hload.flen_eq_twelve_iff,
    fun i hi => ?_⟩
  obtain ⟨hraw, h12⟩ := lt_min_iff.1 hi
  rw [hload.2 i h12 hraw, List.getElem?_eq_getElem hraw]

end Sys2Proof.Machine
end

section
/-! PROOFS. The frame function through the whole frame's checksum: a frame of twelve bytes decodes exactly when
the checksum of all twelve is 0 (40_crc.md R121 item 2). From that follow that built frames decode and that
damaged ones do not (41_frame.md R136, R138). -/

namespace Sys2Proof.Machine

/-! ## The two bytes of a word (R12) -/

theorem getLsbD_u16le (b0 b1 : Byte) (i : Nat) :
    (u16le b0 b1).getLsbD i = if i < 8 then b0.getLsbD i else b1.getLsbD (i - 8) := by
  have hlow : ¬ i < 8 → b0.getLsbD i = false := fun h => BitVec.getLsbD_of_ge b0 i (not_lt.1 h)
  have hhigh : ¬ i < 16 → b1.getLsbD (i - 8) = false := fun h => BitVec.getLsbD_of_ge b1 _ (by omega)
  simp only [u16le, BitVec.getLsbD_or, BitVec.getLsbD_setWidth, BitVec.getLsbD_shiftLeft]
  grind

/-- Splitting a word into its bytes, low byte first, and packing them gives the word. -/
theorem u16le_extractLsb' (h : Word16) : u16le (h.extractLsb' 0 8) (h.extractLsb' 8 8) = h := by
  refine BitVec.eq_of_getLsbD_eq fun i hi => ?_
  rw [getLsbD_u16le]
  split
  next h8 => simp [h8]
  next h8 => simp [(by omega : i - 8 < 8), (by omega : 8 + (i - 8) = i)]

theorem extractLsb'_u16le_low (b0 b1 : Byte) : (u16le b0 b1).extractLsb' 0 8 = b0 :=
  BitVec.eq_of_getLsbD_eq fun i hi => by simp [getLsbD_u16le, hi]

theorem ushiftRight_u16le (b0 b1 : Byte) : u16le b0 b1 >>> 8 = b1.setWidth 16 :=
  BitVec.eq_of_getLsbD_eq fun i hi => by simp [getLsbD_u16le, hi]

/-! ## The checksum of a whole frame -/

/-- A register's own bytes, low byte first, leave 0. -/
theorem crcFrom_u16le (b0 b1 : Byte) : crcFrom (u16le b0 b1) [b0, b1] = 0#16 := by
  have hlow : crcUpdate (u16le b0 b1) b0 = b1.setWidth 16 := by
    have h := crcUpdate_lowByte (u16le b0 b1)
    rwa [extractLsb'_u16le_low, ushiftRight_u16le] at h
  rw [crcFrom_cons, crcFrom_cons, crcFrom_nil, hlow, crcUpdate, BitVec.xor_self]
  decide

/-- Appended bytes leave 0 only when they are the checksum. -/
theorem checksum_append_eq_zero_iff (m : List Byte) (b0 b1 : Byte) :
    checksum (m ++ [b0, b1]) = 0#16 ↔ checksum m = u16le b0 b1 := by
  rw [checksum_append, ← crcFrom_u16le b0 b1]
  exact (crcFrom_injective [b0, b1]).eq_iff

/-- A frame is its covered bytes and the two bytes of the received checksum. -/
theorem take_ten_append {raw : List Byte} (h12 : raw.length = 12) :
    raw.take 10 ++ [raw.getD 10 0#8, raw.getD 11 0#8] = raw := by
  have hdrop : raw.drop 10 = [raw.getD 10 0#8, raw.getD 11 0#8] := by
    rw [List.drop_eq_getElem_cons (by omega), List.drop_eq_getElem_cons (by omega),
      List.drop_of_length_le (by omega)]
    simp [h12]
  rw [← hdrop, List.take_append_drop]

/-! ## The function -/

/-- The frame that twelve bytes show. -/
def shownFrame (raw : List Byte) : DecodedFrame where
  header := splitHeader (u16le (raw.getD 0 0#8) (raw.getD 1 0#8))
  payload := (raw.drop 2).take 8
  checksum := u16le (raw.getD 10 0#8) (raw.getD 11 0#8)

theorem decodeFrame_of_length_ne {raw : List Byte} (h : raw.length ≠ 12) :
    decodeFrame raw = .error .frameLength := if_pos h

theorem decodeFrame_of_length {raw : List Byte} (h12 : raw.length = 12) :
    decodeFrame raw = if checksum raw = 0#16 then .ok (shownFrame raw) else .error .crcMismatch := by
  have hsum := checksum_append_eq_zero_iff (raw.take 10) (raw.getD 10 0#8) (raw.getD 11 0#8)
  rw [take_ten_append h12] at hsum
  simp only [hsum, ← ite_not (checksum (raw.take 10) = _)]
  exact if_neg (not_not.2 h12)

/-- What it takes for a frame to decode. -/
theorem decodeFrame_ok {raw : List Byte} {f : DecodedFrame} (h : decodeFrame raw = .ok f) :
    raw.length = 12 ∧ checksum raw = 0#16 := by
  by_cases h12 : raw.length = 12
  · rw [decodeFrame_of_length h12] at h
    split at h
    next hsum => exact ⟨h12, hsum⟩
    next => contradiction
  · rw [decodeFrame_of_length_ne h12] at h
    contradiction

/-! ## Built frames (R136) -/

/-- Settles O42: the built frame ends with the checksum of the bytes before it, so the whole leaves 0; its header
bytes pack to the header word, whose fields O44 gives. -/
theorem builtFrameAlwaysDecodes : Obligations.BuiltFrameAlwaysDecodes := by
  intro h payload hlen
  have h12 : (buildFrame h payload).length = 12 := by simp [buildFrame, hlen]
  have hsum : checksum (buildFrame h payload) = 0#16 := appendedChecksumLeavesZero _
  have hheader : (shownFrame (buildFrame h payload)).header = splitHeader h :=
    congrArg splitHeader (u16le_extractLsb' h)
  obtain ⟨-, hdev, hmid, -⟩ := headerViewsRebuildTheHeader h
  refine ⟨shownFrame (buildFrame h payload), ?_, List.take_left' hlen, ?_⟩
  · rw [decodeFrame_of_length h12, if_pos hsum]
  · rw [hheader]
    exact ⟨hdev, hmid, rfl⟩

/-! ## Damaged frames (R138) -/

/-- Settles O43: with one bit flipped the checksum of the whole frame is no longer 0. -/
theorem damagedFramesAreRefused : Obligations.DamagedFramesAreRefused := by
  refine ⟨fun raw => decodeFrame_of_length_ne, fun raw f i j b hf hj hb => ?_⟩
  obtain ⟨h12, hsum⟩ := decodeFrame_ok hf
  obtain ⟨hi, hb⟩ := List.getElem?_eq_some_iff.1 hb
  have hsplit : raw = raw.take i ++ b :: raw.drop (i + 1) := by
    rw [← hb, List.getElem_cons_drop, List.take_append_drop]
  have hflip := singleBitErrorChangesTheChecksum (raw.take i) (raw.drop (i + 1)) b j hj
  rw [← hsplit, hsum] at hflip
  rw [decodeFrame_of_length (by rw [List.length_set, h12]), List.set_eq_take_append_cons_drop, if_pos hi,
    if_neg hflip]

end Sys2Proof.Machine
end

section
/-! PROOFS. The loop of `decode_signals` on the payload that the block holds (44_host_level.md R204, R205): one
signal after the other is recorded, up to the first whose descriptor is not valid; and the mapping and the
reports that the records make. -/

namespace Sys2Proof.Machine

/-! ## Mappings and records, whatever the block answers -/

section
variable {F : Type}

theorem mapGet_mapSet (m : List (String × F)) (name other : String) (x : F) :
    mapGet (mapSet m name x) other = if name = other then some x else mapGet m other := by
  induction m with
  | nil => rfl
  | cons e m ih =>
    by_cases hname : e.1 = name
    · simp only [mapSet, mapGet, hname, if_true]
      split <;> rfl
    · simp only [mapSet, mapGet, hname, if_false, ih]
      grind

variable (num : Num F) (n : BeStartNumbering) (payload : List Byte)

/-- A signal recorded with its value in the payload. -/
def Decoded.recordSignal (acc : Decoded F) (sd : SignalDescriptor F) : Decoded F :=
  acc.record num sd (signalValue num n payload sd)

/-- The signals recorded one after the other. -/
def Decoded.recordAll (acc : Decoded F) (sds : List (SignalDescriptor F)) : Decoded F :=
  sds.foldl (Decoded.recordSignal num n payload) acc

/-- A record of other names leaves a name's value. -/
theorem mapGet_recordAll_of_notMem (acc : Decoded F) (sds : List (SignalDescriptor F)) (name : String)
    (h : name ∉ sds.map (·.name)) :
    mapGet (acc.recordAll num n payload sds).values name = mapGet acc.values name := by
  induction sds generalizing acc with
  | nil => rfl
  | cons sd sds ih =>
    obtain ⟨hhead, htail⟩ := not_or.1 (mt List.mem_cons.2 h)
    have hset := mapGet_mapSet acc.values sd.name name (signalValue num n payload sd)
    rw [if_neg (Ne.symm hhead)] at hset
    exact (ih _ htail).trans hset

theorem mapGet_recordAll (acc : Decoded F) (sds : List (SignalDescriptor F))
    (hnodup : (sds.map (·.name)).Nodup) {sd : SignalDescriptor F} (hsd : sd ∈ sds) :
    mapGet (acc.recordAll num n payload sds).values sd.name = some (signalValue num n payload sd) := by
  induction sds generalizing acc with
  | nil => contradiction
  | cons first sds ih =>
    obtain ⟨hfirst, hrest⟩ := List.nodup_cons.1 hnodup
    rcases List.mem_cons.1 hsd with rfl | hsd
    · have hset := mapGet_mapSet acc.values sd.name sd.name (signalValue num n payload sd)
      rw [if_pos rfl] at hset
      exact (mapGet_recordAll_of_notMem num n payload _ sds sd.name hfirst).trans hset
    · exact ih _ hrest hsd

/-- The reports are those of the signals that are out of range, in the list's order. -/
theorem reports_recordAll (acc : Decoded F) (sds : List (SignalDescriptor F)) :
    (acc.recordAll num n payload sds).reports = acc.reports ++
      (sds.filter fun sd => outOfRange num (signalValue num n payload sd) sd).map
        fun sd => (sd.name, signalValue num n payload sd) := by
  induction sds generalizing acc with
  | nil => exact (List.append_nil _).symm
  | cons sd sds ih =>
    refine (ih (acc.recordSignal num n payload sd)).trans ?_
    cases hout : outOfRange num (signalValue num n payload sd) sd <;>
      simp [Decoded.recordSignal, Decoded.record, hout]

/-- Recording all signals of a message gives what `decode_signals` is to return. -/
theorem decodedOf_recordAll (md : MessageDescriptor F) (hnodup : (md.signals.map (·.name)).Nodup) :
    Decoded.of num n payload md (Decoded.recordAll num n payload ⟨[], []⟩ md.signals) := by
  refine ⟨fun sd hsd => mapGet_recordAll num n payload _ _ hnodup hsd, fun sd hsd => ?_, ?_⟩
  · rw [reports_recordAll, List.nil_append, List.mem_map, inBounds_iff, Bool.not_eq_false]
    constructor
    · rintro ⟨other, hother, heq⟩
      obtain ⟨hmem, hout⟩ := List.mem_filter.1 hother
      obtain rfl : other = sd := List.inj_on_of_nodup_map hnodup hmem hsd (congrArg Prod.fst heq)
      exact hout
    · exact fun hout => ⟨sd, List.mem_filter.2 ⟨hsd, hout⟩, rfl⟩
  · rw [reports_recordAll]
    exact List.filter_sublist.map _

end

/-! ## One signal through the block -/

/-- A legally encoded command is answered with its effect. -/
theorem ask_ran {i : Instr} (hwf : i.wf = true) (s : State) :
    ask i s = some (s.ran i, (effectOf i s.regs).response) := ask_of_decode (decodeOfEncode i hwf) s

/-- An `EXTRACT` now would read this payload: it is in PBUF, and no encode was rejected. -/
structure HoldsPayload (payload : List Byte) (r : Regs) : Prop where
  encerr : r.encerr = false
  pbuf : r.pbuf = pack64le payload

section
variable {F : Type}

/-- The state after a signal's `SETDESC` and `EXTRACT`. -/
def State.extracted (s : State) (sd : SignalDescriptor F) : State := (s.ran sd.setdesc).ran .extract

theorem extracted_regs (s : State) (sd : SignalDescriptor F) :
    (s.extracted sd).regs = { s.regs with desc := sd.desc } := by
  rw [State.extracted, ran_regs, effectOf_extract_regs]
  rfl

/-- Reading signals changes no register but DESC. -/
theorem foldl_extracted_regs (s : State) (sds : List (SignalDescriptor F)) :
    ∃ d, (sds.foldl State.extracted s).regs = { s.regs with desc := d } := by
  induction sds generalizing s with
  | nil => exact ⟨s.regs.desc, rfl⟩
  | cons sd sds ih =>
    obtain ⟨d, hd⟩ := ih (s.extracted sd)
    rw [extracted_regs] at hd
    exact ⟨d, hd⟩

variable {payload : List Byte} {s : State} (hp : HoldsPayload payload s.regs)
include hp

theorem HoldsPayload.extracted (sd : SignalDescriptor F) : HoldsPayload payload (s.extracted sd).regs := by
  rw [extracted_regs]
  exact ⟨hp.encerr, hp.pbuf⟩

theorem HoldsPayload.foldl_extracted (sds : List (SignalDescriptor F)) :
    HoldsPayload payload (sds.foldl State.extracted s).regs := by
  obtain ⟨d, hd⟩ := foldl_extracted_regs s sds
  rw [hd]
  exact ⟨hp.encerr, hp.pbuf⟩

variable (num : Num F) {sd : SignalDescriptor F}

theorem ask_extract_of_valid (h : sd.valid Config.beStartNumbering = true) :
    ask .extract (s.ran sd.setdesc) = some (s.extracted sd,
      ⟨.ok, extractRaw Config.beStartNumbering (pack64le payload) sd.desc⟩) := by
  rw [ask_ran rfl, ← hp.pbuf]
  rcases extractEffect_cases Config.beStartNumbering (s.ran sd.setdesc).regs with
    ⟨he, _⟩ | ⟨_, hd, _⟩ | ⟨_, _, heff⟩
  · exact absurd (he.symm.trans hp.encerr) (by decide)
  · exact absurd (hd.symm.trans h) (by decide)
  · rw [effectOf, heff]
    rfl

theorem ask_extract_of_invalid (h : sd.valid Config.beStartNumbering = false) :
    ask .extract (s.ran sd.setdesc) = some (s.extracted sd, ⟨.eDesc, 0#64⟩) := by
  rw [ask_ran rfl]
  rcases extractEffect_cases Config.beStartNumbering (s.ran sd.setdesc).regs with
    ⟨he, _⟩ | ⟨_, _, heff⟩ | ⟨_, hd, _⟩
  · exact absurd (he.symm.trans hp.encerr) (by decide)
  · rw [effectOf, heff]
    rfl
  · exact absurd (hd.symm.trans h) (by decide)

theorem decodeLoop_cons_of_valid (h : sd.valid Config.beStartNumbering = true)
    (sds : List (SignalDescriptor F)) (acc : Decoded F) :
    decodeLoop num (sd :: sds) acc s =
      decodeLoop num sds (acc.recordSignal num Config.beStartNumbering payload sd) (s.extracted sd) := by
  have hset : ask sd.setdesc s = _ := ask_ran rfl s
  simp only [decodeLoop, hset, ask_extract_of_valid hp h, physical_extracted, ne_eq, not_true_eq_false,
    if_false]
  rfl

theorem decodeLoop_cons_of_invalid (h : sd.valid Config.beStartNumbering = false)
    (sds : List (SignalDescriptor F)) (acc : Decoded F) :
    decodeLoop num (sd :: sds) acc s = (s.extracted sd, .error (.malformed sd.name .eDesc)) := by
  have hset : ask sd.setdesc s = _ := ask_ran rfl s
  simp only [decodeLoop, hset, ask_extract_of_invalid hp h]
  rfl

/-! ## The loop -/

/-- Signals with valid descriptors are recorded, and the loop goes on with the others. -/
theorem decodeLoop_append (sds rest : List (SignalDescriptor F)) (acc : Decoded F)
    (h : ∀ sd ∈ sds, sd.valid Config.beStartNumbering = true) :
    decodeLoop num (sds ++ rest) acc s =
      decodeLoop num rest (acc.recordAll num Config.beStartNumbering payload sds)
        (sds.foldl State.extracted s) := by
  induction sds generalizing acc s with
  | nil => rfl
  | cons sd sds ih =>
    obtain ⟨hsd, hsds⟩ := List.forall_mem_cons.1 h
    rw [List.cons_append, decodeLoop_cons_of_valid hp num hsd, ih (hp.extracted sd) _ hsds]
    rfl

theorem decodeHeld_of_valid (md : MessageDescriptor F)
    (h : ∀ sd ∈ md.signals, sd.valid Config.beStartNumbering = true) :
    decodeHeld num md s = (md.signals.foldl State.extracted s,
      .ok (Decoded.recordAll num Config.beStartNumbering payload ⟨[], []⟩ md.signals)) := by
  have hloop := decodeLoop_append hp num md.signals [] ⟨[], []⟩ h
  rwa [List.append_nil] at hloop

theorem decodeHeld_of_invalid {md : MessageDescriptor F} {pre post : List (SignalDescriptor F)}
    (hsplit : md.signals = pre ++ sd :: post)
    (hpre : ∀ p ∈ pre, p.valid Config.beStartNumbering = true)
    (h : sd.valid Config.beStartNumbering = false) :
    decodeHeld num md s =
      ((pre ++ [sd]).foldl State.extracted s, .error (.malformed sd.name .eDesc)) := by
  rw [decodeHeld, hsplit, decodeLoop_append hp num pre _ _ hpre,
    decodeLoop_cons_of_invalid (hp.foldl_extracted pre) num h, List.foldl_append]
  rfl

end

end Sys2Proof.Machine
end

section
/-! PROOFS. The hand-over of a received frame (44_host_level.md R214 to R216; 41_frame.md R137, R139): what the
block holds after a successful `FRM_DECODE`, the lookup by its message id, and what the frame ends as. -/

namespace Sys2Proof.Machine

/-! ## A held frame and its reads -/

/-- The block holds the decoded frame `f`: its header in HDR, its payload in FBUF and in PBUF, ready for
`EXTRACT`. -/
structure HoldsFrame (f : DecodedFrame) (r : Regs) : Prop where
  fvalid : r.fvalid = true
  header : splitHeader r.hdr = f.header
  fpay : unpack64le (framePayload r.fbuf) = f.payload
  payload : HoldsPayload f.payload r

section
variable {f : DecodedFrame} {s : State} (h : HoldsFrame f s.regs)
include h

theorem HoldsFrame.ran_rd (n : Byte) : HoldsFrame f (s.ran (.rd n)).regs := by
  rwa [ran_regs, effectOf_rd_regs]

theorem HoldsFrame.foldl_extracted {F : Type} (sds : List (SignalDescriptor F)) :
    HoldsFrame f (sds.foldl State.extracted s).regs := by
  obtain ⟨d, hd⟩ := foldl_extracted_regs s sds
  have hpayload := h.payload.foldl_extracted sds
  rw [hd] at hpayload ⊢
  exact ⟨h.fvalid, h.header, h.fpay, hpayload⟩

/-- With a frame held, FVALID's gate lets a read through. -/
theorem HoldsFrame.readFrame_eq (d : Word) : readFrame d s.regs = accept s.regs d :=
  if_neg (by rw [h.fvalid]; decide)

theorem HoldsFrame.ask_rd_dev : ask (.rd regDev) s =
    some (s.ran (.rd regDev), ⟨.ok, f.header.deviceAddress.setWidth 64⟩) := by
  rw [ask_ran rfl, ← h.header]
  exact congrArg (fun e : Effect => some (s.ran (.rd regDev), e.response)) (h.readFrame_eq _)

theorem HoldsFrame.ask_rd_mid : ask (.rd regMid) s =
    some (s.ran (.rd regMid), ⟨.ok, f.header.messageId.setWidth 64⟩) := by
  rw [ask_ran rfl, ← h.header]
  exact congrArg (fun e : Effect => some (s.ran (.rd regMid), e.response)) (h.readFrame_eq _)

theorem HoldsFrame.ask_rd_fpay : ask (.rd regFpay) s =
    some (s.ran (.rd regFpay), ⟨.ok, framePayload s.regs.fbuf⟩) := by
  rw [ask_ran rfl]
  exact congrArg (fun e : Effect => some (s.ran (.rd regFpay), e.response)) (h.readFrame_eq _)

theorem HoldsFrame.recordUnparsed_eq (F : Type) (dev : Word) (reason : Unparsed) :
    (recordUnparsed (F := F) dev reason s).2 = .ok (.unparsed dev f.payload reason) := by
  simp only [recordUnparsed, h.ask_rd_fpay, h.fpay]

end

/-! ## The lookup (R214) -/

section
variable {F : Type} {catalog : List (MessageDescriptor F)} {mid : BitVec 10}

theorem lookupMessage_eq_none (h : ∀ md ∈ catalog, md.id.toNat ≠ mid.toNat) :
    lookupMessage catalog mid = none :=
  List.find?_eq_none.2 fun md hmd => by simpa using h md hmd

/-- The one message with the id is the one that is found. -/
theorem lookupMessage_eq_some {md : MessageDescriptor F} (hmd : md ∈ catalog)
    (hid : md.id.toNat = mid.toNat) (honly : ∀ other ∈ catalog, other.id.toNat = mid.toNat → other = md) :
    lookupMessage catalog mid = some md := by
  cases hfind : lookupMessage catalog mid with
  | none => exact absurd (decide_eq_true hid) (List.find?_eq_none.1 hfind md hmd)
  | some other =>
    rw [lookupMessage] at hfind
    have hother := List.find?_some hfind
    rw [honly other (List.mem_of_find?_eq_some hfind) (of_decide_eq_true hother)]

/-- The lookup key is the response's low ten bits. -/
theorem setWidth_messageId (m : BitVec 10) : (m.setWidth 64).setWidth 10 = m := by simp

/-! ## What a decoded frame ends as (R214, R216) -/

variable (num : Num F) {f : DecodedFrame} {s : State} (h : HoldsFrame f s.regs)
include h

theorem handleDecoded_of_unknown (hlookup : lookupMessage catalog f.header.messageId = none) :
    (handleDecoded num catalog s).2 =
      .ok (.unparsed (f.header.deviceAddress.setWidth 64) f.payload .unknownId) := by
  have hheld := (h.ran_rd regDev).ran_rd regMid
  simp only [handleDecoded, h.ask_rd_dev, (h.ran_rd regDev).ask_rd_mid, setWidth_messageId, hlookup,
    hheld.recordUnparsed_eq]

variable {md : MessageDescriptor F} (hlookup : lookupMessage catalog f.header.messageId = some md)
include hlookup

theorem handleDecoded_of_valid (hvalid : ∀ sd ∈ md.signals, sd.valid Config.beStartNumbering = true) :
    (handleDecoded num catalog s).2 =
      .ok (.parsed (f.header.deviceAddress.setWidth 64) (f.header.messageId.setWidth 64)
        (Decoded.recordAll num Config.beStartNumbering f.payload ⟨[], []⟩ md.signals)) := by
  have hheld := (h.ran_rd regDev).ran_rd regMid
  simp only [handleDecoded, h.ask_rd_dev, (h.ran_rd regDev).ask_rd_mid, setWidth_messageId, hlookup,
    decodeHeld_of_valid hheld.payload num md hvalid]

theorem handleDecoded_of_invalid {pre post : List (SignalDescriptor F)} {sd : SignalDescriptor F}
    (hsplit : md.signals = pre ++ sd :: post)
    (hpre : ∀ p ∈ pre, p.valid Config.beStartNumbering = true)
    (hinvalid : sd.valid Config.beStartNumbering = false) :
    (handleDecoded num catalog s).2 =
      .ok (.unparsed (f.header.deviceAddress.setWidth 64) f.payload (.malformed sd.name .eDesc)) := by
  have hheld := (h.ran_rd regDev).ran_rd regMid
  simp only [handleDecoded, h.ask_rd_dev, (h.ran_rd regDev).ask_rd_mid, setWidth_messageId, hlookup,
    decodeHeld_of_invalid hheld.payload num hsplit hpre hinvalid,
    (hheld.foldl_extracted (pre ++ [sd])).recordUnparsed_eq]

end

/-! ## The frame through the block (R137, R139) -/

/-- After `FRM_DECODE` accepts a loaded frame, the block holds the frame that the function gives. -/
theorem FrameLoaded.holdsFrame {raw : List Byte} {r : Regs} (h : FrameLoaded raw r)
    (h12 : raw.length = 12) : HoldsFrame (bufferFrame r.fbuf) (decodedRegs r) := by
  refine ⟨rfl, rfl, rfl, rfl, ?_⟩
  change framePayload r.fbuf = pack64le (unpack64le (framePayload r.fbuf))
  rw [h.framePayload_eq h12, unpack64le_pack64le _ (by simp; omega)]

section
variable {F : Type} (num : Num F) (catalog : List (MessageDescriptor F)) {raw : List Byte} (s : State)

/-- A frame that the function refuses is dropped. -/
theorem handleFrame_of_error {e : FrameError} (hf : decodeFrame raw = .error e) :
    (handleFrame num catalog raw s).2 = .ok (.dropped e.status) := by
  have hlast := askLast_concat (decode_encode_decodeCommands raw) s
  have hstatus : e.status ≠ .ok := by cases e <;> decide
  rcases (ranAll_pushCommands raw s).1.decode_cases with ⟨e', hf', he⟩ | ⟨-, hf', -⟩
  · obtain rfl : e = e' := Except.error.inj (hf.symm.trans hf')
    rw [he] at hlast
    simp only [handleFrame, decodeCommands, hlast, raise_response, if_pos hstatus]
  · rw [hf] at hf'
    contradiction

/-- A frame that the function decodes is handed over in a state that holds it. -/
theorem handleFrame_of_ok {f : DecodedFrame} (hf : decodeFrame raw = .ok f) :
    ∃ t, handleFrame num catalog raw s = handleDecoded num catalog t ∧ HoldsFrame f t.regs := by
  have hlast := askLast_concat (decode_encode_decodeCommands raw) s
  have hload := (ranAll_pushCommands raw s).1
  rcases hload.decode_cases with ⟨e, hf', -⟩ | ⟨h12, hf', he⟩
  · rw [hf] at hf'
    contradiction
  · obtain rfl := Except.ok.inj (hf.symm.trans hf')
    refine ⟨(s.ranAll (pushCommands raw)).ran .frmDecode, ?_, ?_⟩
    · rw [he] at hlast
      simp only [handleFrame, decodeCommands, hlast, accept_response, ne_eq, not_true_eq_false, if_false]
    · rw [ran_regs, he]
      exact hload.holdsFrame h12

end

/-- Settles O60: the block takes the branch of `decode(raw)`, and the frame it then holds ends as its lookup and
its message's descriptors say. -/
theorem failedFramesAreDroppedUnknownIdsAreNot : Obligations.FailedFramesAreDroppedUnknownIdsAreNot := by
  refine fun F num catalog raw s => ⟨fun e hf => handleFrame_of_error num catalog s hf, fun f hf => ?_⟩
  obtain ⟨t, ht, hheld⟩ := handleFrame_of_ok num catalog s hf
  rw [ht]
  refine ⟨fun hunknown => handleDecoded_of_unknown num hheld (lookupMessage_eq_none hunknown),
    fun md hmd hid honly => ?_⟩
  have hlookup := lookupMessage_eq_some hmd hid honly
  exact ⟨fun hnodup hvalid => ⟨_, handleDecoded_of_valid num hheld hlookup hvalid,
      decodedOf_recordAll num _ f.payload md hnodup⟩,
    fun pre post sd hsplit hpre hinvalid =>
      handleDecoded_of_invalid num hheld hlookup hsplit hpre hinvalid⟩

end Sys2Proof.Machine
end

section
/-! PROOFS. The commands of the signal codec, `SETDESC`, `EXTRACT`, `ENC_BEGIN`, `INSERT` and `PLOAD`
(42_codec.md R160 to R164), as commands and as presented words. -/

namespace Sys2Proof.Machine

/-- Settles O8: the four fields are read back from the descriptor that packs them, and the words of format D pack
`ARG[17:0]` itself. -/
theorem setdescStoresUnchecked : Obligations.SetdescStoresUnchecked := by
  refine ⟨fun start len order signed s => ⟨_, exec_after (.setdesc start len order signed) s,
    descBits_start start len order signed, descBits_len start len order signed,
    descBits_order start len order signed, descBits_signed start len order signed, rfl⟩, fun w s hop => ?_⟩
  have hrun := wordRuns_withArg (.setdesc 0#8 0#8 .little false) (fun _ => rfl) w s hop
  simp only [withArg, exec_after, effectOf_setdesc_regs, descBits_fields] at hrun
  exact hrun.trans (apply_ite _ _ _ _).symm

section
variable {r : Regs}

theorem effectOf_extract_of_encerr (he : r.encerr = true) : effectOf .extract r = raise .eEncode r :=
  if_pos he

variable (he : r.encerr = false)
include he

theorem effectOf_extract_of_invalid (hd : validDesc Config.beStartNumbering r.desc = false) :
    effectOf .extract r = raise .eDesc r := by
  simp [effectOf, extractEffect, he, hd]

theorem effectOf_extract_of_valid (hd : validDesc Config.beStartNumbering r.desc = true) :
    effectOf .extract r = accept r (extractRaw Config.beStartNumbering r.pbuf r.desc) := by
  simp [effectOf, extractEffect, he, hd]

end

/-- Settles O9: the three outcomes of `EXTRACT`, and the words of format Z with its opcode. -/
theorem extractReadsTheSignal : Obligations.ExtractReadsTheSignal :=
  ⟨fun _ he => exec_of_effectOf (effectOf_extract_of_encerr he),
    fun _ he hd => exec_of_effectOf (effectOf_extract_of_invalid he hd),
    fun _ he hd => exec_of_effectOf (effectOf_extract_of_valid he hd),
    wordRuns_withArg .extract fun _ => rfl⟩

/-- Settles O10: the effect of `ENC_BEGIN`, and the words of format Z with its opcode. -/
theorem encBeginZeroesThePayload : Obligations.EncBeginZeroesThePayload :=
  ⟨exec_after .encBegin, wordRuns_withArg .encBegin fun _ => rfl⟩

section
variable {r : Regs} (v : Word)

theorem effectOf_insert_of_encerr (he : r.encerr = true) :
    effectOf (.insert v) r = raise .eEncode r := if_pos he

variable (he : r.encerr = false)
include he

theorem effectOf_insert_of_invalid (hd : validDesc Config.beStartNumbering r.desc = false) :
    effectOf (.insert v) r = raise .eDesc (rejectEncode r) := by
  simp [effectOf, insertEffect, he, hd]

variable {v} (hd : validDesc Config.beStartNumbering r.desc = true)
include hd

theorem effectOf_insert_of_not_fits (hf : fits v r.desc = false) :
    effectOf (.insert v) r = raise .eFit (rejectEncode r) := by
  simp [effectOf, insertEffect, he, hd, hf]

variable (hf : fits v r.desc = true)
include hf

theorem effectOf_insert_of_overlap (ho : r.cover &&& rangeMask Config.beStartNumbering r.desc ≠ 0#64) :
    effectOf (.insert v) r = raise .eOverlap (rejectEncode r) := by
  simp [effectOf, insertEffect, overlaps, he, hd, hf, ho]

theorem effectOf_insert_of_free (ho : r.cover &&& rangeMask Config.beStartNumbering r.desc = 0#64) :
    effectOf (.insert v) r = accept
      { r with
        pbuf := insertRaw Config.beStartNumbering r.pbuf r.desc v
        cover := r.cover ||| rangeMask Config.beStartNumbering r.desc } 0#64 := by
  simp [effectOf, insertEffect, overlaps, he, hd, hf, ho]

end

/-- No word of format V has a reserved bit. -/
theorem reservedV_eq : ~~~lowMask 64 = 0#64 := by decide

/-- Settles O11: the five outcomes of `INSERT`, and the words of format V with its opcode. -/
theorem insertChecksThenWrites : Obligations.InsertChecksThenWrites :=
  ⟨fun v _ he => exec_of_effectOf (effectOf_insert_of_encerr v he),
    fun v _ he hd => exec_of_effectOf (effectOf_insert_of_invalid v he hd),
    fun _ _ he hd hf => exec_of_effectOf (effectOf_insert_of_not_fits he hd hf),
    fun _ _ he hd hf ho => exec_of_effectOf (effectOf_insert_of_overlap he hd hf ho),
    fun _ _ he hd hf ho => exec_of_effectOf (effectOf_insert_of_free he hd hf ho),
    reservedV_eq ▸ wordRuns_withArg (.insert 0#64) fun _ => rfl⟩

/-- Settles O12: the effect of `PLOAD`, and the words of format V with its opcode. -/
theorem ploadReplacesThePayload : Obligations.PloadReplacesThePayload :=
  ⟨fun v => exec_after (.pload v), reservedV_eq ▸ wordRuns_withArg (.pload 0#64) fun _ => rfl⟩

/-- Settles O56: a valid descriptor names a payload bit, and that bit is taken; the earlier refusals of `INSERT`
keep PBUF and COVER as well. -/
theorem loadedPayloadCannotBePatched : Obligations.LoadedPayloadCannotBePatched := by
  intro v s hcover
  refine ⟨_, _, exec_after (.insert v) s, ?_⟩
  rcases insertEffect_cases Config.beStartNumbering v s.regs with
    ⟨he, h⟩ | ⟨he, hd, h⟩ | ⟨he, hd, hf, h⟩ | ⟨he, hd, hf, ho, h⟩ | ⟨he, hd, hf, ho, h⟩
  · simp [effectOf, h, he]
  · simp [effectOf, h, hd]
  · simp [effectOf, h, hf]
  · simp [effectOf, h]
  · have htaken : s.regs.cover &&& rangeMask Config.beStartNumbering s.regs.desc =
        rangeMask Config.beStartNumbering s.regs.desc := by
      rw [hcover]
      exact BitVec.allOnes_and
    exact absurd (htaken.symm.trans ho) (rangeMask_ne_zero _ _ hd)

end Sys2Proof.Machine
end

section
/-! PROOFS. Where the bits of a signal are: the valid descriptors, the walks and their closed forms by shift and
mask, the range mask, and the two numberings (42_codec.md R152 to R157). -/

namespace Sys2Proof.Machine

/-! ## Valid descriptors (R157) -/

/-- Settles O46: `validDesc_iff`, byte order by byte order, with p0 written out. -/
theorem validDescriptorsKeepInsideThePayload : Obligations.ValidDescriptorsKeepInsideThePayload := by
  intro n d
  rw [validDesc_iff]
  cases horder : d.order with
  | little => simp [and_assoc]
  | big =>
    cases n with
    | msb0 => simp [and_assoc, bigStart]
    | lsb0 => simp [and_assoc, and_comm, bigStart, flat]

/-! ## Little-endian signals (R152) -/

section
variable {n : BeStartNumbering} {d : Desc}

theorem loc_of_little (horder : d.order = .little) (k : Nat) : loc n d k = d.start + k := by
  simp only [loc, horder]

theorem loc_of_big (horder : d.order = .big) (k : Nat) :
    loc n d k = flat (bigStart n d + d.len - 1 - k) := by
  simp only [loc, horder]

/-- The closed form of a little-endian signal's raw bits. -/
theorem gatherBits_of_little (P : Word) (horder : d.order = .little) (hvalid : validDesc n d = true) :
    gatherBits P (loc n d) d.len = (P >>> d.start) &&& lowMask d.len := by
  have hlen := (validDesc_len n d hvalid).2
  refine BitVec.eq_of_getLsbD_eq fun k _ => ?_
  rw [getLsbD_gatherBits _ _ _ _ hlen, loc_of_little horder, BitVec.getLsbD_and, BitVec.getLsbD_ushiftRight,
    getLsbD_lowMask _ _ hlen, Bool.and_comm]

/-! ## Big-endian signals (R153) -/

/-- Counting positions from the other end of the payload mirrors their flat indices. -/
theorem flat_mirror {p : Nat} (hp : p < 64) : flat (63 - p) = 63 - flat p := by
  unfold flat
  omega

theorem length_unpack64le (v : Word) : (unpack64le v).length = 8 := rfl

/-- Byte i of the reversed payload is byte 7 − i. -/
theorem extractLsb'_byteRev (P : Word) (i : Nat) (hi : i < 8) :
    (byteRev P).extractLsb' (8 * (7 - i)) 8 = P.extractLsb' (8 * i) 8 := by
  have hlen : (unpack64le P).reverse.length = 8 := (List.length_reverse ..).trans (length_unpack64le P)
  rw [byteRev, extract_pack64le _ _ (by omega) (by omega), List.getElem_reverse]
  simp [unpack64le, (by omega : 7 - (7 - i) = i)]

/-- Read from its top bit down, the reversed payload shows the bits in the order of their MSB0 positions. -/
theorem getLsbD_byteRev (P : Word) {j : Nat} (hj : j < 64) :
    (byteRev P).getLsbD j = P.getLsbD (flat (63 - j)) := by
  have hbyte := congrArg (·.getLsbD (j % 8)) (extractLsb'_byteRev P (7 - j / 8) (by omega))
  simp only [BitVec.getLsbD_extractLsb', decide_eq_true (Nat.mod_lt j (by decide : 0 < 8)),
    Bool.true_and] at hbyte
  rwa [(by omega : 8 * (7 - (7 - j / 8)) + j % 8 = j),
    (by unfold flat; omega : 8 * (7 - j / 8) + j % 8 = flat (63 - j))] at hbyte

theorem bigStart_add_len_le (horder : d.order = .big) (hvalid : validDesc n d = true) :
    bigStart n d + d.len ≤ 64 := by
  obtain ⟨_, _, _, hbig⟩ := (validDesc_iff n d).1 hvalid
  exact (hbig horder).1

/-- The closed form of a big-endian signal's raw bits. -/
theorem gatherBits_of_big (P : Word) (horder : d.order = .big) (hvalid : validDesc n d = true) :
    gatherBits P (loc n d) d.len = (byteRev P >>> (64 - bigStart n d - d.len)) &&& lowMask d.len := by
  have hlen := (validDesc_len n d hvalid).2
  have hin := bigStart_add_len_le horder hvalid
  refine BitVec.eq_of_getLsbD_eq fun k _ => ?_
  rw [getLsbD_gatherBits _ _ _ _ hlen, loc_of_big horder, BitVec.getLsbD_and, BitVec.getLsbD_ushiftRight,
    getLsbD_lowMask _ _ hlen, Bool.and_comm]
  by_cases hk : k < d.len
  · rw [getLsbD_byteRev P (by omega),
      (by omega : 63 - (64 - bigStart n d - d.len + k) = bigStart n d + d.len - 1 - k)]
  · rw [decide_eq_false hk, Bool.and_false, Bool.and_false]

/-! ## The range mask (R155) -/

/-- As many bits are set as the signal has: `loc` is injective below LEN. -/
theorem countP_rangeMask (hvalid : validDesc n d = true) :
    (List.range 64).countP (fun j => (rangeMask n d).getLsbD j) = d.len := by
  have hcount := Nat.count_eq_card_filter_range (fun j => (rangeMask n d).getLsbD j = true) 64
  simp only [Nat.count, Bool.decide_eq_true] at hcount
  have himage : (Finset.range 64).filter (fun j => (rangeMask n d).getLsbD j = true) =
      (Finset.range d.len).image (loc n d) := by
    ext j
    simp only [Finset.mem_filter, Finset.mem_range, Finset.mem_image, getLsbD_rangeMask n d j hvalid]
    exact ⟨fun h => h.2, fun ⟨k, hk, hj⟩ => ⟨hj ▸ loc_lt n d k hvalid hk, k, hk, hj⟩⟩
  rw [hcount, himage, Finset.card_image_of_injOn, Finset.card_range]
  intro i hi k hk heq
  exact loc_inj n d i k (Finset.mem_range.1 hi) (Finset.mem_range.1 hk) heq

/-- A mask is the range mask when it has the bits `loc(k)` and no others. -/
theorem rangeMask_eq_of_bits {m : Word} (hvalid : validDesc n d = true)
    (h : ∀ j < 64, m.getLsbD j = true ↔ ∃ k < d.len, loc n d k = j) : rangeMask n d = m :=
  BitVec.eq_of_getLsbD_eq fun j hj =>
    Bool.eq_iff_iff.2 ((getLsbD_rangeMask n d j hvalid).trans (h j hj).symm)

theorem rangeMask_of_little (horder : d.order = .little) (hvalid : validDesc n d = true) :
    rangeMask n d = lowMask d.len <<< d.start := by
  have hlen := (validDesc_len n d hvalid).2
  refine rangeMask_eq_of_bits hvalid fun j hj => ?_
  simp only [BitVec.getLsbD_shiftLeft, getLsbD_lowMask _ _ hlen, loc_of_little horder, Bool.and_eq_true,
    Bool.not_eq_true', decide_eq_true_eq, decide_eq_false_iff_not]
  exact ⟨fun h => ⟨j - d.start, h.2, by omega⟩, fun ⟨k, hk, hj'⟩ => by omega⟩

theorem rangeMask_of_big (horder : d.order = .big) (hvalid : validDesc n d = true) :
    rangeMask n d = byteRev (lowMask d.len <<< (64 - bigStart n d - d.len)) := by
  have hlen := (validDesc_len n d hvalid).2
  have hin := bigStart_add_len_le horder hvalid
  refine rangeMask_eq_of_bits hvalid fun j hj => ?_
  have hflat := flat_lt j hj
  rw [getLsbD_byteRev _ hj, flat_mirror hj]
  simp only [BitVec.getLsbD_shiftLeft, getLsbD_lowMask _ _ hlen, loc_of_big horder, Bool.and_eq_true,
    Bool.not_eq_true', decide_eq_true_eq, decide_eq_false_iff_not]
  constructor
  · intro h
    refine ⟨bigStart n d + d.len - 1 - flat j, by omega, ?_⟩
    rw [(by omega : bigStart n d + d.len - 1 - (bigStart n d + d.len - 1 - flat j) = flat j), flat_flat]
  · rintro ⟨k, hk, rfl⟩
    rw [flat_flat]
    omega

end

/-! ## The walks, the mask and their closed forms -/

/-- Settles O47: bit k of both sides is `P[START + k]` below LEN, and 0 above. -/
theorem littleEndianWalkIsAShift : Obligations.LittleEndianWalkIsAShift := fun _ _ P horder hvalid =>
  ⟨fun k _ => loc_of_little horder k, gatherBits_of_little P horder hvalid⟩

/-- Settles O48: the walk goes down the MSB0 positions, and those are the bits of the reversed payload from its top
down. -/
theorem bigEndianWalkIsAShiftOfTheReversedBytes : Obligations.BigEndianWalkIsAShiftOfTheReversedBytes :=
  ⟨fun _ => rfl, fun _ => rfl, extractLsb'_byteRev, fun _ _ P horder hvalid =>
    ⟨fun k _ => loc_of_big horder k, gatherBits_of_big P horder hvalid⟩⟩

/-- Settles O49: the bits are the walk's, and the closed forms have the same bits. -/
theorem rangeMaskHasTheSignalsBits : Obligations.RangeMaskHasTheSignalsBits := fun n d hvalid =>
  ⟨fun j => getLsbD_rangeMask n d j hvalid, countP_rangeMask hvalid,
    fun horder => rangeMask_of_little horder hvalid, fun horder => rangeMask_of_big horder hvalid⟩

/-! ## The two numberings (R154) -/

/-- Settles O50: `flat` is its own inverse, so both descriptors begin at the same position. -/
theorem theTwoNumberingsNameTheSameSignals : Obligations.TheTwoNumberingsNameTheSameSignals := by
  intro start len signed hstart
  have hflat : (BitVec.ofNat 8 (flat start.toNat)).toNat = flat start.toNat :=
    Nat.mod_eq_of_lt (Nat.lt_trans (flat_lt _ (Nat.lt_succ_of_le hstart)) (by decide))
  have hfirst : bigStart .lsb0 (descBits (BitVec.ofNat 8 (flat start.toNat)) len .big signed) =
      bigStart .msb0 (descBits start len .big signed) := by
    rw [bigStart, bigStart, descBits_start, descBits_start, hflat, flat_flat]
  constructor
  · have hle : flat start.toNat ≤ 63 := Nat.le_of_lt_succ (flat_lt _ (Nat.lt_succ_of_le hstart))
    rw [Bool.eq_iff_iff, validDesc_iff, validDesc_iff, hfirst]
    simp [hflat, hle]
  · intro k
    rw [loc_of_big (descBits_order ..), loc_of_big (descBits_order ..), hfirst, descBits_len, descBits_len]

end Sys2Proof.Machine
end

section
/-! PROOFS. The values of a signal: which fit (42_codec.md R159), what extraction gives (R156, R158), that
extraction and insertion undo each other, and that signals in disjoint ranges are independent (R165). -/

namespace Sys2Proof.Machine

/-! ## Values that fit (R159) -/

/-- Sign extension from the low `l` bits gives the value back when all bits above them are the top one of them. -/
theorem signExtend_setWidth_eq_iff (v : Word) {l : Nat} (h1 : 1 ≤ l) :
    (v.setWidth l).signExtend 64 = v ↔ ∀ j < 64, l ≤ j → v.getLsbD j = v.getLsbD (l - 1) := by
  have hbits : ∀ j < 64, ((v.setWidth l).signExtend 64).getLsbD j =
      if j < l then v.getLsbD j else v.getLsbD (l - 1) := by
    intro j hj
    rw [BitVec.getLsbD_signExtend, BitVec.msb_setWidth, decide_eq_true hj, Bool.true_and,
      decide_eq_true (by omega : 0 < l), Bool.true_and, BitVec.getLsbD_setWidth]
    split
    next hlt => rw [decide_eq_true hlt, Bool.true_and]
    next => rfl
  constructor
  · intro h j hj hlj
    have hbit := hbits j hj
    rwa [h, if_neg (not_lt.2 hlj)] at hbit
  · intro h
    refine BitVec.eq_of_getLsbD_eq fun j hj => ?_
    rw [hbits j hj]
    split
    · rfl
    · exact (h j hj (by omega)).symm

/-- The integers of `l` bits in two's complement are those that sign extension from `l` bits gives back. -/
theorem toInt_range_iff (v : Word) {l : Nat} (h1 : 1 ≤ l) (h64 : l ≤ 64) :
    (-(2 : Int) ^ (l - 1) ≤ v.toInt ∧ v.toInt < (2 : Int) ^ (l - 1)) ↔
      (v.setWidth l).signExtend 64 = v := by
  have hext : ((v.setWidth l).signExtend 64).toInt = (v.setWidth l).toInt :=
    BitVec.toInt_signExtend_of_le h64
  constructor
  · rintro ⟨hlo, hhi⟩
    have hpow : (2 : Int) ^ l = 2 * 2 ^ (l - 1) := by rw [← pow_succ', Nat.sub_add_cancel h1]
    rw [← BitVec.toInt_inj, hext, ← BitVec.signExtend_eq_setWidth_of_le v h64, BitVec.toInt_signExtend,
      Nat.min_eq_left h64]
    refine Int.bmod_eq_of_le_mul_two ?_ ?_ <;> push_cast <;> omega
  · intro h
    rw [← h, hext]
    exact ⟨BitVec.le_toInt _, BitVec.toInt_lt⟩

section
variable {v : Word} {d : Desc}

theorem fits_of_unsigned (hs : d.signed = false) : fits v d = true ↔ v.toNat < 2 ^ d.len := by
  simp [fits, hs]

theorem fits_of_signed (hs : d.signed = true) :
    fits v d = true ↔ -(2 : Int) ^ (d.len - 1) ≤ v.toInt ∧ v.toInt < (2 : Int) ^ (d.len - 1) := by
  simp [fits, hs]

theorem toNat_lt_iff_noBitsFrom {l : Nat} (hl : l ≤ 64) : v.toNat < 2 ^ l ↔ noBitsFrom l v := by
  rw [noBitsFrom_iff hl]
  constructor
  · intro h j _ hlj
    exact Nat.testBit_lt_two_pow (lt_of_lt_of_le h (Nat.pow_le_pow_right (by decide) hlj))
  · intro h
    refine Nat.lt_pow_two_of_testBit _ fun j hlj => ?_
    by_cases hj : j < 64
    · exact h j hj hlj
    · exact BitVec.getLsbD_of_ge v j (not_lt.1 hj)

/-- A value fits when the bits above the signal's are zero, or copies of its top bit. -/
theorem fits_iff_bits (h1 : 1 ≤ d.len) (h64 : d.len ≤ 64) :
    fits v d = true ↔
      ∀ j < 64, d.len ≤ j → v.getLsbD j = (d.signed && v.getLsbD (d.len - 1)) := by
  cases hs : d.signed with
  | false =>
    rw [fits_of_unsigned hs, toNat_lt_iff_noBitsFrom h64, noBitsFrom_iff h64]
    simp only [Bool.false_and]
  | true =>
    rw [fits_of_signed hs, toInt_range_iff v h1 h64, signExtend_setWidth_eq_iff v h1]
    simp only [Bool.true_and]

end

/-- Settles O52: the integer bounds are the definition; by `fits_iff_bits` they are tests on the bits above the
signal's, and with LEN = 64 there is none. -/
theorem fitsOnIntegersEqualsFitsOnPatterns : Obligations.FitsOnIntegersEqualsFitsOnPatterns := by
  intro v d h1 h64
  refine ⟨?_, fun hs => ?_, fun hs => ?_, fun hlen => ?_⟩
  · cases hs : d.signed with
    | false => simpa using fits_of_unsigned hs
    | true => simpa using fits_of_signed hs
  · rw [fits_of_unsigned hs, toNat_lt_iff_noBitsFrom h64, noBitsFrom]
  · rw [fits_iff_bits h1 h64, hs]
    simp only [Bool.true_and]
    constructor
    · intro h
      have htop : ∀ i < 64, d.len - 1 ≤ i → v.getLsbD i = v.getLsbD (d.len - 1) := by
        intro i hi hle
        rcases hle.eq_or_lt with rfl | hlt
        · rfl
        · exact h i hi (by omega)
      exact fun i hle hi => (htop i hi hle).trans (htop 63 (by decide) (by omega)).symm
    · exact fun h i hi hle => (h i (by omega) hi).trans (h (d.len - 1) le_rfl (by omega)).symm
  · exact (fits_iff_bits h1 h64).2 fun j hj hle => absurd hj (by omega)

/-! ## The extracted value (R156, R158) -/

section
variable {n : BeStartNumbering} {d : Desc} (hvalid : validDesc n d = true)
include hvalid

theorem noBitsFrom_gatherBits (P : Word) : noBitsFrom d.len (gatherBits P (loc n d) d.len) := by
  have hlen := (validDesc_len n d hvalid).2
  refine (noBitsFrom_iff hlen _).2 fun j _ hle => ?_
  rw [getLsbD_gatherBits _ _ _ _ hlen, decide_eq_false (not_lt.2 hle), Bool.false_and]

/-- A signed signal's raw value is the sign extension of its gathered bits. -/
theorem extractRaw_of_signed (P : Word) (hs : d.signed = true) :
    extractRaw n P d = ((gatherBits P (loc n d) d.len).setWidth d.len).signExtend 64 := by
  obtain ⟨h1, h64⟩ := validDesc_len n d hvalid
  refine BitVec.eq_of_getLsbD_eq fun j hj => ?_
  rw [getLsbD_extractRaw n P d j hvalid hj, BitVec.getLsbD_signExtend, BitVec.msb_setWidth,
    BitVec.getLsbD_setWidth, getLsbD_gatherBits _ _ _ _ h64, getLsbD_gatherBits _ _ _ _ h64]
  by_cases hk : j < d.len
  · simp [hj, hk]
  · simp [hj, hk, hs, (by omega : 0 < d.len)]

/-- As an integer it is the gathered number, less 2^LEN when the top bit is set. -/
theorem toInt_extractRaw_of_signed (P : Word) (hs : d.signed = true) :
    (extractRaw n P d).toInt =
      if (gatherBits P (loc n d) d.len).getLsbD (d.len - 1) = true
      then ((gatherBits P (loc n d) d.len).toNat : Int) - 2 ^ d.len
      else ((gatherBits P (loc n d) d.len).toNat : Int) := by
  obtain ⟨h1, h64⟩ := validDesc_len n d hvalid
  have hsmall := (toNat_lt_iff_noBitsFrom h64).2 (noBitsFrom_gatherBits hvalid P)
  rw [extractRaw_of_signed hvalid P hs, BitVec.toInt_signExtend_of_le h64, BitVec.toInt_eq_msb_cond,
    BitVec.msb_setWidth, decide_eq_true (by omega : 0 < d.len), Bool.true_and, BitVec.toNat_setWidth,
    Nat.mod_eq_of_lt hsmall]
  push_cast
  rfl

end

/-- Settles O51: the gathered bits, which an unsigned signal keeps and a signed one extends. -/
theorem extractedValueIsTheSignalsInteger : Obligations.ExtractedValueIsTheSignalsInteger :=
  fun n P d hvalid =>
    ⟨fun k _ => getLsbD_gatherBits P (loc n d) d.len k (validDesc_len n d hvalid).2,
      fun hs => by simp [extractRaw, hs], toInt_extractRaw_of_signed hvalid P⟩

/-! ## Extraction and insertion (R165) -/

section
variable {n : BeStartNumbering} {d : Desc} (hvalid : validDesc n d = true)
include hvalid

/-- Every extracted value fits. -/
theorem fits_extractRaw (P : Word) : fits (extractRaw n P d) d = true := by
  obtain ⟨h1, h64⟩ := validDesc_len n d hvalid
  refine (fits_iff_bits h1 h64).2 fun j hj hle => ?_
  rw [getLsbD_extractRaw n P d j hvalid hj, getLsbD_extractRaw n P d (d.len - 1) hvalid (by omega),
    if_neg (not_lt.2 hle), if_pos (by omega)]

/-- Below LEN the extracted value has the signal's bits. -/
theorem getLsbD_extractRaw_of_lt (P : Word) {k : Nat} (hk : k < d.len) :
    (extractRaw n P d).getLsbD k = P.getLsbD (loc n d k) := by
  have h64 := (validDesc_len n d hvalid).2
  rw [getLsbD_extractRaw n P d k hvalid (by omega), if_pos hk]

/-- The signal's bits are in its range. -/
theorem getLsbD_rangeMask_loc {k : Nat} (hk : k < d.len) : (rangeMask n d).getLsbD (loc n d k) = true :=
  (getLsbD_rangeMask n d _ hvalid).2 ⟨k, hk, rfl⟩

/-- Extraction looks at the signal's bits only. -/
theorem extractRaw_congr {P Q : Word} (h : ∀ k < d.len, P.getLsbD (loc n d k) = Q.getLsbD (loc n d k)) :
    extractRaw n P d = extractRaw n Q d := by
  have h1 := (validDesc_len n d hvalid).1
  refine BitVec.eq_of_getLsbD_eq fun j hj => ?_
  rw [getLsbD_extractRaw n P d j hvalid hj, getLsbD_extractRaw n Q d j hvalid hj, h (d.len - 1) (by omega)]
  split
  next hlt => exact h j hlt
  next => rfl

/-- To know a payload after `insert_raw`, look at the signal's bits and at the bits outside its range. -/
theorem insertRaw_eq_of_bits {P Q v : Word} (hin : ∀ k < d.len, Q.getLsbD (loc n d k) = v.getLsbD k)
    (hout : ∀ j < 64, (rangeMask n d).getLsbD j = false → Q.getLsbD j = P.getLsbD j) :
    insertRaw n P d v = Q := by
  refine BitVec.eq_of_getLsbD_eq fun j hj => ?_
  cases hm : (rangeMask n d).getLsbD j with
  | true =>
    obtain ⟨k, hk, rfl⟩ := (getLsbD_rangeMask n d j hvalid).1 hm
    rw [getLsbD_insertRaw_loc n P d v k hvalid hk, hin k hk]
  | false => rw [getLsbD_insertRaw_other n P d v j hvalid hm, hout j hj hm]

/-- Inserting what was extracted leaves the payload. -/
theorem insertRaw_extractRaw (P : Word) : insertRaw n P d (extractRaw n P d) = P :=
  insertRaw_eq_of_bits hvalid (fun _ hk => (getLsbD_extractRaw_of_lt hvalid P hk).symm) fun _ _ _ => rfl

/-- A value that fits is extracted after it is inserted. -/
theorem extractRaw_insertRaw (P : Word) {v : Word} (hfits : fits v d = true) :
    extractRaw n (insertRaw n P d v) d = v := by
  obtain ⟨h1, h64⟩ := validDesc_len n d hvalid
  refine BitVec.eq_of_getLsbD_eq fun j hj => ?_
  rw [getLsbD_extractRaw n _ d j hvalid hj, getLsbD_insertRaw_loc n P d v (d.len - 1) hvalid (by omega)]
  split
  next hlt => exact getLsbD_insertRaw_loc n P d v j hvalid hlt
  next hge => exact ((fits_iff_bits h1 h64).1 hfits j hj (not_lt.1 hge)).symm

end

/-- Settles O53: `fits_extractRaw`, `insertRaw_extractRaw` and `extractRaw_insertRaw`. -/
theorem extractAndInsertRoundTrip : Obligations.ExtractAndInsertRoundTrip := fun _ _ P _ hvalid =>
  ⟨fits_extractRaw hvalid P, insertRaw_extractRaw hvalid P, extractRaw_insertRaw hvalid P⟩

/-! ## Signals in disjoint ranges (R165) -/

/-- Two words agree within a mask exactly when they have the same bits there. -/
theorem and_eq_and_iff (P Q m : Word) :
    P &&& m = Q &&& m ↔ ∀ j < 64, m.getLsbD j = true → P.getLsbD j = Q.getLsbD j := by
  constructor
  · intro h j _ hm
    have hbit := congrArg (·.getLsbD j) h
    simpa only [BitVec.getLsbD_and, hm, Bool.and_true] using hbit
  · intro h
    refine BitVec.eq_of_getLsbD_eq fun j hj => ?_
    rw [BitVec.getLsbD_and, BitVec.getLsbD_and]
    cases hm : m.getLsbD j with
    | true => rw [h j hj hm]
    | false => rw [Bool.and_false, Bool.and_false]

/-- Two masks are disjoint exactly when no bit is in both. -/
theorem and_eq_zero_iff (m c : Word) :
    m &&& c = 0#64 ↔ ∀ j < 64, c.getLsbD j = true → m.getLsbD j = false := by
  have h := and_eq_and_iff m 0#64 c
  simpa only [BitVec.zero_and, BitVec.getLsbD_zero] using h

section
variable {n : BeStartNumbering} {d e : Desc} (hd : validDesc n d = true) (he : validDesc n e = true)
  (hdisjoint : rangeMask n d &&& rangeMask n e = 0#64)
include hd he hdisjoint

/-- An insertion leaves the bits of a signal in a disjoint range. -/
theorem getLsbD_insertRaw_disjoint (P v : Word) {k : Nat} (hk : k < e.len) :
    (insertRaw n P d v).getLsbD (loc n e k) = P.getLsbD (loc n e k) :=
  getLsbD_insertRaw_other n P d v _ hd <|
    (and_eq_zero_iff _ _).1 hdisjoint _ (loc_lt n e k he hk) (getLsbD_rangeMask_loc he hk)

/-- So it leaves what is extracted there. -/
theorem extractRaw_insertRaw_disjoint (P v : Word) :
    extractRaw n (insertRaw n P d v) e = extractRaw n P e :=
  extractRaw_congr he fun _ hk => getLsbD_insertRaw_disjoint hd he hdisjoint P v hk

theorem insertRaw_comm (P v w : Word) :
    insertRaw n (insertRaw n P d v) e w = insertRaw n (insertRaw n P e w) d v := by
  have hdisjoint' : rangeMask n e &&& rangeMask n d = 0#64 := (BitVec.and_comm ..).trans hdisjoint
  refine insertRaw_eq_of_bits he (fun k hk => ?_) fun j hj hout => ?_
  · rw [getLsbD_insertRaw_disjoint hd he hdisjoint _ _ hk, getLsbD_insertRaw_loc n P e w k he hk]
  · cases hm : (rangeMask n d).getLsbD j with
    | true =>
      obtain ⟨k, hk, rfl⟩ := (getLsbD_rangeMask n d j hd).1 hm
      rw [getLsbD_insertRaw_loc n _ d v k hd hk, getLsbD_insertRaw_loc n _ d v k hd hk]
    | false =>
      rw [getLsbD_insertRaw_other n _ d v j hd hm, getLsbD_insertRaw_other n _ d v j hd hm,
        getLsbD_insertRaw_other n _ e w j he hout]

end

/-- Settles O54: an insertion writes within its range, an extraction reads within its range, and so insertions
through disjoint ranges commute. -/
theorem signalsInDisjointRangesAreIndependent : Obligations.SignalsInDisjointRangesAreIndependent := by
  refine ⟨fun n d P v hd => ?_, fun n d P Q hd h => ?_, fun n d e P v w hd he hdisjoint =>
    insertRaw_comm hd he hdisjoint P v w⟩
  · refine (and_eq_and_iff _ _ _).2 fun j hj hout => ?_
    rw [BitVec.getLsbD_not, decide_eq_true hj, Bool.true_and, Bool.not_eq_true'] at hout
    exact getLsbD_insertRaw_other n P d v j hd hout
  · exact extractRaw_congr hd fun k hk =>
      (and_eq_and_iff P Q _).1 h _ (loc_lt n d k hd hk) (getLsbD_rangeMask_loc hd hk)

end Sys2Proof.Machine
end

section
/-! PROOFS. A raw encode by its commands (42_codec.md R162, R163): when every response is OK, the signals inserted
so far read back, their ranges are disjoint and make up COVER, and PBUF has no other bit (R165 item 7). -/

namespace Sys2Proof.Machine

/-! ## Masks -/

/-- A union meets a mask exactly when one of its parts does. -/
theorem or_and_eq_zero_iff (a b m : Word) :
    (a ||| b) &&& m = 0#64 ↔ a &&& m = 0#64 ∧ b &&& m = 0#64 := by
  simp only [and_eq_zero_iff, BitVec.getLsbD_or, Bool.or_eq_false_iff]
  grind

section
variable (n : BeStartNumbering)

theorem rawCover_append (xs : List RawSignal) (x : RawSignal) :
    rawCover n (xs ++ [x]) = rawCover n xs ||| rangeMask n x.desc := by
  induction xs with
  | nil => simp [rawCover]
  | cons y xs ih => simp only [List.cons_append, rawCover, ih, BitVec.or_assoc]

theorem rawCover_and_eq_zero_iff (xs : List RawSignal) (m : Word) :
    rawCover n xs &&& m = 0#64 ↔ ∀ x ∈ xs, rangeMask n x.desc &&& m = 0#64 := by
  induction xs with
  | nil => simp [rawCover]
  | cons x xs ih => simp only [rawCover, or_and_eq_zero_iff, ih, List.forall_mem_cons]

/-! ## One signal -/

/-- What the registers hold of the signals inserted since `ENC_BEGIN`. -/
structure Encoded (xs : List RawSignal) (r : Regs) : Prop where
  cover : r.cover = rawCover n xs
  disjoint : xs.Pairwise fun x y => rangeMask n x.desc &&& rangeMask n y.desc = 0#64
  reads : ∀ x ∈ xs, validDesc n x.desc = true ∧ extractRaw n r.pbuf x.desc = x.value
  uncovered : r.pbuf &&& ~~~r.cover = 0#64

theorem encoded_encBegin (r : Regs) : Encoded n [] (effectOf .encBegin r).regs :=
  ⟨rfl, .nil, nofun, BitVec.zero_and⟩

/-- What it takes for `INSERT` to answer OK, and what it then does. -/
theorem insertEffect_ok {v : Word} {r : Regs} (h : (insertEffect n v r).response.status = .ok) :
    validDesc n r.desc = true ∧ fits v r.desc = true ∧ r.cover &&& rangeMask n r.desc = 0#64 ∧
      (insertEffect n v r).regs =
        { r with
          pbuf := insertRaw n r.pbuf r.desc v
          cover := r.cover ||| rangeMask n r.desc } := by
  rcases insertEffect_cases n v r with
    ⟨_, he⟩ | ⟨_, _, he⟩ | ⟨_, _, _, he⟩ | ⟨_, _, _, _, he⟩ | ⟨_, hd, hf, ho, he⟩
  case inr.inr.inr.inr => exact ⟨hd, hf, ho, by rw [he]; rfl⟩
  all_goals
    rw [he, raise_response] at h
    exact absurd h (by decide)

/-- An `INSERT` that answers OK adds its signal and leaves the others, whose ranges it does not meet. -/
theorem Encoded.insert {xs : List RawSignal} {r : Regs} (h : Encoded n xs r) {x : RawSignal}
    (hdesc : r.desc = x.desc) (hok : (insertEffect n x.value r).response.status = .ok) :
    Encoded n (xs ++ [x]) (insertEffect n x.value r).regs := by
  obtain ⟨hd, hf, hfree, hregs⟩ := insertEffect_ok n hok
  have huncovered := insertRaw_uncovered n r.desc x.value r.pbuf r.cover hd h.uncovered
  rw [hregs]
  rw [hdesc] at hd hf hfree huncovered ⊢
  have hxs := (rawCover_and_eq_zero_iff n xs _).1 (h.cover ▸ hfree)
  refine ⟨by rw [rawCover_append, ← h.cover], ?_, ?_, huncovered⟩
  · exact List.pairwise_append.2 ⟨h.disjoint, List.pairwise_singleton _ _, fun y hy z hz =>
      List.mem_singleton.1 hz ▸ hxs y hy⟩
  · intro y hy
    rcases List.mem_append.1 hy with hy | hy
    · obtain ⟨hvalid, hvalue⟩ := h.reads y hy
      have hapart : rangeMask n x.desc &&& rangeMask n y.desc = 0#64 := (BitVec.and_comm ..).trans (hxs y hy)
      exact ⟨hvalid, (extractRaw_insertRaw_disjoint hd hvalid hapart _ _).trans hvalue⟩
    · rw [List.mem_singleton.1 hy]
      exact ⟨hd, extractRaw_insertRaw hd _ hf⟩

/-- `SETDESC` writes none of what is encoded. -/
theorem Encoded.setdesc {xs : List RawSignal} {r : Regs} (h : Encoded n xs r) (x : RawSignal) :
    Encoded n xs (effectOf (.setdesc x.start x.len x.order x.signed) r).regs :=
  ⟨h.cover, h.disjoint, h.reads, h.uncovered⟩

end

/-! ## The list of signals -/

/-- The responses that a list of commands adds are its answers. -/
theorem ranAll_responses (s : State) (is : List Instr) :
    (s.ranAll is).responses = s.responses ++ s.answers is := by
  induction is generalizing s with
  | nil => exact (List.append_nil _).symm
  | cons i is ih =>
    rw [ranAll_cons, ih, State.ran, after_responses, List.append_assoc]
    rfl

theorem rawEncodeCommands_append (xs : List RawSignal) (x : RawSignal) :
    rawEncodeCommands (xs ++ [x]) = rawEncodeCommands xs ++ x.commands := by
  simp [rawEncodeCommands]

theorem decode_encode_rawEncodeCommands (xs : List RawSignal) :
    ∀ i ∈ rawEncodeCommands xs, decode (encode i) = .ok i := by
  refine fun i hi => decodeOfEncode i ?_
  rcases List.mem_cons.1 hi with rfl | hi
  · rfl
  · obtain ⟨x, _, hx⟩ := List.mem_flatMap.1 hi
    simp only [RawSignal.commands, List.mem_cons, List.not_mem_nil, or_false] at hx
    rcases hx with rfl | rfl <;> rfl

/-- With every answer OK, all signals of the list are encoded. -/
theorem encoded_ranAll (xs : List RawSignal) (s : State)
    (hok : ∀ q ∈ s.answers (rawEncodeCommands xs), q.status = .ok) :
    Encoded Config.beStartNumbering xs (s.ranAll (rawEncodeCommands xs)).regs := by
  induction xs using List.reverseRecOn with
  | nil => exact encoded_encBegin _ s.regs
  | append_singleton xs x ih =>
    rw [rawEncodeCommands_append, answers_append] at hok
    obtain ⟨hbefore, hsignal⟩ := List.forall_mem_append.1 hok
    rw [rawEncodeCommands_append, ranAll_append]
    exact ((ih hbefore).setdesc _ x).insert _ rfl (hsignal _ (List.mem_cons_of_mem _ List.mem_cons_self))

/-- Settles O55: the responses are the answers to the commands, and these are all OK. -/
theorem successfulEncodeReadsBack : Obligations.SuccessfulEncodeReadsBack := by
  intro xs s t qs hrun hresponses hok
  rw [runInstrs_eq (decode_encode_rawEncodeCommands xs), Host.Outcome.next.injEq] at hrun
  subst hrun
  rw [ranAll_responses, List.append_cancel_left_eq] at hresponses
  obtain ⟨hcover, hdisjoint, hreads, huncovered⟩ := encoded_ranAll xs s (hresponses ▸ hok)
  exact ⟨hcover, hdisjoint, hreads, huncovered⟩

end Sys2Proof.Machine
end

section
/-! PROOFS. Encoding the decoded values of a payload (44_host_level.md R208, R211): while the host's loop runs, PBUF
holds the payload's bits of the signals sent so far and no other. -/

namespace Sys2Proof.Machine

/-! ## The codec -/

/-- Inserting a payload's own value into a part of the payload adds the signal's bits to that part. -/
theorem insertRaw_part {n : BeStartNumbering} {d : Desc} (hvalid : validDesc n d = true) (P c : Word) :
    insertRaw n (P &&& c) d (extractRaw n P d) = P &&& (c ||| rangeMask n d) := by
  refine insertRaw_eq_of_bits hvalid (fun k hk => ?_) fun j hj hout => ?_
  · rw [getLsbD_extractRaw_of_lt hvalid P hk, BitVec.getLsbD_and, BitVec.getLsbD_or,
      getLsbD_rangeMask_loc hvalid hk, Bool.or_true, Bool.and_true]
  · rw [BitVec.getLsbD_and, BitVec.getLsbD_and, BitVec.getLsbD_or, hout, Bool.or_false]

section
variable {F : Type} {n : BeStartNumbering} {sd : SignalDescriptor F} (payload : List Byte)

@[simp] theorem SignalDescriptor.desc_len (sd : SignalDescriptor F) : sd.desc.len = sd.bitLength.toNat :=
  descBits_len ..

@[simp] theorem SignalDescriptor.desc_signed (sd : SignalDescriptor F) : sd.desc.signed = sd.isSigned :=
  descBits_signed ..

/-- The raw integer is sent as the pattern that was extracted. -/
theorem ofInt_signalRaw :
    BitVec.ofInt 64 (signalRaw n payload sd) = extractRaw n (pack64le payload) sd.desc := by
  unfold signalRaw
  split
  · exact BitVec.ofInt_toInt
  · rw [BitVec.ofInt_natCast, BitVec.ofNat_toNat, BitVec.setWidth_eq]

/-- The host's fit test accepts what was extracted, as the block's does. -/
theorem rawFits_signalRaw (hvalid : sd.valid n = true) : rawFits sd (signalRaw n payload sd) := by
  have hfits := fits_extractRaw hvalid (pack64le payload)
  unfold rawFits signalRaw
  cases hs : sd.isSigned with
  | false =>
    rw [fits_of_unsigned ((SignalDescriptor.desc_signed sd).trans hs), SignalDescriptor.desc_len] at hfits
    simp only [Bool.false_eq_true, if_false]
    refine ⟨Int.natCast_nonneg _, Int.le_sub_one_of_lt ?_⟩
    exact_mod_cast hfits
  | true =>
    rw [fits_of_signed ((SignalDescriptor.desc_signed sd).trans hs), SignalDescriptor.desc_len] at hfits
    simp only [if_true]
    exact ⟨hfits.1, Int.le_sub_one_of_lt hfits.2⟩

end

/-! ## One signal through the block -/

/-- An encode is under way that has taken the payload bits of `c` and copied them from the payload. -/
structure HoldsPart (payload : List Byte) (c : Word) (r : Regs) : Prop where
  encerr : r.encerr = false
  cover : r.cover = c
  pbuf : r.pbuf = pack64le payload &&& c

/-- The host is given the signal's value in the payload, and that value encodes back to its raw value. -/
structure EncodesBack {F : Type} (num : Num F) (payload : List Byte) (values : List (String × F))
    (sd : SignalDescriptor F) : Prop where
  given : mapGet values sd.name = some (signalValue num Config.beStartNumbering payload sd)
  valid : sd.valid Config.beStartNumbering = true
  inside : inBounds num (signalValue num Config.beStartNumbering payload sd) sd
  rounds : roundsTo num sd (signalValue num Config.beStartNumbering payload sd)
    (signalRaw Config.beStartNumbering payload sd)

/-- The state after a signal's `SETDESC` and the `INSERT` of its raw value in the payload. -/
def State.inserted {F : Type} (payload : List Byte) (s : State) (sd : SignalDescriptor F) : State :=
  (s.ran sd.setdesc).ran (.insert (BitVec.ofInt 64 (signalRaw Config.beStartNumbering payload sd)))

section
variable {F : Type} {payload : List Byte} {c : Word} {s : State} (hs : HoldsPart payload c s.regs)
include hs

/-- An `INSERT` of the payload's own value through a free range. -/
theorem HoldsPart.insert {sd : SignalDescriptor F} (hvalid : sd.valid Config.beStartNumbering = true)
    (hfree : c &&& rangeMask Config.beStartNumbering sd.desc = 0#64) :
    HoldsPart payload (c ||| rangeMask Config.beStartNumbering sd.desc) (s.inserted payload sd).regs ∧
      (effectOf (.insert (BitVec.ofInt 64 (signalRaw Config.beStartNumbering payload sd)))
        (s.ran sd.setdesc).regs).response = ⟨.ok, 0#64⟩ := by
  have heff := effectOf_insert_of_free (r := (s.ran sd.setdesc).regs) hs.encerr hvalid
    (fits_extractRaw hvalid (pack64le payload)) (hs.cover.symm ▸ hfree)
  rw [State.inserted, ran_regs, ofInt_signalRaw, heff]
  refine ⟨⟨hs.encerr, congrArg (· ||| _) hs.cover, ?_⟩, rfl⟩
  rw [← insertRaw_part hvalid, ← hs.pbuf]
  rfl

/-- The loop sends such a signal and goes on with the others. -/
theorem encodeLoop_cons (num : Num F) {values : List (String × F)} {sd : SignalDescriptor F}
    (hsd : EncodesBack num payload values sd)
    (hfree : c &&& rangeMask Config.beStartNumbering sd.desc = 0#64) (sds : List (SignalDescriptor F)) :
    encodeLoop num values (sd :: sds) s = encodeLoop num values sds (s.inserted payload sd) := by
  have hset : ask sd.setdesc s = _ := ask_ran rfl s
  have hins : ask (.insert (BitVec.ofInt 64 (signalRaw Config.beStartNumbering payload sd)))
      (s.ran sd.setdesc) = _ := ask_ran rfl _
  rw [(hs.insert hsd.valid hfree).2] at hins
  have hraw := (roundsTo_iff num sd _ _).1 hsd.rounds
  have hfits := (rawFits_iff sd _).1 (rawFits_signalRaw payload hsd.valid)
  have hinside := (inBounds_iff num sd _).1 hsd.inside
  simp only [encodeLoop, hsd.given, hinside, hraw, hfits, hset, hins, Bool.false_eq_true, Bool.true_eq_false,
    ne_eq, not_true_eq_false, if_false]
  rfl

end

/-! ## The loop -/

section
variable {F : Type} (num : Num F) {payload : List Byte} {values : List (String × F)}

/-- Signals in free and disjoint ranges are all sent. -/
theorem encodeLoop_of_encodesBack {c : Word} {s : State} (sds : List (SignalDescriptor F))
    (hs : HoldsPart payload c s.regs) (hsds : ∀ sd ∈ sds, EncodesBack num payload values sd)
    (hfree : ∀ sd ∈ sds, c &&& rangeMask Config.beStartNumbering sd.desc = 0#64)
    (hdisjoint : rangesDisjoint Config.beStartNumbering sds) :
    ∃ t, encodeLoop num values sds s = (t, .ok ()) ∧
      HoldsPart payload (c ||| coverOf Config.beStartNumbering sds) t.regs := by
  induction sds generalizing c s with
  | nil => exact ⟨s, rfl, by rwa [coverOf, BitVec.or_zero]⟩
  | cons sd sds ih =>
    obtain ⟨hsd, hrest⟩ := List.forall_mem_cons.1 hsds
    obtain ⟨hfirst, hfree⟩ := List.forall_mem_cons.1 hfree
    obtain ⟨hapart, hdisjoint⟩ := List.pairwise_cons.1 hdisjoint
    rw [encodeLoop_cons hs num hsd hfirst, coverOf, ← BitVec.or_assoc]
    exact ih (hs.insert hsd.valid hfirst).1 hrest
      (fun e he => (or_and_eq_zero_iff _ _ _).2 ⟨hfree e he, hapart e he⟩) hdisjoint

/-- What an encode under way reads out. -/
theorem HoldsPart.ask_rd_pbuf {c : Word} {s : State} (hs : HoldsPart payload c s.regs) :
    ask (.rd regPbuf) s = some (s.ran (.rd regPbuf), ⟨.ok, pack64le payload &&& c⟩) := by
  have heff : effectOf (.rd regPbuf) s.regs = accept s.regs s.regs.pbuf :=
    if_neg (by rw [hs.encerr]; decide)
  rw [ask_ran rfl, heff, ← hs.pbuf, accept_response]

/-- An encode of a payload's own values, from every state, gives the payload's covered bits. -/
theorem encodeSignals_of_encodesBack {md : MessageDescriptor F} (s : State)
    (hsds : ∀ sd ∈ md.signals, EncodesBack num payload values sd)
    (hdisjoint : rangesDisjoint Config.beStartNumbering md.signals) :
    ∃ t, encodeSignals num values md s =
      (t, .ok (unpack64le (pack64le payload &&& coverOf Config.beStartNumbering md.signals))) := by
  have hgiven : md.signals.find? (fun sd => (mapGet values sd.name).isNone) = none :=
    List.find?_eq_none.2 fun sd hsd => by simp [(hsds sd hsd).given]
  have hbegin : HoldsPart payload 0#64 (s.ran .encBegin).regs := ⟨rfl, rfl, (BitVec.and_zero ..).symm⟩
  obtain ⟨t, hloop, ht⟩ := encodeLoop_of_encodesBack num md.signals hbegin hsds
    (fun _ _ => BitVec.zero_and) hdisjoint
  rw [BitVec.zero_or] at ht
  have hask : ask .encBegin s = _ := ask_ran rfl s
  refine ⟨t.ran (.rd regPbuf), ?_⟩
  simp only [encodeSignals, hgiven, hask, hloop, ht.ask_rd_pbuf, ne_eq, not_true_eq_false, if_false]

/-- Decoding a payload gives the record of its signals, and the encode of those values its covered bits. -/
theorem encode_decode_of_lossless (payload : List Byte) {md : MessageDescriptor F} (s : State)
    (hnodup : (md.signals.map (·.name)).Nodup)
    (hvalid : ∀ sd ∈ md.signals, sd.valid Config.beStartNumbering = true)
    (hdisjoint : rangesDisjoint Config.beStartNumbering md.signals)
    (hinside : ∀ sd ∈ md.signals, inBounds num (signalValue num Config.beStartNumbering payload sd) sd)
    (hrounds : ∀ sd ∈ md.signals, roundsTo num sd (signalValue num Config.beStartNumbering payload sd)
      (signalRaw Config.beStartNumbering payload sd)) :
    ∃ t d u, decodeSignals num payload md s = (t, .ok d) ∧ encodeSignals num d.values md t =
      (u, .ok (unpack64le (pack64le payload &&& coverOf Config.beStartNumbering md.signals))) := by
  have hload : ask (.pload (pack64le payload)) s = _ := ask_ran rfl s
  have hheld : HoldsPayload payload (s.ran (.pload (pack64le payload))).regs := ⟨rfl, rfl⟩
  obtain ⟨u, hu⟩ := encodeSignals_of_encodesBack num
    (md.signals.foldl State.extracted (s.ran (.pload (pack64le payload))))
    (fun sd hsd => ⟨mapGet_recordAll num Config.beStartNumbering payload ⟨[], []⟩ _ hnodup hsd,
      hvalid sd hsd, hinside sd hsd, hrounds sd hsd⟩) hdisjoint
  exact ⟨_, _, u, by simp only [decodeSignals, hload, decodeHeld_of_valid hheld num md hvalid], hu⟩

end

/-! ## The worked example (R212) -/

/-- The signal of R212: 16 bits from bit 0, little-endian, unsigned, scale 0.1, offset 0. -/
def tenthsSignal : SignalDescriptor F64 :=
  ⟨"a", 0#8, 16#8, .little, false, 0x3FB999999999999A#64, 0#64, none, none, ""⟩

/-- Its payload of R212, 10000 in the low two bytes. -/
def tenthsPayload : List Byte := [0x10#8, 0x27#8, 0#8, 0#8, 0#8, 0#8, 0#8, 0#8]

/-- In that payload the signal has the value 1000.0, which encodes back by either tie rule. -/
theorem tenthsSignal_encodesBack (mode : RoundMode) :
    EncodesBack (binary64 mode) tenthsPayload [("a", 0x408F400000000000#64)] tenthsSignal := by
  have hraw : signalRaw Config.beStartNumbering tenthsPayload tenthsSignal = 10000 := by decide
  have hvalue : signalValue (binary64 mode) Config.beStartNumbering tenthsPayload tenthsSignal =
      0x408F400000000000#64 := by
    rw [signalValue, hraw]
    cases mode <;> decide +kernel
  refine ⟨by rw [hvalue]; rfl, by decide, ⟨nofun, nofun⟩, ?_⟩
  rw [hvalue, hraw]
  cases mode <;> exact ⟨by decide +kernel, by decide +kernel⟩

/-- Settles O59: the decoded values are the payload's own, and so are the value and the bytes of R212. -/
theorem hostRoundTripOnCoveredBits : Obligations.HostRoundTripOnCoveredBits := by
  refine ⟨fun F num payload md s => encode_decode_of_lossless num payload s, fun mode s => ?_⟩
  have hbytes : unpack64le (pack64le tenthsPayload &&& coverOf Config.beStartNumbering [tenthsSignal]) =
      tenthsPayload := by decide
  have hencode := encodeSignals_of_encodesBack (binary64 mode) (md := ⟨0#32, "m", 8, [tenthsSignal]⟩) s
    (fun sd hsd => List.mem_singleton.1 hsd ▸ tenthsSignal_encodesBack mode) (List.pairwise_singleton _ _)
  rwa [hbytes] at hencode

end Sys2Proof.Machine
end

section
/-! PROOFS. The system commands `RD` and `RESET` (43_system.md R190, R191), as commands and as presented words. -/

namespace Sys2Proof.Machine

/-- Settles O1: the effect of `RESET` is the reset registers, and the words of format Z with its opcode. -/
theorem resetCommandZeroesAllState : Obligations.ResetCommandZeroesAllState :=
  ⟨fun s => ⟨_, exec_after .reset s, rfl, Memory.read_nil, rfl, rfl, rfl, rfl, rfl, rfl, rfl, rfl, rfl⟩,
    wordRuns_withArg .reset fun _ => rfl⟩

/-! ## The status register and the gates of `RD` -/

/-- `STATUS` is the two flags, each in its own bit. -/
theorem statusWord_eq (r : Regs) :
    statusWord r = (if r.fvalid then 1#64 else 0#64) ||| (if r.encerr then 2#64 else 0#64) := by
  unfold statusWord
  cases r.fvalid <;> cases r.encerr <;> rfl

section
variable {r : Regs}

theorem readFrame_of_held (hv : r.fvalid = true) (d : Word) : readFrame d r = accept r d :=
  if_neg (by rw [hv]; decide)

theorem readFrame_of_noFrame (hv : r.fvalid = false) (d : Word) : readFrame d r = raise .eNoFrame r :=
  if_pos hv

/-- The registers 0x03 to 0x08 are those whose read FVALID gates. -/
theorem rdEffect_eq_readFrame {n : Byte} (hlo : 0x03 ≤ n.toNat) (hhi : n.toNat ≤ 0x08) :
    ∃ d, rdEffect n r = readFrame d r := by
  unfold rdEffect
  generalize n.toNat = k at hlo hhi
  interval_cases k <;> exact ⟨_, rfl⟩

theorem effectOf_rd_of_noFrame {n : Byte} (hv : r.fvalid = false) (hlo : 0x03 ≤ n.toNat)
    (hhi : n.toNat ≤ 0x08) : effectOf (.rd n) r = raise .eNoFrame r := by
  obtain ⟨d, hd⟩ := rdEffect_eq_readFrame (r := r) hlo hhi
  exact hd.trans (readFrame_of_noFrame hv d)

theorem effectOf_rd_pbuf_of_accepted (he : r.encerr = false) : effectOf (.rd 0x09#8) r = accept r r.pbuf :=
  if_neg (by rw [he]; decide)

theorem effectOf_rd_pbuf_of_rejected (he : r.encerr = true) : effectOf (.rd 0x09#8) r = raise .eEncode r :=
  if_pos he

theorem effectOf_rd_of_unknown {n : Byte} (hn : 0x0B < n.toNat) : effectOf (.rd n) r = raise .eArg r := by
  obtain ⟨k, hk⟩ := Nat.exists_eq_add_of_le' hn
  simp only [effectOf, rdEffect, hk]

end

theorem exec_rd_of_unknown {n : Byte} (s : State) (hn : 0x0B < n.toNat) :
    exec (.rd n) s = .next (s.refused .eArg) := exec_of_effectOf (effectOf_rd_of_unknown hn)

/-! ## `RD` -/

/-- The words of format R: with its reserved bits 0, `RD` of an unknown register is refused in the decoder, as its
meaning would refuse it. -/
theorem wordRuns_rd :
    wordRuns 0x40#8 0xFFFFFFFFFFFFFF00#64 (fun arg => .rd (arg.extractLsb' 0 8)) := by
  intro w s hop
  by_cases hbits : noBitsFrom 8 (argOf w)
  · refine Eq.trans ?_ (if_neg (not_not.2 hbits)).symm
    by_cases hn : 0x0B < ((argOf w).extractLsb' 0 8).toNat
    · exact (issue_badRegister hop hn s).trans (exec_rd_of_unknown s hn).symm
    · have hwf : (withArg (argOf w) (.rd 0#8)).wf = true := by simpa [withArg, Instr.wf] using hn
      exact issue_of_decode ((decode_operands (i := .rd 0#8) hop hbits).trans (if_pos hwf)) s
  · exact (issue_reserved ⟨.rd 0#8, hop, rfl⟩ hbits s).trans (if_pos hbits).symm

/-- Settles O13: the five reads without a gate, the six that FVALID gates, the one that ENCERR gates, the unknown
register numbers, and the words. -/
theorem rdReadsEachRegister : Obligations.RdReadsEachRegister := by
  refine ⟨fun s => ⟨exec_after (.rd 0x00#8) s, statusWord_eq s.regs ▸ exec_after (.rd 0x01#8) s,
      exec_after (.rd 0x02#8) s, exec_after (.rd 0x0A#8) s, exec_after (.rd 0x0B#8) s⟩, fun s hv => ?_,
    fun _ _ hv hlo hhi => exec_of_effectOf (effectOf_rd_of_noFrame hv hlo hhi),
    fun _ he => exec_of_effectOf (effectOf_rd_pbuf_of_accepted he),
    fun _ he => exec_of_effectOf (effectOf_rd_pbuf_of_rejected he),
    fun s _ hn => exec_rd_of_unknown s hn, wordRuns_rd⟩
  have hread := readFrame_of_held hv
  exact ⟨exec_of_effectOf (i := .rd 0x03#8) (hread _), exec_of_effectOf (i := .rd 0x04#8) (hread _),
    exec_of_effectOf (i := .rd 0x05#8) (hread _), exec_of_effectOf (i := .rd 0x06#8) (hread _),
    exec_of_effectOf (i := .rd 0x07#8) (hread _), exec_of_effectOf (i := .rd 0x08#8) (hread _)⟩

end Sys2Proof.Machine
end

section
/-! PROOFS. What `decode_signals` returns (44_host_level.md R203 to R205): it loads the payload and runs the loop; a
report is never a NaN; and the worked example of R212, whose signal lies in the first two bytes. -/

namespace Sys2Proof.Machine

/-! ## The payload's first bytes -/

/-- The bytes that follow `bs` leave its bits. -/
theorem getLsbD_pack64le_append (bs cs : List Byte) {j : Nat} (hj : j < 8 * bs.length) :
    (pack64le (bs ++ cs)).getLsbD j = (pack64le bs).getLsbD j := by
  induction bs generalizing j with
  | nil => contradiction
  | cons b bs ih =>
    rw [List.length_cons] at hj
    simp only [List.cons_append, pack64le, BitVec.getLsbD_or, BitVec.getLsbD_shiftLeft]
    by_cases hlow : j < 8
    · simp [hlow]
    · rw [ih (by omega)]

/-! ## The raw value of the worked example (R212) -/

/-- The descriptor of R212: 16 bits from bit 0, little-endian, unsigned. -/
def tenthsDesc : Desc := descBits 0#8 16#8 .little false

theorem tenthsDesc_valid : validDesc Config.beStartNumbering tenthsDesc = true := by decide

/-- Its raw value is the first two bytes, whatever follows them. -/
theorem extractRaw_tenthsDesc (rest : List Byte) :
    extractRaw Config.beStartNumbering (pack64le (0x10#8 :: 0x27#8 :: rest)) tenthsDesc = 10000#64 := by
  have hfirst : extractRaw Config.beStartNumbering (pack64le [0x10#8, 0x27#8]) tenthsDesc = 10000#64 := by
    decide
  refine (extractRaw_congr tenthsDesc_valid fun k hk => ?_).trans hfirst
  have hk : k < 16 := hk
  have hloc : loc Config.beStartNumbering tenthsDesc k < 16 := by
    rwa [loc_of_little (by decide), (by decide : tenthsDesc.start = 0), Nat.zero_add]
  exact getLsbD_pack64le_append [0x10#8, 0x27#8] rest hloc

section
variable {F : Type} (num : Num F) (payload : List Byte) (md : MessageDescriptor F) (s : State)

/-! ## The payload loaded -/

/-- The state after the payload's `PLOAD`. -/
def State.loaded : State := s.ran (.pload (pack64le payload))

theorem holdsPayload_loaded : HoldsPayload payload (s.loaded payload).regs := ⟨rfl, rfl⟩

theorem decodeSignals_eq_decodeHeld :
    decodeSignals num payload md s = decodeHeld num md (s.loaded payload) := by
  have hload : ask (.pload (pack64le payload)) s = _ := ask_ran rfl s
  simp only [decodeSignals, hload]
  rfl

theorem decodeSignals_of_valid (hvalid : ∀ sd ∈ md.signals, sd.valid Config.beStartNumbering = true) :
    decodeSignals num payload md s = (md.signals.foldl State.extracted (s.loaded payload),
      .ok (Decoded.recordAll num Config.beStartNumbering payload ⟨[], []⟩ md.signals)) := by
  rw [decodeSignals_eq_decodeHeld, decodeHeld_of_valid (holdsPayload_loaded payload s) num md hvalid]

/-! ## The reports -/

variable {payload md}

/-- Only values out of bounds are reported, and a NaN is never out of bounds. -/
theorem Decoded.of.isNan_eq_false {n : BeStartNumbering} {d : Decoded F}
    (h : Decoded.of num n payload md d) {e : String × F} (he : e ∈ d.reports) :
    num.isNan e.2 = false := by
  obtain ⟨_, hreports, hsublist⟩ := h
  obtain ⟨sd, hsd, rfl⟩ := List.mem_map.1 (hsublist.subset he)
  exact Bool.eq_false_iff.2 fun hnan => (hreports sd hsd).1 he (inBounds_nan num sd _ hnan)

/-! ## The value of the worked example (R212) -/

/-- The signal of R212 under any NUM: scale 0.1, offset 0, no bounds. -/
def Num.tenthsSignal (name unit : String) : SignalDescriptor F :=
  ⟨name, 0#8, 16#8, .little, false, num.tenth, num.i2f 0, none, none, unit⟩

theorem tenthsSignal_valid (name unit : String) :
    (num.tenthsSignal name unit).valid Config.beStartNumbering = true := tenthsDesc_valid

theorem signalRaw_tenthsSignal (name unit : String) (rest : List Byte) :
    signalRaw Config.beStartNumbering (0x10#8 :: 0x27#8 :: rest) (num.tenthsSignal name unit) = 10000 :=
  congrArg (fun v : Word => (v.toNat : Int)) (extractRaw_tenthsDesc rest)

theorem signalValue_tenthsSignal (name unit : String) (rest : List Byte) :
    signalValue num Config.beStartNumbering (0x10#8 :: 0x27#8 :: rest) (num.tenthsSignal name unit) =
      num.i2f 1000 := by
  rw [signalValue, signalRaw_tenthsSignal]
  exact num.thousand

end

/-- Settles O57: valid signals are all recorded, the first invalid one ends the loop, and R212's signal has the
raw value 10000. -/
theorem decodeSignalsGivesEachPhysicalValue : Obligations.DecodeSignalsGivesEachPhysicalValue := by
  refine ⟨fun F num payload md s hnodup hvalid => ?_,
    fun F num payload md s pre post sd hsplit hpre hinvalid => ?_, fun F num rest id name unit s => ?_⟩
  · have hof := decodedOf_recordAll num Config.beStartNumbering payload md hnodup
    exact ⟨_, _, decodeSignals_of_valid num payload md s hvalid, hof, fun _ => hof.isNan_eq_false num⟩
  · rw [decodeSignals_eq_decodeHeld,
      decodeHeld_of_invalid (holdsPayload_loaded payload s) num hsplit hpre hinvalid]
  · have hvalue := mapGet_recordAll num Config.beStartNumbering (0x10#8 :: 0x27#8 :: rest) ⟨[], []⟩
      [num.tenthsSignal name unit] (List.nodup_singleton _) (List.mem_singleton_self _)
    rw [signalValue_tenthsSignal] at hvalue
    exact ⟨_, _, decodeSignals_of_valid num _ ⟨id, "m", 8, [num.tenthsSignal name unit]⟩ s
      fun sd hsd => List.mem_singleton.1 hsd ▸ tenthsSignal_valid num name unit, hvalue⟩

end Sys2Proof.Machine
end

section
/-! PROOFS. What `encode_signals` returns (44_host_level.md R207 to R210): while its loop runs, the block holds exactly
the signals sent so far; the first signal that cannot be sent ends it with its reason. -/

namespace Sys2Proof.Machine

/-! ## Packing -/

/-- A payload's bytes pack to the payload. -/
theorem pack64le_unpack64le (v : Word) : pack64le (unpack64le v) = v := by
  refine BitVec.eq_of_getLsbD_eq fun j hj => ?_
  have hbyte : (pack64le (unpack64le v)).extractLsb' (8 * (j / 8)) 8 = v.extractLsb' (8 * (j / 8)) 8 := by
    rw [extract_pack64le _ _ (by omega) (by rw [length_unpack64le]; omega)]
    simp [unpack64le]
  have hbit := congrArg (·.getLsbD (j % 8)) hbyte
  simp only [BitVec.getLsbD_extractLsb', decide_eq_true (Nat.mod_lt j (by decide : 0 < 8)),
    Bool.true_and] at hbit
  rwa [Nat.div_add_mod] at hbit

/-! ## The raw value of a signal -/

section
variable {F : Type} {n : BeStartNumbering} {sd : SignalDescriptor F} {raw : Int}

/-- A raw integer that passes the host's fit test passes the block's. -/
theorem fits_ofInt_of_rawFits (hvalid : sd.valid n = true) (h : rawFits sd raw) :
    fits (BitVec.ofInt 64 raw) sd.desc = true := by
  have h64 := (validDesc_len n sd.desc hvalid).2
  have hlen : sd.desc.len = sd.bitLength.toNat := SignalDescriptor.desc_len sd
  rw [rawFits, ← hlen] at h
  cases hs : sd.isSigned with
  | false =>
    rw [if_neg (by rw [hs]; decide)] at h
    have hpow : (2 : Int) ^ sd.desc.len ≤ 2 ^ 64 := pow_le_pow_right₀ (by decide) h64
    rw [fits_of_unsigned ((SignalDescriptor.desc_signed sd).trans hs), BitVec.toNat_ofInt]
    zify
    omega
  | true =>
    rw [if_pos hs] at h
    have hpow : (2 : Int) ^ (sd.desc.len - 1) ≤ 2 ^ 63 := pow_le_pow_right₀ (by decide) (by omega)
    have hint : (BitVec.ofInt 64 raw).toInt = raw := by
      rw [BitVec.toInt_ofInt]
      exact Int.bmod_eq_of_le (by omega) (by omega)
    rw [fits_of_signed ((SignalDescriptor.desc_signed sd).trans hs), hint]
    omega

variable (num : Num F) (values : List (String × F))

/-- The host was given a value of the signal in bounds, and rounds its quotient to the raw value, which fits. -/
structure GivesRaw (sd : SignalDescriptor F) (value : F) (raw : Int) : Prop where
  given : mapGet values sd.name = some value
  inside : inBounds num value sd
  rounds : roundsTo num sd value raw
  fits : rawFits sd raw

variable {num values} {value : F}

/-- A value that has a raw value is finite, and its signal's scale is not 0 (R209). -/
theorem GivesRaw.finite_and_scale (h : GivesRaw num values sd value raw) :
    num.isFinite value = true ∧ num.isZero sd.scale = false := by
  have hraw := (roundsTo_iff num sd value raw).1 h.rounds
  constructor
  · by_contra hfinite
    rw [encodeRaw_not_finite num sd value (Bool.eq_false_iff.2 hfinite)] at hraw
    contradiction
  · by_contra hzero
    rw [encodeRaw_zero_scale num sd value (Bool.eq_true_of_not_eq_false hzero)] at hraw
    contradiction

end

/-! ## The signals sent so far -/

/-- A signal with its raw value, as the codec's raw encode takes it. -/
def SignalDescriptor.withRaw {F : Type} (sd : SignalDescriptor F) (raw : Int) : RawSignal :=
  ⟨sd.startBit, sd.bitLength, sd.byteOrder, sd.isSigned, BitVec.ofInt 64 raw⟩

@[simp] theorem SignalDescriptor.desc_withRaw {F : Type} (sd : SignalDescriptor F) (raw : Int) :
    (sd.withRaw raw).desc = sd.desc := rfl

@[simp] theorem SignalDescriptor.value_withRaw {F : Type} (sd : SignalDescriptor F) (raw : Int) :
    (sd.withRaw raw).value = BitVec.ofInt 64 raw := rfl

section
variable {F : Type} (num : Num F) (values : List (String × F))

/-- Since `ENC_BEGIN` exactly these signals were sent, each with a raw value of its given value, and none was
refused. -/
structure SignalsSent (xs : List (SignalDescriptor F × Int)) (r : Regs) : Prop where
  gives : ∀ x ∈ xs, ∃ value, GivesRaw num values x.1 value x.2
  encerr : r.encerr = false
  encoded : Encoded Config.beStartNumbering (xs.map fun x => x.1.withRaw x.2) r

theorem signalsSent_encBegin (r : Regs) : SignalsSent num values [] (effectOf .encBegin r).regs :=
  ⟨nofun, rfl, encoded_encBegin _ r⟩

/-- The state after a signal's `SETDESC` and the `INSERT` of a raw value. -/
def State.sent (s : State) (sd : SignalDescriptor F) (raw : Int) : State :=
  (s.ran sd.setdesc).ran (.insert (BitVec.ofInt 64 raw))

/-- What the block answers to that `INSERT`. -/
def State.insertAnswer (s : State) (sd : SignalDescriptor F) (raw : Int) : Response :=
  (effectOf (.insert (BitVec.ofInt 64 raw)) (s.ran sd.setdesc).regs).response

variable {num values} {xs : List (SignalDescriptor F × Int)}

theorem rawCover_withRaw (n : BeStartNumbering) (xs : List (SignalDescriptor F × Int)) :
    rawCover n (xs.map fun x => x.1.withRaw x.2) = coverOf n (xs.map Prod.fst) := by
  induction xs with
  | nil => rfl
  | cons x xs ih => exact congrArg (rangeMask n x.1.desc ||| ·) ih

section
variable {r : Regs} (h : SignalsSent num values xs r)
include h

theorem SignalsSent.rangesDisjoint : rangesDisjoint Config.beStartNumbering (xs.map Prod.fst) :=
  List.pairwise_map.2 (List.pairwise_map.1 h.encoded.disjoint)

theorem SignalsSent.reads {x : SignalDescriptor F × Int} (hx : x ∈ xs) :
    x.1.valid Config.beStartNumbering = true ∧
      extractRaw Config.beStartNumbering r.pbuf x.1.desc = BitVec.ofInt 64 x.2 := by
  have hread := h.encoded.reads _ (List.mem_map_of_mem hx)
  rwa [SignalDescriptor.desc_withRaw, SignalDescriptor.value_withRaw] at hread

/-- Each signal sent meets what R207 to R210 ask of it, and reads back. -/
theorem SignalsSent.conditions_of_mem {sd : SignalDescriptor F} (hsd : sd ∈ xs.map Prod.fst) :
    ∃ value raw, mapGet values sd.name = some value ∧ num.isFinite value = true ∧
      num.isZero sd.scale = false ∧ inBounds num value sd ∧ roundsTo num sd value raw ∧ rawFits sd raw ∧
      sd.valid Config.beStartNumbering = true ∧
      extractRaw Config.beStartNumbering r.pbuf sd.desc = BitVec.ofInt 64 raw := by
  obtain ⟨⟨sd, raw⟩, hx, rfl⟩ := List.mem_map.1 hsd
  obtain ⟨value, hgives⟩ := h.gives _ hx
  obtain ⟨hfinite, hscale⟩ := hgives.finite_and_scale
  obtain ⟨hvalid, hread⟩ := h.reads hx
  exact ⟨value, raw, hgives.given, hfinite, hscale, hgives.inside, hgives.rounds, hgives.fits, hvalid, hread⟩

theorem SignalsSent.uncovered : r.pbuf &&& ~~~coverOf Config.beStartNumbering (xs.map Prod.fst) = 0#64 := by
  rw [← rawCover_withRaw, ← h.encoded.cover]
  exact h.encoded.uncovered

/-- A range that meets COVER meets the range of a signal that was sent. -/
theorem SignalsSent.not_rangesDisjoint {sd : SignalDescriptor F} (rest : List (SignalDescriptor F))
    (htaken : r.cover &&& rangeMask Config.beStartNumbering sd.desc ≠ 0#64) :
    ¬ Machine.rangesDisjoint Config.beStartNumbering (xs.map Prod.fst ++ sd :: rest) := by
  intro hdisjoint
  obtain ⟨_, _, hapart⟩ := List.pairwise_append.1 hdisjoint
  refine htaken ?_
  rw [h.encoded.cover, rawCover_and_eq_zero_iff]
  intro y hy
  obtain ⟨x, hx, rfl⟩ := List.mem_map.1 hy
  exact hapart _ (List.mem_map_of_mem hx) sd List.mem_cons_self

end

/-- The block takes a signal, or refuses it for its descriptor or for a range that is taken. -/
theorem SignalsSent.insert_cases {s : State} (h : SignalsSent num values xs s.regs)
    {sd : SignalDescriptor F} {value : F} {raw : Int} (hraw : GivesRaw num values sd value raw) :
    (sd.valid Config.beStartNumbering = false ∧ s.insertAnswer sd raw = ⟨.eDesc, 0#64⟩) ∨
    (s.regs.cover &&& rangeMask Config.beStartNumbering sd.desc ≠ 0#64 ∧
      s.insertAnswer sd raw = ⟨.eOverlap, 0#64⟩) ∨
    (SignalsSent num values (xs ++ [(sd, raw)]) (s.sent sd raw).regs ∧
      s.insertAnswer sd raw = ⟨.ok, 0#64⟩) := by
  have hencerr : (s.ran sd.setdesc).regs.encerr = false := h.encerr
  cases hvalid : sd.valid Config.beStartNumbering with
  | false => exact .inl ⟨rfl, by rw [State.insertAnswer, effectOf_insert_of_invalid _ hencerr hvalid]; rfl⟩
  | true =>
    have hfits := fits_ofInt_of_rawFits hvalid hraw.fits
    by_cases hfree : s.regs.cover &&& rangeMask Config.beStartNumbering sd.desc = 0#64
    · have heff := effectOf_insert_of_free (r := (s.ran sd.setdesc).regs) hencerr hvalid hfits hfree
      have hanswer : s.insertAnswer sd raw = ⟨.ok, 0#64⟩ := by rw [State.insertAnswer, heff]; rfl
      refine .inr (.inr ⟨⟨?_, ?_, ?_⟩, hanswer⟩)
      · exact List.forall_mem_append.2 ⟨h.gives, List.forall_mem_singleton.2 ⟨value, hraw⟩⟩
      · rw [State.sent, ran_regs, heff]
        exact hencerr
      · rw [List.map_append]
        exact (h.encoded.setdesc _ (sd.withRaw raw)).insert _ (x := sd.withRaw raw) rfl
          (congrArg Response.status hanswer)
    · have heff := effectOf_insert_of_overlap (r := (s.ran sd.setdesc).regs) hencerr hvalid hfits hfree
      exact .inr (.inl ⟨hfree, by rw [State.insertAnswer, heff]; rfl⟩)

end

/-! ## The loop -/

section
variable {F : Type} (num : Num F) (values : List (String × F))

/-- Why the loop over these signals can end early, and what it then reports. -/
inductive EncodeFails (sds : List (SignalDescriptor F)) : HostError F → Prop
  | range {sd value} (hsd : sd ∈ sds) (hgiven : mapGet values sd.name = some value)
      (hout : ¬ inBounds num value sd) : EncodeFails sds (.range sd.name value)
  | noRaw {sd value} (hsd : sd ∈ sds) (hgiven : mapGet values sd.name = some value)
      (hinside : inBounds num value sd) (hnone : ∀ raw, roundsTo num sd value raw → ¬ rawFits sd raw) :
      EncodeFails sds (.encode sd.name)
  | invalid {sd value raw} (hsd : sd ∈ sds) (hraw : GivesRaw num values sd value raw)
      (hinvalid : sd.valid Config.beStartNumbering = false) :
      EncodeFails sds (.insertRefused sd.name .eDesc)
  | overlap {sd value raw} (hsd : sd ∈ sds) (hraw : GivesRaw num values sd value raw)
      (hmeet : ¬ rangesDisjoint Config.beStartNumbering sds) :
      EncodeFails sds (.insertRefused sd.name .eOverlap)

variable {num values} {sd : SignalDescriptor F} {value : F}

theorem encodeLoop_cons_of_out (hgiven : mapGet values sd.name = some value)
    (hout : ¬ inBounds num value sd) (rest : List (SignalDescriptor F)) (s : State) :
    encodeLoop num values (sd :: rest) s = (s, .error (.range sd.name value)) := by
  rw [inBounds_iff, Bool.not_eq_false] at hout
  simp only [encodeLoop, hgiven, hout, if_true]

theorem encodeLoop_cons_of_noRaw (hgiven : mapGet values sd.name = some value)
    (hinside : inBounds num value sd) (hnone : ∀ raw, roundsTo num sd value raw → ¬ rawFits sd raw)
    (rest : List (SignalDescriptor F)) (s : State) :
    encodeLoop num values (sd :: rest) s = (s, .error (.encode sd.name)) := by
  have hinside := (inBounds_iff num sd value).1 hinside
  cases hraw : encodeRaw num sd value with
  | none => simp only [encodeLoop, hgiven, hinside, hraw, Bool.false_eq_true, if_false]
  | some raw =>
    have hfits := hnone raw ((roundsTo_iff num sd value raw).2 hraw)
    rw [rawFits_iff, Bool.not_eq_true] at hfits
    simp only [encodeLoop, hgiven, hinside, hraw, hfits, Bool.false_eq_true, if_false, if_true]

/-- A signal with a raw value is sent, and the block's answer decides. -/
theorem encodeLoop_cons_of_givesRaw {raw : Int} (h : GivesRaw num values sd value raw)
    (rest : List (SignalDescriptor F)) (s : State) :
    encodeLoop num values (sd :: rest) s =
      if (s.insertAnswer sd raw).status ≠ .ok
      then (s.sent sd raw, .error (.insertRefused sd.name (s.insertAnswer sd raw).status))
      else encodeLoop num values rest (s.sent sd raw) := by
  have hset : ask sd.setdesc s = _ := ask_ran rfl s
  have hins : ask (.insert (BitVec.ofInt 64 raw)) (s.ran sd.setdesc) =
      some (s.sent sd raw, s.insertAnswer sd raw) := ask_ran rfl _
  have hinside := (inBounds_iff num sd value).1 h.inside
  have hraw := (roundsTo_iff num sd value raw).1 h.rounds
  have hfits := (rawFits_iff sd raw).1 h.fits
  simp only [encodeLoop, h.given, hinside, hraw, hfits, hset, hins, Bool.false_eq_true, Bool.true_eq_false,
    if_false]

/-- The loop sends all its signals, or ends with the reason of one of them. -/
theorem encodeLoop_cases {xs : List (SignalDescriptor F × Int)} {s : State}
    (rest : List (SignalDescriptor F)) (hsent : SignalsSent num values xs s.regs)
    (hgiven : ∀ sd ∈ rest, mapGet values sd.name ≠ none) :
    (∃ t ys, encodeLoop num values rest s = (t, .ok ()) ∧ ys.map Prod.fst = xs.map Prod.fst ++ rest ∧
      SignalsSent num values ys t.regs) ∨
    ∃ t e, encodeLoop num values rest s = (t, .error e) ∧
      EncodeFails num values (xs.map Prod.fst ++ rest) e := by
  induction rest generalizing xs s with
  | nil => exact .inl ⟨s, xs, rfl, (List.append_nil _).symm, hsent⟩
  | cons sd rest ih =>
    obtain ⟨hfirst, hrest⟩ := List.forall_mem_cons.1 hgiven
    obtain ⟨value, hvalue⟩ := Option.ne_none_iff_exists'.1 hfirst
    have hsd : sd ∈ xs.map Prod.fst ++ sd :: rest := List.mem_append_right _ List.mem_cons_self
    by_cases hinside : inBounds num value sd
    case neg =>
      exact .inr ⟨_, _, encodeLoop_cons_of_out hvalue hinside rest s, .range hsd hvalue hinside⟩
    by_cases hraw : ∃ raw, roundsTo num sd value raw ∧ rawFits sd raw
    case neg =>
      have hnone : ∀ raw, roundsTo num sd value raw → ¬ rawFits sd raw :=
        fun raw hr hf => hraw ⟨raw, hr, hf⟩
      exact .inr ⟨_, _, encodeLoop_cons_of_noRaw hvalue hinside hnone rest s,
        .noRaw hsd hvalue hinside hnone⟩
    obtain ⟨raw, hrounds, hfits⟩ := hraw
    have hgives : GivesRaw num values sd value raw := ⟨hvalue, hinside, hrounds, hfits⟩
    rw [encodeLoop_cons_of_givesRaw hgives]
    rcases hsent.insert_cases hgives with ⟨hinvalid, hanswer⟩ | ⟨htaken, hanswer⟩ | ⟨hsent', hanswer⟩
    · rw [hanswer, if_pos (by decide)]
      exact .inr ⟨_, _, rfl, .invalid hsd hgives hinvalid⟩
    · rw [hanswer, if_pos (by decide)]
      exact .inr ⟨_, _, rfl, .overlap hsd hgives (hsent.not_rangesDisjoint rest htaken)⟩
    · rw [hanswer, if_neg (by decide)]
      have hloop := ih hsent' hrest
      rwa [List.map_append, List.append_assoc] at hloop

/-! ## The whole encode -/

variable (num values)

/-- An encode that misses a signal leaves the block; otherwise it returns the PBUF that holds all signals, or fails
as the loop does. -/
theorem encodeSignals_cases (md : MessageDescriptor F) (s : State) :
    (∃ sd ∈ md.signals, mapGet values sd.name = none ∧
      encodeSignals num values md s = (s, .error (.missingSignal sd.name))) ∨
    (∀ sd ∈ md.signals, mapGet values sd.name ≠ none) ∧
      ((∃ t xs r, encodeSignals num values md s = (t, .ok (unpack64le r.pbuf)) ∧
        xs.map Prod.fst = md.signals ∧ SignalsSent num values xs r) ∨
      ∃ t e, encodeSignals num values md s = (t, .error e) ∧ EncodeFails num values md.signals e) := by
  cases hfind : md.signals.find? (fun sd => (mapGet values sd.name).isNone) with
  | some sd =>
    have hmissing := List.find?_some hfind
    exact .inl ⟨sd, List.mem_of_find?_eq_some hfind, Option.isNone_iff_eq_none.1 hmissing,
      by simp only [encodeSignals, hfind]⟩
  | none =>
    have hgiven : ∀ sd ∈ md.signals, mapGet values sd.name ≠ none := fun sd hsd => by
      simpa using List.find?_eq_none.1 hfind sd hsd
    have hbegin : ask .encBegin s = _ := ask_ran rfl s
    refine .inr ⟨hgiven, ?_⟩
    rcases encodeLoop_cases (s := s.ran .encBegin) md.signals (signalsSent_encBegin num values s.regs)
      hgiven with
      ⟨t, xs, hloop, hxs, hsent⟩ | ⟨t, e, hloop, hfails⟩
    · have hread : ask (.rd regPbuf) t = some (t.ran (.rd regPbuf), ⟨.ok, t.regs.pbuf⟩) := by
        rw [ask_ran rfl, regPbuf, effectOf_rd_pbuf_of_accepted hsent.encerr, accept_response]
      refine .inl ⟨t.ran (.rd regPbuf), xs, t.regs, ?_, hxs, hsent⟩
      simp only [encodeSignals, hfind, hbegin, hloop, hread, ne_eq, not_true_eq_false, if_false]
    · exact .inr ⟨t, e, by simp only [encodeSignals, hfind, hbegin, hloop], hfails⟩

end

/-- Settles O58: what the signals sent leave in the block, the reasons of `EncodeFails`, and the missing signal. -/
theorem encodeSignalsIsNeverPartial : Obligations.EncodeSignalsIsNeverPartial := by
  intro F num values md s
  rcases encodeSignals_cases num values md s with
    ⟨sd, hsd, hmissing, hrun⟩ | ⟨hgiven, ⟨t, xs, r, hrun, hxs, hsent⟩ | ⟨t, e, hrun, hfails⟩⟩
  · rw [hrun]
    refine ⟨nofun, fun _ e h => ?_, fun _ _ _ => ⟨sd.name, rfl⟩⟩
    obtain ⟨rfl, he⟩ := Prod.mk.inj h
    obtain rfl := Except.error.inj he
    exact ⟨⟨sd, hsd, rfl⟩, hmissing, rfl⟩
  · rw [hrun]
    refine ⟨fun t bytes h => ?_, nofun, fun sd hsd hmissing => absurd hmissing (hgiven sd hsd)⟩
    obtain ⟨_, hbytes⟩ := Prod.mk.inj h
    obtain rfl := Except.ok.inj hbytes
    rw [pack64le_unpack64le, ← hxs]
    exact ⟨length_unpack64le _, hsent.rangesDisjoint, fun _ => hsent.conditions_of_mem, hsent.uncovered⟩
  · rw [hrun]
    refine ⟨nofun, fun _ e h => ?_, fun sd hsd hmissing => absurd hmissing (hgiven sd hsd)⟩
    obtain ⟨_, he⟩ := Prod.mk.inj h
    obtain rfl := Except.error.inj he
    cases hfails with
    | range hsd hvalue hout => exact ⟨_, hsd, rfl, hvalue, hout⟩
    | noRaw hsd hvalue hinside hnone => exact ⟨_, hsd, _, rfl, hvalue, hinside, hnone⟩
    | invalid hsd hraw hinvalid =>
      exact ⟨_, hsd, _, _, rfl, hraw.given, hraw.inside, hraw.rounds, hraw.fits, .inl ⟨rfl, hinvalid⟩⟩
    | overlap hsd hraw hmeet =>
      exact ⟨_, hsd, _, _, rfl, hraw.given, hraw.inside, hraw.rounds, hraw.fits, .inr ⟨rfl, hmeet⟩⟩

end Sys2Proof.Machine
end

section
/-! PROOFS. Refusals (60_exceptions.md R230, R232, R236): every command is answered with OK or refused for one of the
reasons of R230's table, and no step stops the block. -/

namespace Sys2Proof.Machine

/-! ## No step stops the block (R236, R266) -/

/-- Settles O20: an idle step, a reset and a refused word name their next state, and so does every command. -/
theorem everyStepGoesOn : Obligations.EveryStepGoesOn := by
  intro s
  rcases step_cases s with ⟨_, h⟩ | ⟨_, _, h⟩ | ⟨_, _, i, _, _, h⟩ | ⟨_, _, _, _, _, h⟩
  · exact ⟨_, h⟩
  · exact ⟨_, h⟩
  · exact ⟨_, h.trans (exec_after i _)⟩
  · exact ⟨_, h⟩

/-! ## Why a command is refused (R230) -/

/-- The rows of R230's table that a decoded command can meet: on the registers `r` the command is refused with this
status, and these are the registers it leaves. -/
inductive Refuses (r : Regs) : Instr → Status → Regs → Prop where
  | length (hlen : r.flen ≠ 12#4) : Refuses r .frmDecode .eLength (dropFrame r)
  | checksum (hlen : r.flen = 12#4) (hsum : checksum (frameCovered r.fbuf) ≠ frameChecksum r.fbuf) :
    Refuses r .frmDecode .eCrc (dropFrame r)
  | noFrame {n : Byte} (hlo : 0x03 ≤ n.toNat) (hhi : n.toNat ≤ 0x08) (hv : r.fvalid = false) :
    Refuses r (.rd n) .eNoFrame r
  | extractDesc (hd : validDesc Config.beStartNumbering r.desc = false) : Refuses r .extract .eDesc r
  | insertDesc {v : Word} (hd : validDesc Config.beStartNumbering r.desc = false) :
    Refuses r (.insert v) .eDesc (rejectEncode r)
  | fit {v : Word} (hf : fits v r.desc = false) : Refuses r (.insert v) .eFit (rejectEncode r)
  | overlap {v : Word} (ho : r.cover &&& rangeMask Config.beStartNumbering r.desc ≠ 0#64) :
    Refuses r (.insert v) .eOverlap (rejectEncode r)
  | rejected {i : Instr} (hi : (∃ v, i = .insert v) ∨ i = .extract ∨ i = .rd 0x09#8) (he : r.encerr = true) :
    Refuses r i .eEncode r

/-- An effect is an acceptance, or a refusal of `i` on `r` that R230's table lists. -/
def Effect.ByTable (e : Effect) (i : Instr) (r : Regs) : Prop :=
  (∃ r' d, e = accept r' d) ∨ ∃ st r', e = raise st r' ∧ Refuses r i st r'

section
variable {e : Effect} {i : Instr} {r r' : Regs}

theorem Effect.ByTable.of_accept {d : Word} (h : e = accept r' d) : e.ByTable i r := .inl ⟨r', d, h⟩

theorem Effect.ByTable.of_raise {st : Status} (h : e = raise st r') (hr : Refuses r i st r') : e.ByTable i r :=
  .inr ⟨st, r', h, hr⟩

end

section
variable (r : Regs)

theorem effectOf_frmDecode_byTable : (effectOf .frmDecode r).ByTable .frmDecode r := by
  rcases frmDecodeEffect_cases r with ⟨hlen, h⟩ | ⟨hlen, hsum, h⟩ | ⟨_, _, h⟩
  · exact .of_raise h (.length fun h12 => hlen (congrArg BitVec.toNat h12))
  · exact .of_raise h (.checksum (BitVec.eq_of_toNat_eq hlen) hsum)
  · exact .of_accept h

theorem effectOf_extract_byTable : (effectOf .extract r).ByTable .extract r := by
  rcases extractEffect_cases Config.beStartNumbering r with ⟨he, h⟩ | ⟨_, hd, h⟩ | ⟨_, _, h⟩
  · exact .of_raise h (.rejected (.inr (.inl rfl)) he)
  · exact .of_raise h (.extractDesc hd)
  · exact .of_accept h

theorem effectOf_insert_byTable (v : Word) : (effectOf (.insert v) r).ByTable (.insert v) r := by
  rcases insertEffect_cases Config.beStartNumbering v r with
    ⟨he, h⟩ | ⟨_, hd, h⟩ | ⟨_, _, hf, h⟩ | ⟨_, _, _, ho, h⟩ | ⟨_, _, _, _, h⟩
  · exact .of_raise h (.rejected (.inl ⟨v, rfl⟩) he)
  · exact .of_raise h (.insertDesc hd)
  · exact .of_raise h (.fit hf)
  · exact .of_raise h (.overlap ho)
  · exact .of_accept h

/-- The decoder passes on only the register numbers of 10_state.md R25, so `RD` itself has none to refuse. -/
theorem effectOf_rd_byTable {n : Byte} (hwf : (Instr.rd n).wf = true) : (effectOf (.rd n) r).ByTable (.rd n) r := by
  rcases rdEffect_cases n r with ⟨_, h⟩ | ⟨hlo, hhi, hv, h⟩ | ⟨hn, he, h⟩ | ⟨hn, _⟩
  · exact .of_accept h
  · exact .of_raise h (.noFrame hlo hhi hv)
  · exact .of_raise h (.rejected (.inr (.inr (congrArg Instr.rd (BitVec.eq_of_toNat_eq hn)))) he)
  · exact absurd (of_decide_eq_true hwf) (Nat.not_le.2 hn)

/-- A legally encoded command is answered with OK or refused by R230's table. -/
theorem effectOf_byTable {i : Instr} (hwf : i.wf = true) : (effectOf i r).ByTable i r := by
  cases i with
  | frmDecode => exact effectOf_frmDecode_byTable r
  | extract => exact effectOf_extract_byTable r
  | insert v => exact effectOf_insert_byTable r v
  | rd n => exact effectOf_rd_byTable r hwf
  | _ => exact .of_accept rfl

/-- A word answered with E_ARG is of neither format V command. -/
theorem opOf_ne_of_eArg {w : CmdWord} (h : (wordEffect w r).response.status = .eArg) :
    opOf w ≠ 0x33#8 ∧ opOf w ≠ 0x34#8 :=
  not_or.1 fun hop => wordEffect_ne_eArg hop r h

end

/-- Settles O23: a word that does not decode is E_OPCODE or E_ARG by the decoder's reason, and a command that is not
answered with OK is refused by a row of the table. -/
theorem statusesAndWhatRefusalsChange : Obligations.StatusesAndWhatRefusalsChange := by
  refine ⟨rfl, fun w s r q h => ?_⟩
  obtain ⟨rfl, rfl⟩ := after_inj (Host.Outcome.next.inj ((issue_after w s).symm.trans h))
  refine ⟨wordEffect_dataRule w s.regs, ?_⟩
  have harg := opOf_ne_of_eArg s.regs (w := w)
  cases hd : decode w with
  | error e =>
    rw [wordEffect_of_error hd] at harg ⊢
    cases e with
    | illegalOpcode => exact ⟨rfl, rfl⟩
    | reservedBits => exact ⟨.inl rfl, (harg rfl).1, (harg rfl).2, rfl⟩
    | badRegister => exact ⟨.inr rfl, (harg rfl).1, (harg rfl).2, rfl⟩
  | ok i =>
    rw [wordEffect_of_decode hd]
    rcases effectOf_byTable s.regs (encodeOfDecode w i hd).2 with ⟨r', d, he⟩ | ⟨st, r', he, hrow⟩ <;> rw [he]
    · exact ⟨i, rfl⟩
    cases hrow with
    | length hlen => exact ⟨rfl, hlen, rfl⟩
    | checksum hlen hsum => exact ⟨rfl, hlen, hsum, rfl⟩
    | noFrame hlo hhi hv => exact ⟨⟨_, rfl, hlo, hhi⟩, hv, rfl⟩
    | extractDesc hvalid => exact ⟨hvalid, .inl ⟨rfl, rfl⟩⟩
    | insertDesc hvalid => exact ⟨hvalid, .inr ⟨⟨_, rfl⟩, rfl⟩⟩
    | fit hf => exact ⟨_, rfl, hf, rfl⟩
    | overlap ho => exact ⟨⟨_, rfl⟩, ho, rfl⟩
    | rejected hi hrej => exact ⟨by simpa using hi, hrej, rfl⟩

end Sys2Proof.Machine
end

section
/-! PROOFS. A run of a list of command words is as many steps with the list presented
(70_reset_and_hazards.md R267). -/

namespace Sys2Proof.Machine

/-- The host presents the words of `ws`, the first to be taken first, before anything it presented earlier. -/
def presentAll (ws : List CmdWord) (s : State) : State := { s with inputs := ws.map .command ++ s.inputs }

theorem presentAll_cons (w : CmdWord) (ws : List CmdWord) (s : State) :
    presentAll (w :: ws) s = presentNext w (presentAll ws s) := rfl

@[simp] theorem presentAll_regs (ws : List CmdWord) (s : State) : (presentAll ws s).regs = s.regs := rfl

/-- Ending a command leaves what is presented as it is. -/
theorem presentAll_after (ws : List CmdWord) (s : State) (r : Regs) (q : Response) :
    (presentAll ws s).after r q = presentAll ws (s.after r q) := rfl

/-- The step takes the first of the presented words, and the others stay presented. -/
theorem step_presentAll_cons (w : CmdWord) (ws : List CmdWord) (s : State) :
    step (presentAll (w :: ws) s) =
      .next (presentAll ws (s.after (wordEffect w s.regs).regs (wordEffect w s.regs).response)) := by
  have h := issue_after w (presentAll ws s)
  rwa [presentAll_regs, presentAll_after, issue, ← presentAll_cons] at h

/-- A run whose first step goes on continues from the state that step names. -/
theorem run_succ_of_step (M : Host.Core) {s t : M.State} (h : M.step s = .next t) (k : Nat) :
    M.run (k + 1) s = M.run k t := by
  rw [Host.Core.run, h]

/-- The same of the block, whose step in `Sys2Proof.core` is `step`. -/
theorem run_core_succ_of_step {s t : State} (h : step s = .next t) (k : Nat) :
    Host.Core.run Sys2Proof.core (k + 1) s = Host.Core.run Sys2Proof.core k t :=
  run_succ_of_step Sys2Proof.core (s := s) (t := t) h k

theorem runWords_cons (w : CmdWord) (ws : List CmdWord) (s : State) :
    runWords (w :: ws) s =
      runWords ws (s.after (wordEffect w s.regs).regs (wordEffect w s.regs).response) := by
  rw [runWords, issue_after]

/-- As many steps as words are presented run those words. -/
theorem run_presentAll (ws : List CmdWord) (s : State) :
    Host.Core.run Sys2Proof.core ws.length (presentAll ws s) = runWords ws s := by
  induction ws generalizing s with
  | nil => rfl
  | cons w ws ih =>
    rw [List.length_cons, run_core_succ_of_step (step_presentAll_cons w ws s), ih, runWords_cons]

/-- Settles O28, by induction on the list of words: a word's effect reads the registers only, so the words still
presented do not change it. -/
theorem runIsStepsOverThePresentedList : Obligations.RunIsStepsOverThePresentedList := run_presentAll

end Sys2Proof.Machine
end
